-- ==== Sys2Proof/Word.lean ====
section
/-! DEFINITION. The widths of 00_scope.md: symbols (R3), codes (R4), host registers and lengths (R9), and byte sequences (R13). -/

namespace Sys2Proof

/-- A symbol, one byte (R3). -/
abbrev Byte := BitVec 8

/-- A code, 16 bits (R4). -/
abbrev Code := BitVec 16

/-- A host register or a 32-bit cursor (R9). -/
abbrev Word := BitVec 32

/-- A dictionary entry: a byte sequence (R13, R38). -/
abbrev Entry := List Byte

end Sys2Proof
end

