-- ==== Sys2Proof/Syntax.lean ====
section
/-! DEFINITION. The commands of spec/opcode_table.json. A command word has no operand fields (R80): the operands are IN_LEN and IN_BUF. -/

namespace Sys2Proof

/-- The two commands the host can encode (R81). -/
inductive Instr where
  /-- COMPRESS, R184. -/
  | compress
  /-- DECOMPRESS, R186. -/
  | decompress
  deriving DecidableEq, Repr

end Sys2Proof
end

