-- ==== Sys2Proof/Decode.lean ====
section
/-! DEFINITION. The command word: its fields (R80), its decoder (R82) and its encoder (R81). -/

namespace Sys2Proof

/-- OP, bits 3:0 of a command word (R80). -/
def CmdWord.op (w : Word) : BitVec 4 := w.extractLsb' 0 4

/-- RSV, bits 31:4 of a command word (R80). -/
def CmdWord.rsv (w : Word) : BitVec 28 := w.extractLsb' 4 28

/-- Why a command word is ILLEGAL (R82). -/
inductive DecodeError where
  /-- RSV is not zero. -/
  | reservedBits (rsv : BitVec 28)
  /-- RSV is zero and OP is 0x0 or 0x3 to 0xF. -/
  | reservedOp (op : BitVec 4)
  deriving DecidableEq, Repr

/-- decode_cmd, R82. -/
def decode (w : Word) : Except DecodeError Instr :=
  if CmdWord.rsv w ≠ 0 then .error (.reservedBits (CmdWord.rsv w))
  else if CmdWord.op w = 1 then .ok .compress
  else if CmdWord.op w = 2 then .ok .decompress
  else .error (.reservedOp (CmdWord.op w))

/-- OP of a command, R81. -/
def Instr.op : Instr → BitVec 4
  | .compress => 0x1
  | .decompress => 0x2

/-- The command word of a command: RSV zero above OP (R80, R81). -/
def encode (i : Instr) : Word := (0 : BitVec 28) ++ i.op

/-- The command the decoder reads from a table word. A command is one 32-bit register write (R71, R80), so there are no bytes to lay
out: the table's `nbits` low bits are the word and the bits above them are zero. A word that does not fit the register is no
command. -/
def decodeTableWord (nbits w : Nat) : Option Instr :=
  if w % 2 ^ nbits < 2 ^ 32 then (decode (BitVec.ofNat 32 (w % 2 ^ nbits))).toOption else none

end Sys2Proof
end

