-- ==== Sys2Proof/Config.lean ====
section
/-! DEFINITION. What is fixed for one block: the spec's parameters (00_scope.md section 3) and the free values of the host reads
the spec leaves open. The opaque constants have no body: a statement about them holds whatever they are. -/

namespace Sys2Proof

/-- DICT_CAP, R5: the most entries a dictionary holds. -/
abbrev Config.dictCap : Nat := 65536

/-- SEED_N, R6: the seed entries of every dictionary. -/
abbrev Config.seedCount : Nat := 256

/-- IN_CAP, R7: an open parameter of the model, any 32-bit value (log entry 1). -/
opaque Config.inCap : Word

/-- OUT_CAP, R8: an open parameter of the model, any 32-bit value (log entry 1). -/
opaque Config.outCap : Word

/-- The free 32-bit value a read of OUT_LEN, ERR_POS or DICT_NEXT returns while BUSY (R72): draw number, register offset
(log entry 3). -/
opaque Config.freeWord : Nat → Nat → Word

/-- The free contents IN_BUF has after a reset (R31, R230): how many RESETs came before, index. A host read of a byte not written since
returns it (log entry 5). -/
opaque Config.freeInByte : Nat → Nat → Byte

/-- The free byte a host read of OUT_BUF returns while BUSY (R72) or at an index at or past OUT_LEN (R74): draw number, index
(log entries 3 and 6). -/
opaque Config.freeOutByte : Nat → Nat → Byte

end Sys2Proof
end

