-- ==== Sys2Proof/Machine/Bus.lean ====
section
/-! DEFINITION. The host's bus actions (20_memory.md R60, R63, R64; 30_encoding.md R90) as data: what State holds of the host. -/

namespace Sys2Proof.Machine

/-- One host action (R90). An access carries its width in bits, so that the accesses R63 and R64 refuse can be written too. -/
inductive HostOp where
  /-- A write of `v` to the register at byte offset `off` (`W32`). -/
  | regWrite (bits off : Nat) (v : Word)
  /-- A read of the register at byte offset `off` (`RD32`). -/
  | regRead (bits off : Nat)
  /-- A write of `v` to IN_BUF[`idx`] (`WB`). -/
  | inWrite (bits idx : Nat) (v : Byte)
  /-- A read of IN_BUF[`idx`] (R31, R60). -/
  | inRead (bits idx : Nat)
  /-- A write of `v` to OUT_BUF[`idx`], always refused (R64). -/
  | outWrite (bits idx : Nat) (v : Byte)
  /-- A read of OUT_BUF[`idx`] (`RB`). -/
  | outRead (bits idx : Nat)
  /-- `POLL`: read STATUS until BUSY = 0. -/
  | poll
  /-- `RESET` (R230). -/
  | reset
  deriving DecidableEq, Repr

/-- A pending host action: while a command runs, `wait` block steps go before it. Every interleaving that R67 admits is a choice of
these numbers (log entry 2). -/
structure HostAction where
  wait : Nat
  op   : HostOp
  deriving DecidableEq, Repr

/-- What one host read returned, with the place it read. -/
inductive BusRead where
  | reg (off : Nat) (v : Word)
  | inByte (idx : Nat) (v : Byte)
  | outByte (idx : Nat) (v : Byte)
  deriving DecidableEq, Repr

/-- The host actions that only read. -/
def HostOp.isRead : HostOp → Bool
  | .regRead _ _ | .inRead _ _ | .outRead _ _ | .poll => true
  | .regWrite _ _ _ | .inWrite _ _ _ | .outWrite _ _ _ | .reset => false

end Sys2Proof.Machine
end

