-- ==== Sys2Proof/Machine/State.lean ====
section
/-! DEFINITION. The machine's state (10_state.md), the reasons it stops, and the state after reset (70_reset_and_hazards.md R230). -/

namespace Sys2Proof.Machine

/-- A byte buffer: the bytes written, at strictly rising indices. An unlisted byte has no value (R73, R74). -/
abbrev Memory := List Host.Cell

/-- The canonical form of a buffer. An unlisted byte reads as no value, which no listed byte equals, so rising indices are all of it. -/
abbrev Memory.wf (m : Memory) : Prop := m.Pairwise fun x y => x.1 < y.1

/-- The sequencer's state, R33. -/
inductive Phase where
  | idle
  | enc
  | dec
  deriving DecidableEq, Repr

/-- The error kinds of R200. ERR values 6 to 15 are never produced (R206), so they have no constructor. -/
inductive Err where
  | ok
  | framing
  | badCode
  | io
  /-- ERR 4, kept by R204 for an implementation this model is not: no operation of the model raises it. -/
  | internal
  | illegalCmd
  deriving DecidableEq, Repr

/-- Why the machine stops with a fault (R219 and log entry 12). -/
inductive Fault where
  /-- R73: the block read an IN_BUF byte the host has not written since reset. Raised by ENC.BYTE, DEC.FIRST and DEC.CODE. Safe: a real
  block reads an unknown byte and goes on (D24). -/
  | uninitInput
  /-- R164: FRM.SER would see a code at or above NEXT. Raised by `frmSer`; no run reaches it (R107). Safe. -/
  | internalInvariant
  /-- A dictionary lookup at a code that has no entry, or the first byte of an empty entry: undefined in the spec (R13, R41). Raised by
  ENC.BYTE and DEC.CODE; no run reaches it (R38, R45). Safe. -/
  | noEntry
  /-- No block step is enabled: the cursor is past the end of the input. Raised by `blockStep`; no run reaches it (R219). Safe. -/
  | noEnabledStep
  deriving DecidableEq, Repr

/-- The host actions the spec refuses: it gives them no meaning (R219). All are safe: a claim about a program that does one cannot be
proved. -/
inductive Refusal where
  /-- An instruction with no meaning yet. Raised by an arm of `exec` only; no arm does. Safe. -/
  | notModelled (mnemonic : String)
  /-- R234: a write to CMD while BUSY = 1. Raised by `execCompress`, `execDecompress` and an illegal CMD write. Safe (D13). -/
  | cmdWhileBusy
  /-- R235: a write to IN_LEN while BUSY = 1. Raised by `hostRegWrite`. Safe (D13). -/
  | inLenWhileBusy
  /-- R235: a write to IN_BUF while BUSY = 1. Raised by `hostInWrite`. Safe (D13). -/
  | inBufWhileBusy
  /-- R63: a register access that is not 32 bits wide. Raised by `hostAccess`. Safe (D18). -/
  | regWidth
  /-- R63: a register access at an offset that is not a multiple of 4. Raised by `hostAccess`. Safe (D18). -/
  | regAlignment
  /-- R64: a buffer access that is not one byte. Raised by `hostAccess`. Safe (D18). -/
  | bufWidth
  /-- R64: a buffer access at or past the buffer's size. Raised by `hostAccess`. Safe (D18). -/
  | bufRange
  /-- R64: a host write to OUT_BUF. Raised by `hostAccess`. Safe (D18). -/
  | outBufWrite
  deriving DecidableEq, Repr

/-- The block (10_state.md) and what the model holds of its host. CMD holds no state (R22) and has no field. -/
structure State where
  /-- STATUS, R23. -/
  status : Word
  /-- IN_LEN, R25. -/
  inLen : Word
  /-- OUT_LEN, R26. -/
  outLen : Word
  /-- ERR_POS, R27. -/
  errPos : Word
  /-- DICT_NEXT, R28. -/
  dictNext : Word
  /-- IN_CAP_R, the constant IN_CAP, R29. -/
  inCapR : Word
  /-- OUT_CAP_R, the constant OUT_CAP, R29. -/
  outCapR : Word
  /-- IN_BUF, R31. -/
  inBuf : Memory
  /-- OUT_BUF, R32. -/
  outBuf : Memory
  /-- The sequencer, R33. -/
  phase : Phase
  /-- The input cursor, R34. -/
  ip : Word
  /-- The output cursor, R35. -/
  op : Word
  /-- The latched input length, R36. -/
  nIn : Word
  /-- NEXT, R37. -/
  next : BitVec 17
  /-- The running command's dictionary E, R38: entry `k` is the `k`-th of the list. Empty when no dictionary exists (R43). The forward
  (R40) and reverse (R41) dictionaries are views of it. -/
  dict : List Entry
  /-- The match buffer's valid bit, R39. -/
  wValid : Bool
  /-- The match buffer's code, R39. -/
  wCode : Code
  /-- The decoder's previous-entry register, R42. -/
  prevCode : Code
  /-- R42: 1 until the first code has been decoded. -/
  firstPending : Bool
  /-- MODEL'S OWN: the pending host actions, in the host's program order (R68; log entry 2). -/
  host : List HostAction
  /-- MODEL'S OWN: what the host's reads returned, oldest first (log entry 8). -/
  reads : List BusRead
  /-- MODEL'S OWN: the number of the next free value (log entry 3). -/
  draws : Nat
  /-- MODEL'S OWN: how many RESETs the block has taken, which selects the free contents of IN_BUF (log entry 5). -/
  resets : Nat
  deriving DecidableEq, Repr

/-- The block after RESET (R230), for given capacities. The registers whose reset value R230 leaves unspecified hold 0 (log entry 4).
Nothing is pending at the host, nothing was read, no free value was drawn, no RESET was counted (log entries 2, 3, 5 and 8). -/
def State.resetWith (inCap outCap : Word) : State where
  status := 0
  inLen := 0
  outLen := 0
  errPos := 0
  dictNext := 0
  inCapR := inCap
  outCapR := outCap
  inBuf := []
  outBuf := []
  phase := .idle
  ip := 0
  op := 0
  nIn := 0
  next := 0
  dict := []
  wValid := false
  wCode := 0
  prevCode := 0
  firstPending := false
  host := []
  reads := []
  draws := 0
  resets := 0

/-- The machine right after reset (R230, R231): idle, at the parameters IN_CAP and OUT_CAP. -/
def State.reset : State := State.resetWith Config.inCap Config.outCap

end Sys2Proof.Machine
end

