-- ==== Sys2Proof/Machine/Flags.lean ====
section
/-! DEFINITION. STATUS (10_state.md R23, R24; 30_encoding.md R83) and the numbers of the error kinds (60_exceptions.md R200). -/

namespace Sys2Proof.Machine

/-- STATUS.ERR's numbers, R200. -/
def Err.code : Err → BitVec 4
  | .ok => 0
  | .framing => 1
  | .badCode => 2
  | .io => 3
  | .internal => 4
  | .illegalCmd => 5

/-- The STATUS word: BUSY bit 0, DONE bit 1, bits 3:2 zero, ERR bits 7:4, bits 31:8 zero (R23, R83). -/
def statusWord (busy done : Bool) (err : BitVec 4) : Word :=
  (0 : BitVec 24) ++ err ++ (0 : BitVec 2) ++ BitVec.ofBool done ++ BitVec.ofBool busy

/-- RUNNING of R24: what R181 writes. -/
def statusRunning : Word := statusWord true false 0

/-- ENDED of R24: what R182 and R188 write. -/
def statusEnded (e : Err) : Word := statusWord false true e.code

/-- STATUS.BUSY. -/
def State.busy (s : State) : Bool := s.status.getLsbD 0

/-- STATUS.DONE. -/
def State.done (s : State) : Bool := s.status.getLsbD 1

/-- STATUS.ERR. -/
def State.err (s : State) : BitVec 4 := s.status.extractLsb' 4 4

end Sys2Proof.Machine
end

