-- ==== Sys2Proof/Machine/Ops.lean ====
section
/-! DEFINITION. The shared operations: the buffers' bytes, the result of one operation, ending a command (R188, R207), and the one
operation that changes a dictionary (R44). -/

namespace Sys2Proof.Machine

/-! ### Buffers -/

/-- The byte written at index `a`, or none if none was. -/
def Memory.read : Memory → Nat → Option Byte
  | [], _ => none
  | (b, v) :: m, a => if a = b then some v else Memory.read m a

/-- Write one byte at its place in the rising order. -/
def Memory.write : Memory → Nat → Byte → Memory
  | [], a, v => [(a, v)]
  | (b, u) :: m, a, v =>
    if a < b then (a, v) :: (b, u) :: m
    else if a = b then (a, v) :: m
    else (b, u) :: Memory.write m a v

/-- Write the bytes of `bs` at increasing indices from `a` on (R134). -/
def Memory.writeBytes : Memory → Nat → List Byte → Memory
  | m, _, [] => m
  | m, a, b :: bs => Memory.writeBytes (m.write a b) (a + 1) bs

/-! ### The result of one operation of a block step -/

/-- What an operation of the datapath answers: a value, an architectural error with its position (R207), or a model fault (R219). -/
inductive StepResult (α : Type) where
  | done (a : α)
  | raise (e : Err) (pos : Word)
  | fault (f : Fault)
  deriving DecidableEq, Repr

/-- Run `f` on the value, if there is one. -/
def StepResult.bind {α β : Type} (r : StepResult α) (f : α → StepResult β) : StepResult β :=
  match r with
  | .done a => f a
  | .raise e pos => .raise e pos
  | .fault x => .fault x

/-- The value of `o`, or the fault `f` where there is none. -/
def StepResult.ofOption {α : Type} (f : Fault) (o : Option α) : StepResult α :=
  match o with
  | some a => .done a
  | none => .fault f

/-- first(s), R13: defined only for a non-empty sequence (log entry 12). -/
def firstByte (e : Entry) : StepResult Byte := StepResult.ofOption .noEntry e.head?

/-! ### Ending a command -/

/-- commit(e, pos), R188. The dictionary, `w` and `prev_code` are dropped (R43; log entry 7). -/
def commit (e : Err) (pos : Word) (s : State) : State :=
  { s with
    outLen := s.op
    errPos := pos
    dictNext := s.next.zeroExtend 32
    status := statusEnded e
    phase := .idle
    dict := []
    wValid := false
    wCode := 0
    prevCode := 0 }

/-- complete(), R188. -/
def complete (s : State) : State := commit .ok 0 s

/-- Error termination, R207: an operation that raises has no effect but `commit` on the state `s` from before it. -/
def finish (s : State) (r : StepResult State) : Host.Outcome State Fault Refusal :=
  match r with
  | .done t => .next t
  | .raise e pos => .next (commit e pos s)
  | .fault f => .fault f

/-! ### Dictionary growth -/

/-- The seed entries, R6 and R38: `E[i] = [i]` for `i` below 256. -/
def seeds : List Entry := (List.range Config.seedCount).map fun i => [BitVec.ofNat 8 i]

/-- insert(s), R44: add `e` at code NEXT while NEXT < 65536; saturated, change nothing. -/
def insertEntry (e : Entry) (s : State) : State :=
  if s.next.toNat < Config.dictCap then { s with dict := s.dict ++ [e], next := s.next + 1 } else s

/-! ### Writing OUT_BUF -/

/-- The bytes of `bs` at the output cursor, and the cursor past them (R134, R163). The callers check the capacity first. -/
def putBytes (bs : List Byte) (s : State) : State :=
  { s with outBuf := s.outBuf.writeBytes s.op.toNat bs, op := s.op + BitVec.ofNat 32 bs.length }

end Sys2Proof.Machine
end

