-- ==== Sys2Proof/Machine/Operands.lean ====
section
/-! DEFINITION. The operands of the datapath's operations: input bytes (R65), framed codes (R162), dictionary entries (R38, R41) and
the forward lookup (R40). A command word itself has no operand fields (R80). -/

namespace Sys2Proof.Machine

/-- MemRead(IN, i, 1), R65 and R73: the byte the host wrote, or the fault UninitInput. -/
def memReadIn (s : State) (i : Nat) : StepResult Byte := StepResult.ofOption .uninitInput (s.inBuf.read i)

/-- A code assembled from its two bytes, most significant first (R86). -/
def codeOfBytes (hi lo : Byte) : Code := (hi.zeroExtend 16 <<< 8) ||| lo.zeroExtend 16

/-- The two bytes of a code, most significant first (R84). -/
def bytesOfCode (k : Code) : List Byte := [k.extractLsb' 8 8, k.extractLsb' 0 8]

/-- The code of a seed: zext_16 of its byte (R102). -/
def seedCode (c : Byte) : Code := c.zeroExtend 16

/-- FRM.DES(i), R162: code `i` of the framed input. -/
def frmDes (s : State) (i : Nat) : StepResult Code :=
  (memReadIn s (2 * i)).bind fun hi =>
  (memReadIn s (2 * i + 1)).bind fun lo =>
  .done (codeOfBytes hi lo)

/-- E[k], R38 and R41: slot `k` holds an entry exactly when `k < NEXT`. -/
def dictEntry (s : State) (k : Nat) : Option Entry := if k < s.next.toNat then s.dict[k]? else none

/-- E[k] where the spec takes it to exist (log entry 12). -/
def entryAt (s : State) (k : Code) : StepResult Entry := StepResult.ofOption .noEntry (dictEntry s k.toNat)

/-- FD(p, b), R40: the code `n` with `256 <= n < NEXT` and `E[n] = E[p] ++ [b]`, if there is one. The lookup is exact (R105). -/
def fdLookup (s : State) (p : Code) (b : Byte) : Option Code :=
  match dictEntry s p.toNat with
  | none => none
  | some w =>
    (((s.dict.take s.next.toNat).drop Config.seedCount).findIdx? fun e => decide (e = w ++ [b])).map fun j =>
      BitVec.ofNat 16 (Config.seedCount + j)

/-- The number of codes of the framed input, R161. -/
def codeCount (s : State) : Nat := s.nIn.toNat / 2

end Sys2Proof.Machine
end

