-- ==== Sys2Proof/Machine/Framer.lean ====
section
/-! DEFINITION. The binary framer (42_framer.md): FRM.CHECK and FRM.SER. FRM.DES is an operand form (Operands.lean). -/

namespace Sys2Proof.Machine

/-- FRM.CHECK, R160: the input length is even, or FRAMING at the dangling byte. -/
def frmCheck (s : State) : StepResult State :=
  if s.nIn.toNat % 2 = 1 then .raise .framing (s.nIn - 1) else .done s

/-- emit(k), FRM.SER, R163: both bytes of the code at the output cursor, or IO and neither. A code at or above NEXT is the model fault
of R164 (log entry 15). -/
def frmSer (k : Code) (s : State) : StepResult State :=
  if s.next.toNat ≤ k.toNat then .fault .internalInvariant
  else if s.outCapR.toNat < s.op.toNat + 2 then .raise .io s.ip
  else .done (putBytes (bytesOfCode k) s)

end Sys2Proof.Machine
end

