-- ==== Sys2Proof/Machine/Decoder.lean ====
section
/-! DEFINITION. The LZW decoder's datapath (41_decoder.md): DEC.INIT, DEC.FIRST, DEC.CODE, append, DEC.END. -/

namespace Sys2Proof.Machine

/-- DEC.INIT, R131. -/
def decInit (s : State) : State :=
  { s with dict := seeds, next := 256, firstPending := true, ip := 0, op := 0, phase := .dec }

/-- append(s), R134: the whole entry at the output cursor, or IO and none of it. -/
def outAppend (e : Entry) (s : State) : StepResult State :=
  if s.outCapR.toNat < s.op.toNat + e.length then .raise .io s.ip else .done (putBytes e s)

/-- DEC.FIRST, R132. -/
def decFirst (s : State) : StepResult State :=
  (frmDes s s.ip.toNat).bind fun k =>
  if 256 ≤ k.toNat then .raise .badCode s.ip
  else (outAppend [k.setWidth 8] s).bind fun t =>
    .done { t with prevCode := k, firstPending := false, ip := t.ip + 1 }

/-- The entry DEC.CODE decodes for the code `k` when the previous entry is `w`: a known one, the special case, or BAD_CODE (R133). -/
def codeEntry (s : State) (w : Entry) (k : Code) : StepResult Entry :=
  if k.toNat < s.next.toNat then entryAt s k
  else if k.toNat = s.next.toNat then (firstByte w).bind fun b => .done (w ++ [b])
  else .raise .badCode s.ip

/-- DEC.CODE, R133. -/
def decCode (s : State) : StepResult State :=
  (frmDes s s.ip.toNat).bind fun k =>
  (entryAt s s.prevCode).bind fun w =>
  (codeEntry s w k).bind fun entry =>
  (outAppend entry s).bind fun t =>
  (firstByte entry).bind fun b =>
  .done { insertEntry (w ++ [b]) t with prevCode := k, ip := t.ip + 1 }

/-- DEC.END, R135. -/
def decEnd (s : State) : StepResult State := .done (complete s)

end Sys2Proof.Machine
end

