-- ==== Sys2Proof/Machine/Encoder.lean ====
section
/-! DEFINITION. The LZW encoder's datapath (40_encoder.md): ENC.INIT, ENC.BYTE, ENC.FLUSH. -/

namespace Sys2Proof.Machine

/-- ENC.INIT, R101. -/
def encInit (s : State) : State :=
  { s with dict := seeds, next := 256, wValid := false, ip := 0, op := 0, phase := .enc }

/-- The mismatch branch of ENC.BYTE, R102: emit the match's code, insert the match and the byte, restart with the byte. -/
def encMismatch (c : Byte) (s : State) : StepResult State :=
  (frmSer s.wCode s).bind fun s1 =>
  (entryAt s1 s1.wCode).bind fun w =>
  .done { insertEntry (w ++ [c]) s1 with wCode := seedCode c }

/-- ENC.BYTE on the byte `c`, but for the cursor: start a match, extend it, or emit and restart (R102). -/
def encMatch (c : Byte) (s : State) : StepResult State :=
  if s.wValid then
    match fdLookup s s.wCode c with
    | some n => .done { s with wCode := n }
    | none => encMismatch c s
  else .done { s with wCode := seedCode c, wValid := true }

/-- ENC.BYTE, R102. -/
def encByte (s : State) : StepResult State :=
  (memReadIn s s.ip.toNat).bind fun c =>
  (encMatch c s).bind fun t =>
  .done { t with ip := t.ip + 1 }

/-- ENC.FLUSH, R103. -/
def encFlush (s : State) : StepResult State :=
  (if s.wValid then frmSer s.wCode s else .done s).bind fun t =>
  .done (complete t)

end Sys2Proof.Machine
end

