-- ==== Sys2Proof/Machine/Commands.lean ====
section
/-! DEFINITION. The commands (43_commands.md): acceptance, the capacity check, and step 0 of COMPRESS and DECOMPRESS. The later steps
of a command are the block's (Sequencer.lean). -/

namespace Sys2Proof.Machine

/-- A CMD write takes effect only while BUSY = 0; while BUSY it is refused (R180, R234). -/
def whenIdle (s : State) (r : Host.Outcome State Fault Refusal) : Host.Outcome State Fault Refusal :=
  if s.busy then .refused .cmdWhileBusy else r

/-- Acceptance, R181: BUSY = 1, DONE = 0, ERR = 0, and IN_LEN latched. -/
def accept (s : State) : State := { s with status := statusRunning, nIn := s.inLen }

/-- The input capacity check, R183. -/
def capacityCheck (s : State) : StepResult State :=
  if s.inCapR.toNat < s.nIn.toNat then .raise .io s.inCapR else .done s

/-- COMPRESS, step 0 of R184: accept, ENC.INIT, the capacity check. An error of the check keeps what ENC.INIT wrote (R183). -/
def execCompress (s : State) : Host.Outcome State Fault Refusal :=
  whenIdle s (finish (encInit (accept s)) (capacityCheck (encInit (accept s))))

/-- DECOMPRESS, step 0 of R186: accept, DEC.INIT, the capacity check, FRM.CHECK. -/
def execDecompress (s : State) : Host.Outcome State Fault Refusal :=
  whenIdle s (finish (decInit (accept s)) ((capacityCheck (decInit (accept s))).bind frmCheck))

/-- ILLEGAL_CMD, R182: only STATUS changes. -/
def illegalCmd (s : State) : Host.Outcome State Fault Refusal :=
  whenIdle s (.next { s with status := statusEnded .illegalCmd })

end Sys2Proof.Machine
end

