-- ==== Sys2Proof/Machine/Host.lean ====
section
/-! DEFINITION. The host's accesses: registers (10_state.md R21 to R30), buffers (R31, R32), the refusals (20_memory.md R63, R64;
70_reset_and_hazards.md R234, R235), the reads that are free (R72, R74), and RESET (R230). -/

namespace Sys2Proof.Machine

/-- What a host read returned joins the host's log. -/
def logRead (r : BusRead) (s : State) : State := { s with reads := s.reads ++ [r] }

/-- A write of `v` to CMD, R180: the decoded command, or ILLEGAL_CMD. -/
def hostCmdWrite (v : Word) (s : State) : Host.Outcome State Fault Refusal :=
  match decode v with
  | .ok i => exec i s
  | .error _ => illegalCmd s

/-- An aligned 32-bit register write, R21 and R30. Read-only registers and unmapped offsets take no effect. -/
def hostRegWrite (off : Nat) (v : Word) (s : State) : Host.Outcome State Fault Refusal :=
  if off = 0x00 then hostCmdWrite v s
  else if off = 0x08 then
    if s.busy then .refused .inLenWhileBusy else .next { s with inLen := v }
  else .next s

/-- A register that only a completed command fixes: free while BUSY (R72). -/
def resultReg (off : Nat) (v : Word) (s : State) : Word := if s.busy then Config.freeWord s.draws off else v

/-- The value of the register at an aligned offset, R21; an unmapped offset reads 0 (R30). -/
def regValue (off : Nat) (s : State) : Word :=
  match off with
  | 0x04 => s.status
  | 0x08 => s.inLen
  | 0x0C => resultReg 0x0C s.outLen s
  | 0x10 => resultReg 0x10 s.errPos s
  | 0x14 => resultReg 0x14 s.dictNext s
  | 0x18 => s.inCapR
  | 0x1C => s.outCapR
  | _ => 0

/-- IN_BUF[i] as the host reads it: the byte last written (R31, R75), or where none was the free byte that stands there since the last
reset and survives every command (R31; log entry 5). -/
def inByteValue (i : Nat) (s : State) : Byte := (s.inBuf.read i).getD (Config.freeInByte s.resets i)

/-- OUT_BUF[i] as the host reads it: after a command, the byte it wrote below OUT_LEN (R74); while BUSY and elsewhere a free byte
(R72, R74). -/
def outByteValue (i : Nat) (s : State) : Byte :=
  if s.busy = false ∧ i < s.outLen.toNat then (s.outBuf.read i).getD (Config.freeOutByte s.draws i)
  else Config.freeOutByte s.draws i

/-- A write of one byte to IN_BUF, refused while BUSY (R235). -/
def hostInWrite (i : Nat) (v : Byte) (s : State) : Host.Outcome State Fault Refusal :=
  if s.busy then .refused .inBufWhileBusy else .next { s with inBuf := s.inBuf.write i v }

/-- RESET, R230: every piece of the block's state at its reset value; the capacities are constants (R29). What the host still means to do
and has read is not the block's (log entry 8), and IN_BUF has new free contents (log entry 5). -/
def hostReset (s : State) : State :=
  { State.resetWith s.inCapR s.outCapR with host := s.host, reads := s.reads, draws := s.draws, resets := s.resets + 1 }

/-- `POLL`, R90: one read of STATUS; while it shows BUSY = 1 the POLL stays pending, the next read after one more block step
(log entry 2). -/
def hostPoll (s : State) : State :=
  let t := logRead (.reg 0x04 s.status) s
  if s.busy then { t with host := ⟨1, .poll⟩ :: t.host } else t

/-- R63: a register access must be 32 bits wide and aligned. -/
def regAccess (bits off : Nat) (r : Host.Outcome State Fault Refusal) : Host.Outcome State Fault Refusal :=
  if bits ≠ 32 then .refused .regWidth else if off % 4 ≠ 0 then .refused .regAlignment else r

/-- R64: a buffer access must be one byte below the buffer's size. -/
def bufAccess (bits idx cap : Nat) (r : Host.Outcome State Fault Refusal) : Host.Outcome State Fault Refusal :=
  if bits ≠ 8 then .refused .bufWidth else if cap ≤ idx then .refused .bufRange else r

/-- One host action (R60, R90). -/
def hostAccess (op : HostOp) (s : State) : Host.Outcome State Fault Refusal :=
  match op with
  | .regWrite bits off v => regAccess bits off (hostRegWrite off v s)
  | .regRead bits off => regAccess bits off (.next (logRead (.reg off (regValue off s)) s))
  | .inWrite bits idx v => bufAccess bits idx s.inCapR.toNat (hostInWrite idx v s)
  | .inRead bits idx => bufAccess bits idx s.inCapR.toNat (.next (logRead (.inByte idx (inByteValue idx s)) s))
  | .outWrite _ _ _ => .refused .outBufWrite
  | .outRead bits idx => bufAccess bits idx s.outCapR.toNat (.next (logRead (.outByte idx (outByteValue idx s)) s))
  | .poll => .next (hostPoll s)
  | .reset => .next (hostReset s)

end Sys2Proof.Machine
end

