-- ==== Sys2Proof/Machine/Sequencer.lean ====
section
/-! DEFINITION. Who moves next and what the block's step is (00_scope.md R15; 20_memory.md R67; 43_commands.md R184, R186). -/

namespace Sys2Proof.Machine

/-- One step of the running command: the one operation that is enabled (R102, R103, R132, R133, R135). -/
def blockStep (s : State) : Host.Outcome State Fault Refusal :=
  match s.phase with
  | .idle => .fault .noEnabledStep
  | .enc =>
    if s.ip.toNat < s.nIn.toNat then finish s (encByte s)
    else if s.ip.toNat = s.nIn.toNat then finish s (encFlush s)
    else .fault .noEnabledStep
  | .dec =>
    if s.ip.toNat < codeCount s then finish s (if s.firstPending then decFirst s else decCode s)
    else if s.ip.toNat = codeCount s then finish s (decEnd s)
    else .fault .noEnabledStep

/-- The host's turn is due: no command runs, or the block steps its action waits for are done (log entry 2). -/
def hostDue (s : State) (a : HostAction) : Bool := decide (s.phase = .idle) || decide (a.wait = 0)

/-- The host actions from which on the free values of OUT_LEN, ERR_POS, DICT_NEXT and OUT_BUF are fresh: a read while BUSY (R72), a
RESET (R230), and a CMD write of a command, whose acceptance is a block step (R15, R74). Every other action leaves them as they are
(R66, R182, R216; log entry 3). -/
def freshDraw (op : HostOp) (s : State) : Bool :=
  match op with
  | .regRead _ _ | .inRead _ _ | .outRead _ _ | .poll => s.busy
  | .regWrite _ off v => decide (off = 0x00) && (decode v).toOption.isSome
  | .inWrite _ _ _ | .outWrite _ _ _ => false
  | .reset => true

/-- The state in which a due host action takes effect: the action is no longer pending, and free values are fresh where `freshDraw`
says so. -/
def takeAction (a : HostAction) (rest : List HostAction) (s : State) : State :=
  { s with host := rest, draws := if freshDraw a.op s then s.draws + 1 else s.draws }

/-- The state in which the block steps: one wait of the pending host action is done, and free values are fresh (log entry 3). -/
def blockTurn (s : State) : State :=
  { s with
    host := match s.host with
      | [] => []
      | a :: rest => { a with wait := a.wait - 1 } :: rest
    draws := s.draws + 1 }

/-- One move of the machine: the due host action, else the running command's step, else nothing (R216, R231; log entry 11). -/
def move (s : State) : Host.Outcome State Fault Refusal :=
  match s.host with
  | a :: rest => if hostDue s a then hostAccess a.op (takeAction a rest s) else blockStep (blockTurn s)
  | [] => if s.phase = .idle then .next s else blockStep (blockTurn s)

/-- Stop a running command without a `commit`, so that a CMD write is taken (log entry 10). -/
def setIdle (s : State) : State :=
  { s with phase := .idle, status := if s.busy then 0 else s.status }

/-- `v` is the host's next write to CMD, and the host moves next (log entry 10). -/
def pendCmdWrite (v : Word) (s : State) : State :=
  { setIdle s with host := ⟨0, .regWrite 32 0x00 v⟩ :: s.host }

end Sys2Proof.Machine
end

