-- ==== Sys2Proof/Machine/Step.lean ====
section
/-! DEFINITION. One step of the machine, and the placing of a command word where the next step takes it. -/

namespace Sys2Proof.Machine

/-- One step: one host action or one block step (R15, R67). -/
def step (s : State) : Host.Outcome State Fault Refusal := Sys2Proof.Machine.move s

/-- `s` with the command word `w` as the host's next CMD write (log entry 10). -/
def State.withFetchWord (s : State) (nbits w : Nat) : State :=
  Sys2Proof.Machine.pendCmdWrite (BitVec.ofNat 32 (w % 2 ^ nbits)) s

end Sys2Proof.Machine
end

