-- ==== Sys2Proof/Machine/HostNotation.lean ====
section
/-! DEFINITION. The host notation (30_encoding.md R90, R91) as data, and the bus actions each line stands for. -/

namespace Sys2Proof.Machine

/-- One line of a host program (R90, R91). The host variable that a read names is the host's own: the value read is in `reads`. -/
inductive HostLine where
  | w32 (off : Nat) (v : Word)
  | rd32 (off : Nat)
  | wb (i : Nat) (b : Byte)
  | wbs (i : Nat) (bs : List Byte)
  /-- `WBS i, "text"`: the text's ASCII codes. -/
  | wbsText (i : Nat) (text : String)
  | rb (j : Nat)
  | rbs (j n : Nat)
  | poll
  | reset
  /-- The pseudo-instructions COMPRESS and DECOMPRESS. -/
  | cmd (i : Instr)
  | setlen (n : Word)
  /-- RUN: the command, then POLL. -/
  | run (i : Instr)
  /-- CHECK: no bus action. -/
  | check
  deriving DecidableEq, Repr

/-- One IN write per byte, at increasing indices. -/
def writeOps : Nat → List Byte → List HostOp
  | _, [] => []
  | i, b :: bs => .inWrite 8 i b :: writeOps (i + 1) bs

/-- The bus actions of a line (R90, R91). -/
def HostLine.ops : HostLine → List HostOp
  | .w32 off v => [.regWrite 32 off v]
  | .rd32 off => [.regRead 32 off]
  | .wb i b => [.inWrite 8 i b]
  | .wbs i bs => writeOps i bs
  | .wbsText i text => writeOps i (text.toList.map fun c => BitVec.ofNat 8 c.toNat)
  | .rb j => [.outRead 8 j]
  | .rbs j n => (List.range n).map fun d => .outRead 8 (j + d)
  | .poll => [.poll]
  | .reset => [.reset]
  | .cmd i => [.regWrite 32 0x00 (encode i)]
  | .setlen n => [.regWrite 32 0x08 n]
  | .run i => [.regWrite 32 0x00 (encode i), .poll]
  | .check => []

/-- A host program's bus actions in order (R90), none waiting for a block step of its own. -/
def assemble (p : List HostLine) : List HostAction := (p.flatMap HostLine.ops).map fun o => ⟨0, o⟩

end Sys2Proof.Machine
end

