-- ==== Sys2Proof/Machine/Reference.lean ====
section
/-! DEFINITION. The spec's reference functions: frame and unframe (30_encoding.md R85, R86), encode (40_encoder.md R100) and decode
(41_decoder.md R130), over whole sequences. No step uses them; statements compare the steps with them. -/

namespace Sys2Proof.Machine

/-- frame(cs), R85. -/
def frame (cs : List Code) : List Byte := cs.flatMap bytesOfCode

/-- unframe(y), R86. A last odd byte frames no code (FRM.CHECK rejects such a length). -/
def unframe : List Byte → List Code
  | hi :: lo :: y => codeOfBytes hi lo :: unframe y
  | _ => []

/-- insert on a dictionary alone, R44. -/
def refInsert (E : List Entry) (e : Entry) : List Entry := if E.length < Config.dictCap then E ++ [e] else E

/-- code(s), R100: the code of an entry. -/
def codeOf (E : List Entry) (e : Entry) : Code := BitVec.ofNat 16 (E.idxOf e)

/-- The variables of `encode`, R100. -/
structure EncodeVars where
  E   : List Entry
  w   : Entry
  out : List Code
  deriving DecidableEq, Repr

/-- `encode` before the first byte. -/
def encodeStart : EncodeVars := ⟨seeds, [], []⟩

/-- One round of `encode`'s loop, R100. -/
def encodeByte (v : EncodeVars) (c : Byte) : EncodeVars :=
  if v.w ++ [c] ∈ v.E then { v with w := v.w ++ [c] }
  else ⟨refInsert v.E (v.w ++ [c]), [c], v.out ++ [codeOf v.E v.w]⟩

/-- `encode`'s variables after the bytes of `x`. -/
def encodeLoop (x : List Byte) : EncodeVars := x.foldl encodeByte encodeStart

/-- The final emission of `encode`, R100. -/
def encodeFlush (v : EncodeVars) : List Code := if v.w = [] then v.out else v.out ++ [codeOf v.E v.w]

/-- encode(x), R100. -/
def encodeRef (x : List Byte) : List Code := encodeFlush (encodeLoop x)

/-- What `decode` answers, R130. -/
inductive DecodeResult where
  | ok (bytes : List Byte)
  | badCode (index : Nat) (appended : List Byte)
  deriving DecidableEq, Repr

/-- The variables of `decode`'s loop, R130. -/
structure DecodeVars where
  E   : List Entry
  w   : Entry
  out : List Byte
  deriving DecidableEq, Repr

/-- The entry `decode` finds for a code after the first, or none where it is unknown (R130). -/
def decodeEntry (v : DecodeVars) (k : Code) : Option Entry :=
  if k.toNat < v.E.length then v.E[k.toNat]?
  else if k.toNat = v.E.length then some (v.w ++ v.w.take 1)
  else none

/-- `decode`'s variables after one more code whose entry is `entry` (R130). -/
def decodeNext (v : DecodeVars) (entry : Entry) : DecodeVars :=
  ⟨refInsert v.E (v.w ++ entry.take 1), entry, v.out ++ entry⟩

/-- `decode`'s loop from code index `i` on, R130. -/
def decodeLoop (v : DecodeVars) (i : Nat) : List Code → DecodeResult
  | [] => .ok v.out
  | k :: cs =>
    match decodeEntry v k with
    | some entry => decodeLoop (decodeNext v entry) (i + 1) cs
    | none => .badCode i v.out

/-- `decode`'s variables after the first code, a seed (R130). -/
def decodeStart (k : Code) : DecodeVars := ⟨seeds, [k.setWidth 8], [k.setWidth 8]⟩

/-- `decode`'s variables after the codes of `cs`, each of which must be known (R130). -/
def decodeVarsFrom (v : DecodeVars) : List Code → Option DecodeVars
  | [] => some v
  | k :: cs => (decodeEntry v k).bind fun entry => decodeVarsFrom (decodeNext v entry) cs

/-- `decode`'s variables after the codes of `cs` from its start on; `w` is empty before the first code (R130, R139). -/
def decodeVars : List Code → Option DecodeVars
  | [] => some ⟨seeds, [], []⟩
  | k :: cs => if 256 ≤ k.toNat then none else decodeVarsFrom (decodeStart k) cs

/-- decode(cs), R130. -/
def decodeRef : List Code → DecodeResult
  | [] => .ok []
  | k :: cs => if 256 ≤ k.toNat then .badCode 0 [] else decodeLoop (decodeStart k) 1 cs

end Sys2Proof.Machine
end

