-- ==== Sys2Proof/WellFormed.lean ====
section
/-! DEFINITION. Which commands and which host accesses the spec gives a meaning to, whatever the state of the command (R63, R64, R80).
The refusals that depend on BUSY (R234, R235) are the machine's. -/

namespace Sys2Proof

/-- A command has no operand fields to check (R80): both are well formed. -/
def Instr.wellFormed : Instr → Bool
  | .compress => true
  | .decompress => true

/-- R63 and R64: a register access is 32 bits wide at a multiple of 4; a buffer access is one byte below the buffer's size; OUT_BUF is
not written by the host. -/
def Machine.HostOp.wellFormed (inCap outCap : Nat) : Machine.HostOp → Bool
  | .regWrite bits off _ => bits = 32 ∧ off % 4 = 0
  | .regRead bits off => bits = 32 ∧ off % 4 = 0
  | .inWrite bits idx _ => bits = 8 ∧ idx < inCap
  | .inRead bits idx => bits = 8 ∧ idx < inCap
  | .outRead bits idx => bits = 8 ∧ idx < outCap
  | .outWrite _ _ _ => false
  | .poll => true
  | .reset => true

end Sys2Proof
end

