-- ==== Sys2Proof/Safety.lean ====
section
/-! DEFINITION. The terms statements use: runs, what the buffers hold, and the invariants of the machine (10_state.md, 40_encoder.md
R107 and R110, 41_decoder.md R139). -/

namespace Sys2Proof.Machine

/-- `k` steps of the machine, stopping at the first fault or refusal. -/
def runSteps : Nat → State → Host.Outcome State Fault Refusal
  | 0, s => .next s
  | k + 1, s =>
    match step s with
    | .next t => runSteps k t
    | .fault f => .fault f
    | .refused r => .refused r

/-- IN_BUF holds the bytes of `x` from index 0 on. -/
abbrev HoldsInput (s : State) (x : List Byte) : Prop := ∀ i < x.length, s.inBuf.read i = x[i]?

/-- OUT_BUF holds the bytes of `y` from index 0 on. -/
abbrev HoldsOutput (s : State) (y : List Byte) : Prop := ∀ i < y.length, s.outBuf.read i = y[i]?

/-- The host has written every byte the running command reads (R73, R233). -/
abbrev InputWritten (s : State) : Prop := ∀ i < s.nIn.toNat, s.inBuf.read i ≠ none

/-- The block is idle for the host as well: no command runs and BUSY = 0. -/
abbrev IsIdle (s : State) : Prop := s.phase = .idle ∧ s.busy = false

/-- The action `a` is the host's next and takes effect at the next step. -/
abbrev HostMoves (s : State) (a : HostAction) (rest : List HostAction) : Prop :=
  s.host = a :: rest ∧ hostDue s a = true

/-- The running command's step is the next step. -/
abbrev BlockMoves (s : State) : Prop := s.phase ≠ .idle ∧ ∀ a ∈ s.host.head?, a.wait ≠ 0

/-- `t` has the bytes `bs` in OUT_BUF from index `a` on, and every other OUT_BUF byte as `s` had it. -/
abbrev WritesOut (s t : State) (a : Nat) (bs : List Byte) : Prop :=
  ∀ j, t.outBuf.read j = if a ≤ j ∧ j < a + bs.length then bs[j - a]? else s.outBuf.read j

/-- What no block step changes: the host's registers and buffer, the capacities, and what the host has read. -/
abbrev KeepsHostSide (s t : State) : Prop :=
  t.inLen = s.inLen ∧ t.inBuf = s.inBuf ∧ t.inCapR = s.inCapR ∧ t.outCapR = s.outCapR ∧ t.reads = s.reads

/-- All the host has pending is reads and POLLs that the spec gives a meaning to: what it may do while a command runs and wants to see
the command end (R72, R233, R236). -/
abbrev HostOnlyReads (s : State) : Prop :=
  ∀ a ∈ s.host, a.op.isRead = true ∧ a.op.wellFormed s.inCapR.toNat s.outCapR.toNat = true

/-- How many of the first `k` steps from `s` are the block's; the others are the host's. -/
def blockSteps : Nat → State → Nat
  | 0, _ => 0
  | k + 1, s =>
    match step s with
    | .next t => (if BlockMoves s then 1 else 0) + blockSteps k t
    | .fault _ => 0
    | .refused _ => 0

/-- The phase of a running command, R33. -/
def commandPhase : Instr → Phase
  | .compress => .enc
  | .decompress => .dec

/-- The command `i` is accepted in `s` and runs, whatever the host does between its steps, until it has ended in `t`, `n` block steps
after its acceptance. -/
def EndsAfter (i : Instr) (s : State) (n : Nat) (t : State) : Prop :=
  ∃ a k, exec i s = .next a ∧ runSteps k a = .next t ∧ blockSteps k a = n ∧ t.phase = .idle ∧
    ∀ j < k, ∃ u, runSteps j a = .next u ∧ u.phase = commandPhase i

/-- What a whole command leaves when the host only reads meanwhile: the host's registers and buffer and the capacities, and all the host
had read before; with nothing pending the host reads nothing. -/
abbrev KeepsHostInput (s t : State) : Prop :=
  t.inLen = s.inLen ∧ t.inBuf = s.inBuf ∧ t.inCapR = s.inCapR ∧ t.outCapR = s.outCapR ∧
  ∃ rs, t.reads = s.reads ++ rs ∧ (s.host = [] → rs = [])

/-- A command has ended and its results are these (R188). -/
abbrev Ended (t : State) (status errPos outLen dictNext : Word) : Prop :=
  t.phase = .idle ∧ t.status = status ∧ t.errPos = errPos ∧ t.outLen = outLen ∧ t.dictNext = dictNext

/-- A block step that raises, R207: the command ends with these, and every byte of OUT_BUF stays. -/
abbrev EndedByError (s t : State) (status errPos : Word) : Prop :=
  Ended t status errPos s.op (s.next.zeroExtend 32) ∧ t.outBuf = s.outBuf ∧ KeepsHostSide s t

/-- R24 with R23 and R204: STATUS shows BUSY exactly while a command runs, and is otherwise fresh or ended with an error kind the block
produces (the words are those of 95_test_vectors.md). -/
abbrev StatusForms (s : State) : Prop :=
  if s.phase = .idle then s.status ∈ [0x00#32, 0x02#32, 0x12#32, 0x22#32, 0x32#32, 0x52#32] else s.status = 0x01#32

/-- R31, R32, R60: both buffers are in canonical form and list no byte at or past their size. -/
def BuffersCanonical (s : State) : Prop :=
  s.inBuf.wf ∧ s.outBuf.wf ∧ (∀ c ∈ s.inBuf, c.1 < s.inCapR.toNat) ∧ (∀ c ∈ s.outBuf, c.1 < s.outCapR.toNat)

/-- R12, R34, R35, R160, R163: the cursors of a running command stay within the input and OUT_BUF; a COMPRESS writes whole codes, and
a DECOMPRESS has an input of whole codes. -/
def CursorsInRange (s : State) : Prop :=
  s.phase ≠ .idle →
    s.nIn.toNat ≤ s.inCapR.toNat ∧ s.op.toNat ≤ s.outCapR.toNat ∧
    (s.phase = .enc → s.ip.toNat ≤ s.nIn.toNat ∧ s.op.toNat % 2 = 0) ∧
    (s.phase = .dec → s.nIn.toNat % 2 = 0 ∧ s.ip.toNat ≤ codeCount s)

/-- R26 to R28: OUT_LEN stays within OUT_BUF and every byte below it was written; DICT_NEXT is 0 or the size of a dictionary; a fresh
block has no results, and a command that ended OK has ERR_POS 0. -/
def ResultsInRange (s : State) : Prop :=
  s.outLen.toNat ≤ s.outCapR.toNat ∧ (∀ i < s.outLen.toNat, s.outBuf.read i ≠ none) ∧
  (s.phase ≠ .idle → ∀ i < s.op.toNat, s.outBuf.read i ≠ none) ∧
  (s.dictNext.toNat = 0 ∨ 256 ≤ s.dictNext.toNat ∧ s.dictNext.toNat ≤ 65536) ∧
  (s.phase ≠ .idle → 256 ≤ s.next.toNat ∧ s.next.toNat ≤ 65536) ∧
  (s.status = 0x00#32 → s.outLen = 0 ∧ s.errPos = 0 ∧ s.dictNext = 0) ∧
  (s.status = 0x02#32 → s.errPos = 0)

/-- R37, R38, R43, R45: a running command owns NEXT entries, the seeds first, each later one a one-byte extension of an earlier one; no
dictionary exists while idle. -/
def DictionaryShape (s : State) : Prop :=
  (s.phase = .idle → s.dict = []) ∧
  (s.phase ≠ .idle →
    s.dict.length = s.next.toNat ∧ 256 ≤ s.next.toNat ∧ s.next.toNat ≤ 65536 ∧
    (∀ i < 256, s.dict[i]? = some [BitVec.ofNat 8 i]) ∧
    (∀ n, 256 ≤ n → n < s.next.toNat → ∃ p < n, ∃ e b, s.dict[p]? = some e ∧ s.dict[n]? = some (e ++ [b])))

/-- R107 and the end of R45 for a COMPRESS: the match is an entry, and no sequence stands at two codes. The match is empty only before
the first byte. -/
def EncoderMatch (s : State) : Prop :=
  s.phase = .enc →
    s.dict.Nodup ∧ (s.wValid = true → s.wCode.toNat < s.next.toNat) ∧ (s.wValid = true ↔ s.ip ≠ 0)

/-- R42: after the first code of a DECOMPRESS the previous code has an entry, and the first code is pending exactly before it is read. -/
def DecoderPrevious (s : State) : Prop :=
  s.phase = .dec →
    (s.firstPending = false → s.prevCode.toNat < s.next.toNat) ∧ (s.firstPending = true ↔ s.ip = 0)

/-- R110's invariant: after `ip` bytes the dictionary, the match and the emitted codes are those of `encode` after the same bytes. -/
def EncoderAgrees (s : State) : Prop :=
  s.phase = .enc → ∃ x : List Byte, x.length = s.ip.toNat ∧ HoldsInput s x ∧
    s.dict = (encodeLoop x).E ∧ s.next.toNat = (encodeLoop x).E.length ∧
    (s.wValid = true ↔ (encodeLoop x).w ≠ []) ∧
    (s.wValid = true → dictEntry s s.wCode.toNat = some (encodeLoop x).w) ∧
    s.op.toNat = (frame (encodeLoop x).out).length ∧ HoldsOutput s (frame (encodeLoop x).out)

/-- R139's invariant: after `ip` codes the dictionary, the previous entry and the output are those of `decode` after the same codes. -/
def DecoderAgrees (s : State) : Prop :=
  s.phase = .dec → ∃ (cs : List Code) (v : DecodeVars), cs.length = s.ip.toNat ∧
    (∀ i < cs.length, cs[i]?.map StepResult.done = some (frmDes s i)) ∧ decodeVars cs = some v ∧
    s.dict = v.E ∧ s.next.toNat = v.E.length ∧
    (s.firstPending = true ↔ cs = []) ∧
    (s.firstPending = false → dictEntry s s.prevCode.toNat = some v.w) ∧
    s.op.toNat = v.out.length ∧ HoldsOutput s v.out

/-- The block steps a running command has left at most: one per remaining item and the end (R192, R238). -/
def stepsLeft (s : State) : Nat :=
  match s.phase with
  | .idle => 0
  | .enc => s.nIn.toNat - s.ip.toNat + 1
  | .dec => codeCount s - s.ip.toNat + 1

end Sys2Proof.Machine
end

