-- ==== Sys2Proof/Certificates/Slice0/Obligations.lean ====
section
/-! DEFINITION. The statements for the provers. `blockTurn s` is `s` with the pending host action's wait one lower and a fresh free
value; `takeAction a rest s` is `s` with the host's action taken off the queue (log entries 2 and 3): neither changes the block. -/

open Sys2Proof Sys2Proof.Machine

/-! ### The command word -/

/-- R82: the legal words are exactly two. -/
def Obligations.DecodeLegalWords : Prop :=
  ∀ w : Word,
    (decode w = .ok .compress ↔ w = 0x00000001#32) ∧
    (decode w = .ok .decompress ↔ w = 0x00000002#32) ∧
    ((∃ e, decode w = .error e) ↔ w ≠ 0x00000001#32 ∧ w ≠ 0x00000002#32)

/-- R81: what each OP value names when RSV is zero. -/
def Obligations.OpFieldValues : Prop :=
  ∀ op : BitVec 4, decode ((0 : BitVec 28) ++ op) =
    if op = 0x1#4 then .ok .compress else if op = 0x2#4 then .ok .decompress else .error (.reservedOp op)

/-- The words written out bit by bit from R80 and R81 decode to what they stand for, and the encoder writes them. -/
def Obligations.CommandWordsBitByBit : Prop :=
  decode 0b00000000000000000000000000000001#32 = .ok .compress ∧
  decode 0b00000000000000000000000000000010#32 = .ok .decompress ∧
  encode .compress = 0b00000000000000000000000000000001#32 ∧
  encode .decompress = 0b00000000000000000000000000000010#32 ∧
  decode 0b00000000000000000000000000010001#32 = .error (.reservedBits 1)

/-! ### From a CMD write to the command -/

/-- R180: the host's due write of a command word is a step of that command. -/
def Obligations.CmdWriteStepRunsCommand : Prop :=
  ∀ (s : State) (a : HostAction) (rest : List HostAction) (v : Word) (i : Instr),
    HostMoves s a rest → a.op = .regWrite 32 0x00 v → decode v = .ok i →
    i.wellFormed = true ∧ step s = exec i (takeAction a rest s)

/-- The step at a placed command word is that command, on the state with the block made idle (log entry 10). -/
def Obligations.FetchWordStepRunsCommand : Prop :=
  ∀ (s : State) (nbits w : Nat) (i : Instr), decodeTableWord nbits w = some i →
    step (s.withFetchWord nbits w) = exec i { setIdle s with draws := s.draws + 1 }

/-- R181 and R101: an accepted COMPRESS is RUNNING with a fresh encoder; everything else stays. -/
def Obligations.CompressAcceptsFreshEncoder : Prop :=
  ∀ s : State, s.busy = false → s.inLen.toNat ≤ s.inCapR.toNat →
    exec .compress s = .next { s with
      status := 0x00000001#32, nIn := s.inLen, phase := .enc, ip := 0, op := 0, next := 256, wValid := false,
      dict := (List.range 256).map fun i => [BitVec.ofNat 8 i] }

/-- R181 and R131, with R160's check passed: an accepted DECOMPRESS is RUNNING with a fresh decoder; everything else stays. -/
def Obligations.DecompressAcceptsFreshDecoder : Prop :=
  ∀ s : State, s.busy = false → s.inLen.toNat ≤ s.inCapR.toNat → s.inLen.toNat % 2 = 0 →
    exec .decompress s = .next { s with
      status := 0x00000001#32, nIn := s.inLen, phase := .dec, ip := 0, op := 0, next := 256, firstPending := true,
      dict := (List.range 256).map fun i => [BitVec.ofNat 8 i] }

/-- R183: a command whose input does not fit IN_BUF ends in its acceptance step, an odd DECOMPRESS too (R208). -/
def Obligations.CommandOverInputCapacityEndsIo : Prop :=
  ∀ (s : State) (i : Instr), s.busy = false → s.inCapR.toNat < s.inLen.toNat →
    ∃ t, exec i s = .next t ∧ Ended t 0x00000032#32 s.inCapR 0 256 ∧ t.outBuf = s.outBuf ∧ KeepsHostSide s t

/-- R201: FRAMING ends exactly the DECOMPRESS whose input fits and is odd, and no step but the acceptance of a DECOMPRESS records it. -/
def Obligations.OddInputEndsFraming : Prop :=
  (∀ s : State, s.busy = false → s.inLen.toNat ≤ s.inCapR.toNat → s.inLen.toNat % 2 = 1 →
    ∃ t, exec .decompress s = .next t ∧ Ended t 0x00000012#32 (s.inLen - 1) 0 256 ∧ t.outBuf = s.outBuf ∧ KeepsHostSide s t) ∧
  (∀ (s t : State) (i : Instr), exec i s = .next t → t.status = 0x00000012#32 →
    i = .decompress ∧ s.inLen.toNat ≤ s.inCapR.toNat ∧ s.inLen.toNat % 2 = 1) ∧
  (∀ s t : State, s.status ≠ 0x00000012#32 → step s = .next t → t.status = 0x00000012#32 →
    ∃ a rest v, HostMoves s a rest ∧ a.op = .regWrite 32 0x00 v ∧ decode v = .ok .decompress)

/-- R234: while BUSY a CMD write has no meaning, whatever the word. -/
def Obligations.CmdWriteWhileBusyIsRefused : Prop :=
  (∀ (s : State) (i : Instr), s.busy = true → exec i s = .refused .cmdWhileBusy) ∧
  (∀ (s : State) (a : HostAction) (rest : List HostAction) (v : Word),
    HostMoves s a rest → a.op = .regWrite 32 0x00 v → s.busy = true → step s = .refused .cmdWhileBusy)

/-- R182: an illegal word while idle changes STATUS alone. -/
def Obligations.IllegalWordRecordsIllegalCmd : Prop :=
  ∀ (s : State) (a : HostAction) (rest : List HostAction) (v : Word),
    HostMoves s a rest → a.op = .regWrite 32 0x00 v → s.busy = false → v ≠ 0x00000001#32 → v ≠ 0x00000002#32 →
    step s = .next { takeAction a rest s with status := 0x00000052#32 }

/-! ### The encoder's steps -/

/-- R102, the branches that emit nothing: the first byte starts the match, and a byte that FD knows extends it. -/
def Obligations.EncByteStartsOrExtendsMatch : Prop :=
  ∀ (s : State) (c : Byte), BlockMoves s → s.phase = .enc → s.ip.toNat < s.nIn.toNat → s.inBuf.read s.ip.toNat = some c →
    (s.wValid = false →
      step s = .next { blockTurn s with wValid := true, wCode := c.zeroExtend 16, ip := s.ip + 1 }) ∧
    (∀ n, s.wValid = true → fdLookup s s.wCode c = some n →
      step s = .next { blockTurn s with wCode := n, ip := s.ip + 1 })

/-- R102, the mismatch: emit the match's code, insert the match and the byte while NEXT < 65536 (R106), restart with the byte; or IO
with none of it. -/
def Obligations.EncByteEmitsAndInserts : Prop :=
  ∀ (s : State) (c : Byte) (w : Entry), BlockMoves s → s.phase = .enc → s.ip.toNat < s.nIn.toNat →
    s.inBuf.read s.ip.toNat = some c → s.wValid = true → dictEntry s s.wCode.toNat = some w → fdLookup s s.wCode c = none →
    (s.op.toNat + 2 ≤ s.outCapR.toNat → ∃ t, step s = .next t ∧
      WritesOut s t s.op.toNat [s.wCode.extractLsb' 8 8, s.wCode.extractLsb' 0 8] ∧
      t = { blockTurn s with
        outBuf := t.outBuf, op := s.op + 2, wCode := c.zeroExtend 16, ip := s.ip + 1
        dict := if s.next.toNat < 65536 then s.dict ++ [w ++ [c]] else s.dict
        next := if s.next.toNat < 65536 then s.next + 1 else s.next }) ∧
    (s.outCapR.toNat < s.op.toNat + 2 → ∃ t, step s = .next t ∧ EndedByError s t 0x00000032#32 s.ip)

/-- R103: ENC.FLUSH emits the pending match and ends the command; or IO(n_in) with neither byte. -/
def Obligations.EncFlushEndsCompress : Prop :=
  ∀ s : State, BlockMoves s → s.phase = .enc → s.ip.toNat = s.nIn.toNat →
    (s.wValid = false → ∃ t, step s = .next t ∧
      Ended t 0x00000002#32 0 s.op (s.next.zeroExtend 32) ∧ t.outBuf = s.outBuf ∧ KeepsHostSide s t) ∧
    (s.wValid = true → s.wCode.toNat < s.next.toNat → s.op.toNat + 2 ≤ s.outCapR.toNat → ∃ t, step s = .next t ∧
      Ended t 0x00000002#32 0 (s.op + 2) (s.next.zeroExtend 32) ∧
      WritesOut s t s.op.toNat [s.wCode.extractLsb' 8 8, s.wCode.extractLsb' 0 8] ∧ KeepsHostSide s t) ∧
    (s.wValid = true → s.wCode.toNat < s.next.toNat → s.outCapR.toNat < s.op.toNat + 2 → ∃ t, step s = .next t ∧
      EndedByError s t 0x00000032#32 s.nIn)

/-! ### The decoder's steps -/

/-- R132: DEC.FIRST appends a seed, or BAD_CODE, or IO. -/
def Obligations.DecFirstDecodesSeed : Prop :=
  ∀ (s : State) (hi lo : Byte), BlockMoves s → s.phase = .dec → s.firstPending = true → s.ip.toNat < s.nIn.toNat / 2 →
    s.inBuf.read (2 * s.ip.toNat) = some hi → s.inBuf.read (2 * s.ip.toNat + 1) = some lo →
    (hi = 0 → s.op.toNat + 1 ≤ s.outCapR.toNat → ∃ t, step s = .next t ∧ WritesOut s t s.op.toNat [lo] ∧
      t = { blockTurn s with
        outBuf := t.outBuf, op := s.op + 1, prevCode := lo.zeroExtend 16, firstPending := false, ip := s.ip + 1 }) ∧
    (hi = 0 → s.outCapR.toNat < s.op.toNat + 1 → ∃ t, step s = .next t ∧ EndedByError s t 0x00000032#32 s.ip) ∧
    (hi ≠ 0 → ∃ t, step s = .next t ∧ EndedByError s t 0x00000022#32 s.ip)

/-- R133: DEC.CODE appends the known entry or the special case's, inserts the previous entry and its first byte while NEXT < 65536; or
BAD_CODE; or IO with none of it. -/
def Obligations.DecCodeDecodesEntry : Prop :=
  ∀ (s : State) (hi lo : Byte) (k : Code) (b : Byte) (w : Entry),
    BlockMoves s → s.phase = .dec → s.firstPending = false → s.ip.toNat < s.nIn.toNat / 2 →
    s.inBuf.read (2 * s.ip.toNat) = some hi → s.inBuf.read (2 * s.ip.toNat + 1) = some lo →
    k.toNat = hi.toNat * 256 + lo.toNat → dictEntry s s.prevCode.toNat = some (b :: w) →
    (∀ (c : Byte) (e : Entry),
      (k.toNat < s.next.toNat ∧ s.dict[k.toNat]? = some (c :: e) ∨ k.toNat = s.next.toNat ∧ c :: e = b :: w ++ [b]) →
      (s.op.toNat + (e.length + 1) ≤ s.outCapR.toNat → ∃ t, step s = .next t ∧ WritesOut s t s.op.toNat (c :: e) ∧
        t = { blockTurn s with
          outBuf := t.outBuf, op := s.op + BitVec.ofNat 32 (e.length + 1), prevCode := k, ip := s.ip + 1
          dict := if s.next.toNat < 65536 then s.dict ++ [b :: w ++ [c]] else s.dict
          next := if s.next.toNat < 65536 then s.next + 1 else s.next }) ∧
      (s.outCapR.toNat < s.op.toNat + (e.length + 1) → ∃ t, step s = .next t ∧ EndedByError s t 0x00000032#32 s.ip)) ∧
    (s.next.toNat < k.toNat → ∃ t, step s = .next t ∧ EndedByError s t 0x00000022#32 s.ip)

/-- R135: DEC.END ends a DECOMPRESS that has read every code. -/
def Obligations.DecEndEndsDecompress : Prop :=
  ∀ s : State, BlockMoves s → s.phase = .dec → s.ip.toNat = s.nIn.toNat / 2 →
    ∃ t, step s = .next t ∧ Ended t 0x00000002#32 0 s.op (s.next.zeroExtend 32) ∧ t.outBuf = s.outBuf ∧ KeepsHostSide s t

/-! ### Errors and faults of the block -/

/-- R207: a block step that ends the command with an error has no other effect than `commit`. -/
def Obligations.BlockErrorIsPrecise : Prop :=
  ∀ s t : State, s.status = 0x00000001#32 → BlockMoves s → step s = .next t → t.done = true → t.err ≠ 0 →
    t.busy = false ∧ Ended t t.status t.errPos s.op (s.next.zeroExtend 32) ∧ t.outBuf = s.outBuf ∧ KeepsHostSide s t ∧
    t.ip = s.ip ∧ t.op = s.op ∧ t.next = s.next ∧ t.nIn = s.nIn

/-- R73: the block's read of an IN_BUF byte the host never wrote is the fault UninitInput. -/
def Obligations.UnwrittenInputFaults : Prop :=
  ∀ s : State, BlockMoves s →
    (s.phase = .enc → s.ip.toNat < s.nIn.toNat → s.inBuf.read s.ip.toNat = none → step s = .fault .uninitInput) ∧
    (s.phase = .dec → s.ip.toNat < s.nIn.toNat / 2 →
      (s.inBuf.read (2 * s.ip.toNat) = none ∨ s.inBuf.read (2 * s.ip.toNat + 1) = none) → step s = .fault .uninitInput)

/-! ### The framer, the concatenator, the dictionary -/

/-- R163: emit(k) writes both bytes of a code, most significant first, or raises IO(ip). -/
def Obligations.SerializerWritesBothBytes : Prop :=
  ∀ (s : State) (k : Code), k.toNat < s.next.toNat →
    (s.op.toNat + 2 ≤ s.outCapR.toNat → ∃ t, frmSer k s = .done t ∧
      WritesOut s t s.op.toNat [k.extractLsb' 8 8, k.extractLsb' 0 8] ∧ t = { s with outBuf := t.outBuf, op := s.op + 2 }) ∧
    (s.outCapR.toNat < s.op.toNat + 2 → frmSer k s = .raise .io s.ip)

/-- R134: append(s) writes the whole sequence at the cursor, or raises IO(ip). -/
def Obligations.ConcatenatorWritesAllOrNothing : Prop :=
  ∀ (s : State) (e : Entry),
    (s.op.toNat + e.length ≤ s.outCapR.toNat → ∃ t, outAppend e s = .done t ∧ WritesOut s t s.op.toNat e ∧
      t.op.toNat = s.op.toNat + e.length ∧ t = { s with outBuf := t.outBuf, op := t.op }) ∧
    (s.outCapR.toNat < s.op.toNat + e.length → outAppend e s = .raise .io s.ip)

/-- R44: insert adds one entry at code NEXT until NEXT is 65536, and never touches an entry already there. -/
def Obligations.InsertGrowsUntilSaturated : Prop :=
  ∀ (s : State) (e : Entry), s.dict.length = s.next.toNat →
    (s.next.toNat < 65536 →
      (insertEntry e s).next.toNat = s.next.toNat + 1 ∧ dictEntry (insertEntry e s) s.next.toNat = some e ∧
      (∀ k < s.next.toNat, dictEntry (insertEntry e s) k = dictEntry s k) ∧
      insertEntry e s = { s with dict := (insertEntry e s).dict, next := (insertEntry e s).next }) ∧
    (65536 ≤ s.next.toNat → insertEntry e s = s)

/-- R40 and R105: in a COMPRESS the forward lookup answers exactly the code of the extended entry. -/
def Obligations.ForwardLookupIsExact : Prop :=
  ∀ (s : State) (p : Code) (b : Byte) (w : Entry), s.phase = .enc → DictionaryShape s → EncoderMatch s →
    dictEntry s p.toNat = some w →
    (∀ n : Code, fdLookup s p b = some n ↔ 256 ≤ n.toNat ∧ dictEntry s n.toNat = some (w ++ [b])) ∧
    (fdLookup s p b = none ↔ w ++ [b] ∉ s.dict)

/-- R86: unframing inverts framing, and framing inverts the unframing of a stream of even length. -/
def Obligations.FrameUnframeInverse : Prop :=
  (∀ cs : List Code, unframe (frame cs) = cs ∧ (frame cs).length = 2 * cs.length) ∧
  (∀ y : List Byte, y.length % 2 = 0 → frame (unframe y) = y)

/-- R162: FRM.DES(i) assembles bytes 2i and 2i+1, the first the more significant; an unwritten byte is the fault UninitInput. -/
def Obligations.DeserializerReadsBigEndian : Prop :=
  ∀ (s : State) (i : Nat),
    (∀ hi lo : Byte, s.inBuf.read (2 * i) = some hi → s.inBuf.read (2 * i + 1) = some lo →
      ∃ k : Code, frmDes s i = .done k ∧ k.toNat = hi.toNat * 256 + lo.toNat) ∧
    (s.inBuf.read (2 * i) = none ∨ s.inBuf.read (2 * i + 1) = none → frmDes s i = .fault .uninitInput)

/-! ### The host's accesses -/

/-- R21 and R22: what a read of each register returns while idle, and R90: a POLL reads STATUS and is done; nothing but the host's queue
and log changes. -/
def Obligations.IdleRegisterReads : Prop :=
  ∀ (s : State) (a : HostAction) (rest : List HostAction), HostMoves s a rest → s.busy = false →
    (∀ off, a.op = .regRead 32 off → off % 4 = 0 →
      step s = .next { s with
        host := rest
        reads := s.reads ++ [.reg off
          (if off = 0x00 then 0 else if off = 0x04 then s.status else if off = 0x08 then s.inLen
           else if off = 0x0C then s.outLen else if off = 0x10 then s.errPos else if off = 0x14 then s.dictNext
           else if off = 0x18 then s.inCapR else if off = 0x1C then s.outCapR else 0)] }) ∧
    (a.op = .poll → step s = .next { s with host := rest, reads := s.reads ++ [.reg 0x04 s.status] })

/-- R72 and R22: while BUSY a read of CMD is 0 and of STATUS exactly RUNNING, IN_LEN and the capacities read as they are, and the results
and OUT_BUF read as a free value with a number of its own (the model's choice: log entry 3). A POLL reads RUNNING and stays pending
behind one block step (R90; the model's choice: log entry 2). -/
def Obligations.BusyReads : Prop :=
  ∀ (s : State) (a : HostAction) (rest : List HostAction), HostMoves s a rest → s.busy = true → StatusForms s →
    (∀ off v, (off, v) ∈ [(0x00, 0x00000000#32), (0x04, 0x00000001#32), (0x08, s.inLen), (0x18, s.inCapR), (0x1C, s.outCapR),
        (0x0C, Config.freeWord (s.draws + 1) 0x0C), (0x10, Config.freeWord (s.draws + 1) 0x10),
        (0x14, Config.freeWord (s.draws + 1) 0x14)] →
      a.op = .regRead 32 off →
      step s = .next { s with host := rest, draws := s.draws + 1, reads := s.reads ++ [.reg off v] }) ∧
    (∀ j < s.outCapR.toNat, a.op = .outRead 8 j →
      step s = .next { s with
        host := rest, draws := s.draws + 1, reads := s.reads ++ [.outByte j (Config.freeOutByte (s.draws + 1) j)] }) ∧
    (a.op = .poll → step s = .next { s with
      host := ⟨1, .poll⟩ :: rest, draws := s.draws + 1, reads := s.reads ++ [.reg 0x04 0x00000001#32] })

/-- R30: writes to read-only registers and to unmapped offsets do nothing, and unmapped offsets read 0, BUSY or not. -/
def Obligations.NoEffectRegisterAccesses : Prop :=
  ∀ (s : State) (a : HostAction) (rest : List HostAction) (off : Nat), HostMoves s a rest → off % 4 = 0 →
    (∀ v, a.op = .regWrite 32 off v → off ≠ 0x00 → off ≠ 0x08 → step s = .next (takeAction a rest s)) ∧
    (a.op = .regRead 32 off → 0x20 ≤ off →
      step s = .next { takeAction a rest s with reads := s.reads ++ [.reg off 0] })

/-- R63 and R64: an access of the wrong width, alignment or index, and a host write to OUT_BUF, are refused; no other access is, while
idle. -/
def Obligations.IllFormedAccessIsRefused : Prop :=
  ∀ (s : State) (a : HostAction) (rest : List HostAction), HostMoves s a rest →
    (a.op.wellFormed s.inCapR.toNat s.outCapR.toNat = false →
      ∃ r ∈ [Refusal.regWidth, .regAlignment, .bufWidth, .bufRange, .outBufWrite], step s = .refused r) ∧
    (a.op.wellFormed s.inCapR.toNat s.outCapR.toNat = true → s.busy = false → ∃ t, step s = .next t)

/-- R25 and R31: while idle the host writes any value to IN_LEN and any byte of IN_BUF, and nothing else changes. -/
def Obligations.IdleInputWrites : Prop :=
  ∀ (s : State) (a : HostAction) (rest : List HostAction), HostMoves s a rest → s.busy = false →
    (∀ v, a.op = .regWrite 32 0x08 v → step s = .next { takeAction a rest s with inLen := v }) ∧
    (∀ i v, a.op = .inWrite 8 i v → i < s.inCapR.toNat → ∃ t, step s = .next t ∧
      t = { takeAction a rest s with inBuf := t.inBuf } ∧ t.inBuf.read i = some v ∧
      ∀ j, j ≠ i → t.inBuf.read j = s.inBuf.read j)

/-- R235: while BUSY a write to IN_LEN or to a byte of IN_BUF is refused. -/
def Obligations.BusyInputWritesRefused : Prop :=
  ∀ (s : State) (a : HostAction) (rest : List HostAction), HostMoves s a rest → s.busy = true →
    (∀ v, a.op = .regWrite 32 0x08 v → step s = .refused .inLenWhileBusy) ∧
    (∀ i v, a.op = .inWrite 8 i v → i < s.inCapR.toNat → step s = .refused .inBufWhileBusy)

/-- R74, R75 and R31: while idle OUT_BUF reads as the command wrote it below OUT_LEN and as a free byte at or past it; a written IN_BUF
byte reads as last written, and one not written since reset as the free byte of this reset and index, BUSY or not (the numbering of free
bytes is the model's choice: log entries 3, 5 and 6). -/
def Obligations.BufferReads : Prop :=
  ∀ (s : State) (a : HostAction) (rest : List HostAction), HostMoves s a rest →
    (∀ j v, a.op = .outRead 8 j → j < s.outCapR.toNat → s.busy = false → j < s.outLen.toNat → s.outBuf.read j = some v →
      step s = .next { takeAction a rest s with reads := s.reads ++ [.outByte j v] }) ∧
    (∀ j, a.op = .outRead 8 j → j < s.outCapR.toNat → s.busy = false → s.outLen.toNat ≤ j →
      step s = .next { takeAction a rest s with reads := s.reads ++ [.outByte j (Config.freeOutByte s.draws j)] }) ∧
    (∀ i v, a.op = .inRead 8 i → i < s.inCapR.toNat → s.inBuf.read i = some v →
      step s = .next { takeAction a rest s with reads := s.reads ++ [.inByte i v] }) ∧
    (∀ i, a.op = .inRead 8 i → i < s.inCapR.toNat → s.inBuf.read i = none →
      step s = .next { takeAction a rest s with reads := s.reads ++ [.inByte i (Config.freeInByte s.resets i)] })

/-- R66 and R216 while idle: a read changes nothing but the host's queue and log, and the same read twice returns the same value, free or
not; so it does with another host action between, if that is no CMD write, no RESET and no write of the place read. -/
def Obligations.IdleReadsHaveNoSideEffect : Prop :=
  (∀ (s t u : State) (a b : HostAction) (rest : List HostAction),
    IsIdle s → s.host = a :: b :: rest → a.op.isRead = true → b.op = a.op → step s = .next t → step t = .next u →
    ∃ r, t = { s with host := b :: rest, reads := s.reads ++ [r] } ∧ u = { s with host := rest, reads := s.reads ++ [r, r] }) ∧
  (∀ (s t u v : State) (a c b : HostAction) (rest : List HostAction),
    IsIdle s → s.host = a :: c :: b :: rest → a.op.isRead = true → b.op = a.op →
    c.op ≠ .reset → (∀ w, c.op ≠ .regWrite 32 0x00 w) → (∀ w, c.op = .regWrite 32 0x08 w → a.op ≠ .regRead 32 0x08) →
    (∀ i w, c.op = .inWrite 8 i w → a.op ≠ .inRead 8 i) →
    step s = .next t → step t = .next u → step u = .next v →
    ∃ r, t.reads = s.reads ++ [r] ∧ v.reads = u.reads ++ [r])

/-- R230: RESET takes effect at any time, a running command with it, and leaves the values the spec gives; no dictionary exists. The
buffers' contents are unspecified then: that every byte is held as unwritten, and that IN_BUF has new free contents, is the model's
choice (log entries 5 and 6), and so is that the host's queue and log stay (log entry 8). -/
def Obligations.ResetActionRestoresResetValues : Prop :=
  ∀ (s : State) (a : HostAction) (rest : List HostAction), HostMoves s a rest → a.op = .reset →
    ∃ t, step s = .next t ∧ Ended t 0 0 0 0 ∧ t.inLen = 0 ∧ t.dict = [] ∧
      (∀ i, t.inBuf.read i = none) ∧ (∀ i, t.outBuf.read i = none) ∧ t.resets = s.resets + 1 ∧
      t.inCapR = s.inCapR ∧ t.outCapR = s.outCapR ∧ t.host = rest ∧ t.reads = s.reads

/-- The state right after reset has the values 10_state.md section 6 gives, with IN_CAP and OUT_CAP any parameters. -/
def Obligations.ResetStateValues : Prop :=
  ∀ s : State, (s = State.reset ∨ ∃ c d, s = State.resetWith c d) →
    Ended s 0 0 0 0 ∧ s.inLen = 0 ∧ s.dict = [] ∧ (∀ i, s.inBuf.read i = none) ∧ (∀ i, s.outBuf.read i = none) ∧
    (s = State.reset → s.inCapR = Config.inCap ∧ s.outCapR = Config.outCap)

/-- R216 and R231, as the model reads them (log entry 11): with no host action pending an idle block keeps every value. -/
def Obligations.IdleBlockWithoutHostStays : Prop :=
  ∀ (s : State) (k : Nat), s.phase = .idle → s.host = [] → runSteps k s = .next s

/-! ### Invariants that every step keeps -/

/-- R24: STATUS stays one of its forms, BUSY exactly while a command runs, and only RESET makes it fresh again. -/
def Obligations.StepKeepsStatusForms : Prop :=
  ∀ s t : State, StatusForms s → step s = .next t →
    StatusForms t ∧ (t.status = 0 → s.status = 0 ∨ ∃ a rest, HostMoves s a rest ∧ a.op = .reset)

/-- The buffers keep their canonical form and list no byte outside their size. -/
def Obligations.StepKeepsBuffersCanonical : Prop :=
  ∀ s t : State, BuffersCanonical s → step s = .next t → BuffersCanonical t

/-- R12, R34, R35: the cursors stay in range; `op` is even in a COMPRESS (R163), and the input of a DECOMPRESS is of whole codes. -/
def Obligations.StepKeepsCursorsInRange : Prop :=
  ∀ s t : State, CursorsInRange s → step s = .next t → CursorsInRange t

/-- R26 to R28 and R37: the result registers and NEXT stay in range, and every byte below OUT_LEN has been written. -/
def Obligations.StepKeepsResultsInRange : Prop :=
  ∀ s t : State, StatusForms s → CursorsInRange s → ResultsInRange s → step s = .next t → ResultsInRange t

/-- R37, R38, R43, R45, R107, R42: the dictionary of a running command keeps its shape, the match and the previous code stay entries. -/
def Obligations.StepKeepsDictionaryShape : Prop :=
  ∀ s t : State, CursorsInRange s → DictionaryShape s → EncoderMatch s → DecoderPrevious s → step s = .next t →
    DictionaryShape t ∧ EncoderMatch t ∧ DecoderPrevious t

/-- R110: every step of a COMPRESS keeps the agreement with the reference function `encode`. -/
def Obligations.StepKeepsEncoderAgreement : Prop :=
  ∀ s t : State, StatusForms s → CursorsInRange s → DictionaryShape s → EncoderMatch s → EncoderAgrees s → step s = .next t →
    EncoderAgrees t

/-- R139: every step of a DECOMPRESS keeps the agreement with the reference function `decode`. -/
def Obligations.StepKeepsDecoderAgreement : Prop :=
  ∀ s t : State, StatusForms s → CursorsInRange s → DictionaryShape s → DecoderPrevious s → DecoderAgrees s → step s = .next t →
    DecoderAgrees t

/-- Every invariant above holds after reset, for all capacities. -/
def Obligations.ResetMeetsInvariants : Prop :=
  ∀ c d : Word, StatusForms (State.resetWith c d) ∧ BuffersCanonical (State.resetWith c d) ∧
    CursorsInRange (State.resetWith c d) ∧ ResultsInRange (State.resetWith c d) ∧ DictionaryShape (State.resetWith c d) ∧
    EncoderMatch (State.resetWith c d) ∧ DecoderPrevious (State.resetWith c d) ∧
    EncoderAgrees (State.resetWith c d) ∧ DecoderAgrees (State.resetWith c d) ∧ State.reset = State.resetWith Config.inCap Config.outCap

/-! ### Whole-machine rules -/

/-- R107, R164 and R219: in a state that meets the invariants and whose input is written, no step faults: neither the internal invariant
violation nor a stuck block is reached. -/
def Obligations.NoFaultWhenInputWritten : Prop :=
  ∀ (s : State) (f : Fault), CursorsInRange s → DictionaryShape s → EncoderMatch s → DecoderPrevious s → InputWritten s →
    step s ≠ .fault f

/-- R25, R31 and R75: only the host's own write changes IN_LEN or IN_BUF, RESET apart; no command does. R31 and R66: so each byte of
IN_BUF reads as before, written or not, but for the byte the host writes. -/
def Obligations.OnlyHostWritesInput : Prop :=
  ∀ s t : State, step s = .next t →
    (t.inLen = s.inLen ∨ ∃ a rest, HostMoves s a rest ∧ (a.op = .reset ∨ a.op = .regWrite 32 0x08 t.inLen)) ∧
    (t.inBuf = s.inBuf ∨ ∃ a rest, HostMoves s a rest ∧
      (a.op = .reset ∨ ∃ i v, a.op = .inWrite 8 i v ∧ t.inBuf = s.inBuf.write i v)) ∧
    ((∀ i, inByteValue i t = inByteValue i s) ∨ ∃ a rest, HostMoves s a rest ∧
      (a.op = .reset ∨ ∃ i v, a.op = .inWrite 8 i v ∧ inByteValue i t = v ∧ ∀ j, j ≠ i → inByteValue j t = inByteValue j s))

/-- R29: no step changes the capacities. -/
def Obligations.StepKeepsCapacities : Prop :=
  ∀ s t : State, step s = .next t → t.inCapR = s.inCapR ∧ t.outCapR = s.outCapR

/-- R188 and R218: a running command stops only by ending (DONE = 1) or by RESET, and the result registers change only then. -/
def Obligations.OnlyEndOrResetStopsCommand : Prop :=
  ∀ s t : State, step s = .next t →
    (s.phase ≠ .idle → StatusForms s → t.phase = .idle → t.done = true ∨ ∃ a rest, HostMoves s a rest ∧ a.op = .reset) ∧
    (t.outLen ≠ s.outLen ∨ t.errPos ≠ s.errPos ∨ t.dictNext ≠ s.dictNext →
      t.phase = .idle ∧ (t.done = true ∨ ∃ a rest, HostMoves s a rest ∧ a.op = .reset))

/-! ### Whole commands

The host may have reads and POLLs pending, at any places between the command's steps (`HostOnlyReads`; R67, R72, R233). -/

/-- R185, second row, with R192: a COMPRESS whose codes fit runs one step a byte and one more, and ends OK with the framed codes. -/
def Obligations.CompressFitsEndState : Prop :=
  ∀ (s : State) (x : List Byte), IsIdle s → HostOnlyReads s → HoldsInput s x → s.inLen.toNat = x.length →
    x.length ≤ s.inCapR.toNat → 2 * (encodeRef x).length ≤ s.outCapR.toNat →
    ∃ t, EndsAfter .compress s (x.length + 1) t ∧
      Ended t 0x00000002#32 0 (BitVec.ofNat 32 (2 * (encodeRef x).length))
        (BitVec.ofNat 32 (if (encodeRef x).length = 0 then 256 else min 65536 (256 + (encodeRef x).length - 1))) ∧
      HoldsOutput t (frame (encodeRef x)) ∧ KeepsHostInput s t

/-- R185, third row: a COMPRESS whose codes do not fit ends IO at the first code that does not, with the codes before it. -/
def Obligations.CompressOverflowEndState : Prop :=
  ∀ (s : State) (x : List Byte) (j : Nat), IsIdle s → HostOnlyReads s → HoldsInput s x → s.inLen.toNat = x.length →
    x.length ≤ s.inCapR.toNat → s.outCapR.toNat < 2 * (encodeRef x).length → j = s.outCapR.toNat / 2 →
    ∃ n t, n ≤ x.length + 1 ∧ EndsAfter .compress s n t ∧
      Ended t 0x00000032#32
        (BitVec.ofNat 32
          (((encodeRef x).take (j + 1)).map fun k => ((encodeLoop x).E[k.toNat]?.getD []).length).sum)
        (BitVec.ofNat 32 (2 * j)) (BitVec.ofNat 32 (min 65536 (256 + j))) ∧
      HoldsOutput t (frame ((encodeRef x).take j)) ∧ KeepsHostInput s t

/-- R187, third row, with R192: a DECOMPRESS of a good stream that fits runs one step a code and one more, and ends OK. -/
def Obligations.DecompressOkEndState : Prop :=
  ∀ (s : State) (y x : List Byte), IsIdle s → HostOnlyReads s → HoldsInput s y → s.inLen.toNat = y.length →
    y.length ≤ s.inCapR.toNat → y.length % 2 = 0 → decodeRef (unframe y) = .ok x → x.length ≤ s.outCapR.toNat →
    ∃ t, EndsAfter .decompress s (y.length / 2 + 1) t ∧
      Ended t 0x00000002#32 0 (BitVec.ofNat 32 x.length)
        (BitVec.ofNat 32 (if y.length = 0 then 256 else min 65536 (256 + y.length / 2 - 1))) ∧
      HoldsOutput t x ∧ KeepsHostInput s t

/-- R187, fourth row, and R137: a DECOMPRESS of a bad stream whose good part fits ends BAD_CODE at the bad code, with the good part. -/
def Obligations.DecompressBadCodeEndState : Prop :=
  ∀ (s : State) (y p : List Byte) (i : Nat), IsIdle s → HostOnlyReads s → HoldsInput s y → s.inLen.toNat = y.length →
    y.length ≤ s.inCapR.toNat → y.length % 2 = 0 → decodeRef (unframe y) = .badCode i p → p.length ≤ s.outCapR.toNat →
    ∃ n t, n ≤ y.length / 2 + 1 ∧ EndsAfter .decompress s n t ∧
      Ended t 0x00000022#32 (BitVec.ofNat 32 i) (BitVec.ofNat 32 p.length)
        (BitVec.ofNat 32 (min 65536 (256 + (i - 1)))) ∧
      HoldsOutput t p ∧ KeepsHostInput s t

/-- R187, fifth row: a DECOMPRESS ends IO at the first code whose entry does not fit, with the entries before it. -/
def Obligations.DecompressOverflowEndState : Prop :=
  ∀ (s : State) (y p q : List Byte) (i : Nat), IsIdle s → HostOnlyReads s → HoldsInput s y → s.inLen.toNat = y.length →
    y.length ≤ s.inCapR.toNat → y.length % 2 = 0 → i < y.length / 2 →
    decodeRef ((unframe y).take i) = .ok p → p.length ≤ s.outCapR.toNat →
    decodeRef ((unframe y).take (i + 1)) = .ok q → s.outCapR.toNat < q.length →
    ∃ n t, n ≤ y.length / 2 + 1 ∧ EndsAfter .decompress s n t ∧
      Ended t 0x00000032#32 (BitVec.ofNat 32 i) (BitVec.ofNat 32 p.length)
        (BitVec.ofNat 32 (min 65536 (256 + (i - 1)))) ∧
      HoldsOutput t p ∧ KeepsHostInput s t

/-- R141 and R108: decoding an encoding gives the bytes back, for every byte sequence. -/
def Obligations.DecodeInvertsEncode : Prop :=
  ∀ x : List Byte, decodeRef (encodeRef x) = .ok x

/-- R190: what a COMPRESS that ended OK wrote, copied into IN_BUF, decompresses to the input, with the same DICT_NEXT. -/
def Obligations.CompressThenDecompressRestores : Prop :=
  ∀ (s a t u : State) (x : List Byte) (k : Nat), IsIdle s → HostOnlyReads s → HoldsInput s x → s.inLen.toNat = x.length →
    exec .compress s = .next a → runSteps k a = .next t → t.phase = .idle → t.status = 0x00000002#32 →
    IsIdle u → HostOnlyReads u → u.inLen = t.outLen → (∀ i < t.outLen.toNat, u.inBuf.read i = t.outBuf.read i) →
    t.outLen.toNat ≤ u.inCapR.toNat → x.length ≤ u.outCapR.toNat →
    ∃ v, EndsAfter .decompress u (t.outLen.toNat / 2 + 1) v ∧
      Ended v 0x00000002#32 0 (BitVec.ofNat 32 x.length) t.dictNext ∧ HoldsOutput v x

/-- R108: the number of codes and the size the dictionary reaches. -/
def Obligations.EncodeCodeCounts : Prop :=
  ∀ x : List Byte,
    ((encodeRef x).length = 0 ↔ x = []) ∧ (encodeRef x).length ≤ x.length ∧
    (encodeLoop x).E.length = if x = [] then 256 else min 65536 (256 + (encodeRef x).length - 1)

/-- R238 and R192: an accepted command whose input is written ends within its number of block steps, while the host reads and polls. -/
def Obligations.CommandEndsWithinStepBound : Prop :=
  ∀ (s a : State) (i : Instr), IsIdle s → HostOnlyReads s → (∀ j < s.inLen.toNat, s.inBuf.read j ≠ none) → exec i s = .next a →
    ∃ n t, n ≤ (match i with | .compress => s.inLen.toNat + 1 | .decompress => s.inLen.toNat / 2 + 1) ∧
      EndsAfter i s n t ∧ t.done = true

/-- R189: two runs of one command on the same input (an input past IN_CAP counts by its length only) and capacities end alike and after
equally many block steps, whatever stood in the block before and whenever the host reads and polls in either. -/
def Obligations.EndStateIgnoresHistory : Prop :=
  ∀ (s s' a a' t : State) (i : Instr) (k : Nat), IsIdle s → IsIdle s' → HostOnlyReads s → HostOnlyReads s' →
    s.inLen = s'.inLen → s.inCapR = s'.inCapR → s.outCapR = s'.outCapR →
    (s.inLen.toNat ≤ s.inCapR.toNat → ∀ j < s.inLen.toNat, s.inBuf.read j = s'.inBuf.read j) →
    exec i s = .next a → exec i s' = .next a' → runSteps k a = .next t → t.phase = .idle →
    ∃ k' t', runSteps k' a' = .next t' ∧ blockSteps k' a' = blockSteps k a ∧
      Ended t' t.status t.errPos t.outLen t.dictNext ∧ ∀ j < t.outLen.toNat, t'.outBuf.read j = t.outBuf.read j

/-- R10: how long an entry can be, and where. -/
def Obligations.EntryLengthBound : Prop :=
  ∀ (s : State) (n : Nat) (e : Entry), s.phase ≠ .idle → DictionaryShape s → 256 ≤ n → dictEntry s n = some e →
    e.length ≤ n - 254 ∧ e.length ≤ 65281 ∧ (e.length = 65281 → n = 65535)

/-- R191, second bound: what a stream of `n` codes can decode to. -/
def Obligations.DecodeOutputBound : Prop :=
  ∀ (cs : List Code) (x : List Byte), decodeRef cs = .ok x → x.length ≤ cs.length * (cs.length + 1) / 2
end

