-- ==== Sys2Proof/Laws/State.lean ====
section
/-! SUPPORT. One lemma per field per state update, so that no later proof unfolds a record update. A field that an update computes by
cases (the draw counter of `takeAction`, the queue of `blockTurn`) has its lemmas in Laws/Step.lean. -/

namespace Sys2Proof.Laws

open Sys2Proof.Machine

/-! `commit` -/

@[simp] theorem commit_status (e : Err) (pos : Word) (s : State) : (commit e pos s).status = statusEnded e := rfl
@[simp] theorem commit_inLen (e : Err) (pos : Word) (s : State) : (commit e pos s).inLen = s.inLen := rfl
@[simp] theorem commit_outLen (e : Err) (pos : Word) (s : State) : (commit e pos s).outLen = s.op := rfl
@[simp] theorem commit_errPos (e : Err) (pos : Word) (s : State) : (commit e pos s).errPos = pos := rfl
@[simp] theorem commit_dictNext (e : Err) (pos : Word) (s : State) : (commit e pos s).dictNext = s.next.zeroExtend 32 := rfl
@[simp] theorem commit_inCapR (e : Err) (pos : Word) (s : State) : (commit e pos s).inCapR = s.inCapR := rfl
@[simp] theorem commit_outCapR (e : Err) (pos : Word) (s : State) : (commit e pos s).outCapR = s.outCapR := rfl
@[simp] theorem commit_inBuf (e : Err) (pos : Word) (s : State) : (commit e pos s).inBuf = s.inBuf := rfl
@[simp] theorem commit_outBuf (e : Err) (pos : Word) (s : State) : (commit e pos s).outBuf = s.outBuf := rfl
@[simp] theorem commit_phase (e : Err) (pos : Word) (s : State) : (commit e pos s).phase = .idle := rfl
@[simp] theorem commit_ip (e : Err) (pos : Word) (s : State) : (commit e pos s).ip = s.ip := rfl
@[simp] theorem commit_op (e : Err) (pos : Word) (s : State) : (commit e pos s).op = s.op := rfl
@[simp] theorem commit_nIn (e : Err) (pos : Word) (s : State) : (commit e pos s).nIn = s.nIn := rfl
@[simp] theorem commit_next (e : Err) (pos : Word) (s : State) : (commit e pos s).next = s.next := rfl
@[simp] theorem commit_dict (e : Err) (pos : Word) (s : State) : (commit e pos s).dict = [] := rfl
@[simp] theorem commit_wValid (e : Err) (pos : Word) (s : State) : (commit e pos s).wValid = false := rfl
@[simp] theorem commit_wCode (e : Err) (pos : Word) (s : State) : (commit e pos s).wCode = 0 := rfl
@[simp] theorem commit_prevCode (e : Err) (pos : Word) (s : State) : (commit e pos s).prevCode = 0 := rfl
@[simp] theorem commit_firstPending (e : Err) (pos : Word) (s : State) : (commit e pos s).firstPending = s.firstPending := rfl
@[simp] theorem commit_host (e : Err) (pos : Word) (s : State) : (commit e pos s).host = s.host := rfl
@[simp] theorem commit_reads (e : Err) (pos : Word) (s : State) : (commit e pos s).reads = s.reads := rfl
@[simp] theorem commit_draws (e : Err) (pos : Word) (s : State) : (commit e pos s).draws = s.draws := rfl
@[simp] theorem commit_resets (e : Err) (pos : Word) (s : State) : (commit e pos s).resets = s.resets := rfl

/-! `putBytes` -/

@[simp] theorem putBytes_status (bs : List Byte) (s : State) : (putBytes bs s).status = s.status := rfl
@[simp] theorem putBytes_inLen (bs : List Byte) (s : State) : (putBytes bs s).inLen = s.inLen := rfl
@[simp] theorem putBytes_outLen (bs : List Byte) (s : State) : (putBytes bs s).outLen = s.outLen := rfl
@[simp] theorem putBytes_errPos (bs : List Byte) (s : State) : (putBytes bs s).errPos = s.errPos := rfl
@[simp] theorem putBytes_dictNext (bs : List Byte) (s : State) : (putBytes bs s).dictNext = s.dictNext := rfl
@[simp] theorem putBytes_inCapR (bs : List Byte) (s : State) : (putBytes bs s).inCapR = s.inCapR := rfl
@[simp] theorem putBytes_outCapR (bs : List Byte) (s : State) : (putBytes bs s).outCapR = s.outCapR := rfl
@[simp] theorem putBytes_inBuf (bs : List Byte) (s : State) : (putBytes bs s).inBuf = s.inBuf := rfl
@[simp] theorem putBytes_outBuf (bs : List Byte) (s : State) : (putBytes bs s).outBuf = s.outBuf.writeBytes s.op.toNat bs := rfl
@[simp] theorem putBytes_phase (bs : List Byte) (s : State) : (putBytes bs s).phase = s.phase := rfl
@[simp] theorem putBytes_ip (bs : List Byte) (s : State) : (putBytes bs s).ip = s.ip := rfl
@[simp] theorem putBytes_op (bs : List Byte) (s : State) : (putBytes bs s).op = s.op + BitVec.ofNat 32 bs.length := rfl
@[simp] theorem putBytes_nIn (bs : List Byte) (s : State) : (putBytes bs s).nIn = s.nIn := rfl
@[simp] theorem putBytes_next (bs : List Byte) (s : State) : (putBytes bs s).next = s.next := rfl
@[simp] theorem putBytes_dict (bs : List Byte) (s : State) : (putBytes bs s).dict = s.dict := rfl
@[simp] theorem putBytes_wValid (bs : List Byte) (s : State) : (putBytes bs s).wValid = s.wValid := rfl
@[simp] theorem putBytes_wCode (bs : List Byte) (s : State) : (putBytes bs s).wCode = s.wCode := rfl
@[simp] theorem putBytes_prevCode (bs : List Byte) (s : State) : (putBytes bs s).prevCode = s.prevCode := rfl
@[simp] theorem putBytes_firstPending (bs : List Byte) (s : State) : (putBytes bs s).firstPending = s.firstPending := rfl
@[simp] theorem putBytes_host (bs : List Byte) (s : State) : (putBytes bs s).host = s.host := rfl
@[simp] theorem putBytes_reads (bs : List Byte) (s : State) : (putBytes bs s).reads = s.reads := rfl
@[simp] theorem putBytes_draws (bs : List Byte) (s : State) : (putBytes bs s).draws = s.draws := rfl
@[simp] theorem putBytes_resets (bs : List Byte) (s : State) : (putBytes bs s).resets = s.resets := rfl

/-! `accept` -/

@[simp] theorem accept_status (s : State) : (accept s).status = statusRunning := rfl
@[simp] theorem accept_inLen (s : State) : (accept s).inLen = s.inLen := rfl
@[simp] theorem accept_outLen (s : State) : (accept s).outLen = s.outLen := rfl
@[simp] theorem accept_errPos (s : State) : (accept s).errPos = s.errPos := rfl
@[simp] theorem accept_dictNext (s : State) : (accept s).dictNext = s.dictNext := rfl
@[simp] theorem accept_inCapR (s : State) : (accept s).inCapR = s.inCapR := rfl
@[simp] theorem accept_outCapR (s : State) : (accept s).outCapR = s.outCapR := rfl
@[simp] theorem accept_inBuf (s : State) : (accept s).inBuf = s.inBuf := rfl
@[simp] theorem accept_outBuf (s : State) : (accept s).outBuf = s.outBuf := rfl
@[simp] theorem accept_phase (s : State) : (accept s).phase = s.phase := rfl
@[simp] theorem accept_ip (s : State) : (accept s).ip = s.ip := rfl
@[simp] theorem accept_op (s : State) : (accept s).op = s.op := rfl
@[simp] theorem accept_nIn (s : State) : (accept s).nIn = s.inLen := rfl
@[simp] theorem accept_next (s : State) : (accept s).next = s.next := rfl
@[simp] theorem accept_dict (s : State) : (accept s).dict = s.dict := rfl
@[simp] theorem accept_wValid (s : State) : (accept s).wValid = s.wValid := rfl
@[simp] theorem accept_wCode (s : State) : (accept s).wCode = s.wCode := rfl
@[simp] theorem accept_prevCode (s : State) : (accept s).prevCode = s.prevCode := rfl
@[simp] theorem accept_firstPending (s : State) : (accept s).firstPending = s.firstPending := rfl
@[simp] theorem accept_host (s : State) : (accept s).host = s.host := rfl
@[simp] theorem accept_reads (s : State) : (accept s).reads = s.reads := rfl
@[simp] theorem accept_draws (s : State) : (accept s).draws = s.draws := rfl
@[simp] theorem accept_resets (s : State) : (accept s).resets = s.resets := rfl

/-! `encInit` -/

@[simp] theorem encInit_status (s : State) : (encInit s).status = s.status := rfl
@[simp] theorem encInit_inLen (s : State) : (encInit s).inLen = s.inLen := rfl
@[simp] theorem encInit_outLen (s : State) : (encInit s).outLen = s.outLen := rfl
@[simp] theorem encInit_errPos (s : State) : (encInit s).errPos = s.errPos := rfl
@[simp] theorem encInit_dictNext (s : State) : (encInit s).dictNext = s.dictNext := rfl
@[simp] theorem encInit_inCapR (s : State) : (encInit s).inCapR = s.inCapR := rfl
@[simp] theorem encInit_outCapR (s : State) : (encInit s).outCapR = s.outCapR := rfl
@[simp] theorem encInit_inBuf (s : State) : (encInit s).inBuf = s.inBuf := rfl
@[simp] theorem encInit_outBuf (s : State) : (encInit s).outBuf = s.outBuf := rfl
@[simp] theorem encInit_phase (s : State) : (encInit s).phase = .enc := rfl
@[simp] theorem encInit_ip (s : State) : (encInit s).ip = 0 := rfl
@[simp] theorem encInit_op (s : State) : (encInit s).op = 0 := rfl
@[simp] theorem encInit_nIn (s : State) : (encInit s).nIn = s.nIn := rfl
@[simp] theorem encInit_next (s : State) : (encInit s).next = 256 := rfl
@[simp] theorem encInit_dict (s : State) : (encInit s).dict = seeds := rfl
@[simp] theorem encInit_wValid (s : State) : (encInit s).wValid = false := rfl
@[simp] theorem encInit_wCode (s : State) : (encInit s).wCode = s.wCode := rfl
@[simp] theorem encInit_prevCode (s : State) : (encInit s).prevCode = s.prevCode := rfl
@[simp] theorem encInit_firstPending (s : State) : (encInit s).firstPending = s.firstPending := rfl
@[simp] theorem encInit_host (s : State) : (encInit s).host = s.host := rfl
@[simp] theorem encInit_reads (s : State) : (encInit s).reads = s.reads := rfl
@[simp] theorem encInit_draws (s : State) : (encInit s).draws = s.draws := rfl
@[simp] theorem encInit_resets (s : State) : (encInit s).resets = s.resets := rfl

/-! `decInit` -/

@[simp] theorem decInit_status (s : State) : (decInit s).status = s.status := rfl
@[simp] theorem decInit_inLen (s : State) : (decInit s).inLen = s.inLen := rfl
@[simp] theorem decInit_outLen (s : State) : (decInit s).outLen = s.outLen := rfl
@[simp] theorem decInit_errPos (s : State) : (decInit s).errPos = s.errPos := rfl
@[simp] theorem decInit_dictNext (s : State) : (decInit s).dictNext = s.dictNext := rfl
@[simp] theorem decInit_inCapR (s : State) : (decInit s).inCapR = s.inCapR := rfl
@[simp] theorem decInit_outCapR (s : State) : (decInit s).outCapR = s.outCapR := rfl
@[simp] theorem decInit_inBuf (s : State) : (decInit s).inBuf = s.inBuf := rfl
@[simp] theorem decInit_outBuf (s : State) : (decInit s).outBuf = s.outBuf := rfl
@[simp] theorem decInit_phase (s : State) : (decInit s).phase = .dec := rfl
@[simp] theorem decInit_ip (s : State) : (decInit s).ip = 0 := rfl
@[simp] theorem decInit_op (s : State) : (decInit s).op = 0 := rfl
@[simp] theorem decInit_nIn (s : State) : (decInit s).nIn = s.nIn := rfl
@[simp] theorem decInit_next (s : State) : (decInit s).next = 256 := rfl
@[simp] theorem decInit_dict (s : State) : (decInit s).dict = seeds := rfl
@[simp] theorem decInit_wValid (s : State) : (decInit s).wValid = s.wValid := rfl
@[simp] theorem decInit_wCode (s : State) : (decInit s).wCode = s.wCode := rfl
@[simp] theorem decInit_prevCode (s : State) : (decInit s).prevCode = s.prevCode := rfl
@[simp] theorem decInit_firstPending (s : State) : (decInit s).firstPending = true := rfl
@[simp] theorem decInit_host (s : State) : (decInit s).host = s.host := rfl
@[simp] theorem decInit_reads (s : State) : (decInit s).reads = s.reads := rfl
@[simp] theorem decInit_draws (s : State) : (decInit s).draws = s.draws := rfl
@[simp] theorem decInit_resets (s : State) : (decInit s).resets = s.resets := rfl

/-! `logRead` -/

@[simp] theorem logRead_status (r : BusRead) (s : State) : (logRead r s).status = s.status := rfl
@[simp] theorem logRead_inLen (r : BusRead) (s : State) : (logRead r s).inLen = s.inLen := rfl
@[simp] theorem logRead_outLen (r : BusRead) (s : State) : (logRead r s).outLen = s.outLen := rfl
@[simp] theorem logRead_errPos (r : BusRead) (s : State) : (logRead r s).errPos = s.errPos := rfl
@[simp] theorem logRead_dictNext (r : BusRead) (s : State) : (logRead r s).dictNext = s.dictNext := rfl
@[simp] theorem logRead_inCapR (r : BusRead) (s : State) : (logRead r s).inCapR = s.inCapR := rfl
@[simp] theorem logRead_outCapR (r : BusRead) (s : State) : (logRead r s).outCapR = s.outCapR := rfl
@[simp] theorem logRead_inBuf (r : BusRead) (s : State) : (logRead r s).inBuf = s.inBuf := rfl
@[simp] theorem logRead_outBuf (r : BusRead) (s : State) : (logRead r s).outBuf = s.outBuf := rfl
@[simp] theorem logRead_phase (r : BusRead) (s : State) : (logRead r s).phase = s.phase := rfl
@[simp] theorem logRead_ip (r : BusRead) (s : State) : (logRead r s).ip = s.ip := rfl
@[simp] theorem logRead_op (r : BusRead) (s : State) : (logRead r s).op = s.op := rfl
@[simp] theorem logRead_nIn (r : BusRead) (s : State) : (logRead r s).nIn = s.nIn := rfl
@[simp] theorem logRead_next (r : BusRead) (s : State) : (logRead r s).next = s.next := rfl
@[simp] theorem logRead_dict (r : BusRead) (s : State) : (logRead r s).dict = s.dict := rfl
@[simp] theorem logRead_wValid (r : BusRead) (s : State) : (logRead r s).wValid = s.wValid := rfl
@[simp] theorem logRead_wCode (r : BusRead) (s : State) : (logRead r s).wCode = s.wCode := rfl
@[simp] theorem logRead_prevCode (r : BusRead) (s : State) : (logRead r s).prevCode = s.prevCode := rfl
@[simp] theorem logRead_firstPending (r : BusRead) (s : State) : (logRead r s).firstPending = s.firstPending := rfl
@[simp] theorem logRead_host (r : BusRead) (s : State) : (logRead r s).host = s.host := rfl
@[simp] theorem logRead_reads (r : BusRead) (s : State) : (logRead r s).reads = s.reads ++ [r] := rfl
@[simp] theorem logRead_draws (r : BusRead) (s : State) : (logRead r s).draws = s.draws := rfl
@[simp] theorem logRead_resets (r : BusRead) (s : State) : (logRead r s).resets = s.resets := rfl

/-! `takeAction` -/

@[simp] theorem takeAction_status (a : HostAction) (rest : List HostAction) (s : State) : (takeAction a rest s).status = s.status := rfl
@[simp] theorem takeAction_inLen (a : HostAction) (rest : List HostAction) (s : State) : (takeAction a rest s).inLen = s.inLen := rfl
@[simp] theorem takeAction_outLen (a : HostAction) (rest : List HostAction) (s : State) : (takeAction a rest s).outLen = s.outLen := rfl
@[simp] theorem takeAction_errPos (a : HostAction) (rest : List HostAction) (s : State) : (takeAction a rest s).errPos = s.errPos := rfl
@[simp] theorem takeAction_dictNext (a : HostAction) (rest : List HostAction) (s : State) : (takeAction a rest s).dictNext = s.dictNext := rfl
@[simp] theorem takeAction_inCapR (a : HostAction) (rest : List HostAction) (s : State) : (takeAction a rest s).inCapR = s.inCapR := rfl
@[simp] theorem takeAction_outCapR (a : HostAction) (rest : List HostAction) (s : State) : (takeAction a rest s).outCapR = s.outCapR := rfl
@[simp] theorem takeAction_inBuf (a : HostAction) (rest : List HostAction) (s : State) : (takeAction a rest s).inBuf = s.inBuf := rfl
@[simp] theorem takeAction_outBuf (a : HostAction) (rest : List HostAction) (s : State) : (takeAction a rest s).outBuf = s.outBuf := rfl
@[simp] theorem takeAction_phase (a : HostAction) (rest : List HostAction) (s : State) : (takeAction a rest s).phase = s.phase := rfl
@[simp] theorem takeAction_ip (a : HostAction) (rest : List HostAction) (s : State) : (takeAction a rest s).ip = s.ip := rfl
@[simp] theorem takeAction_op (a : HostAction) (rest : List HostAction) (s : State) : (takeAction a rest s).op = s.op := rfl
@[simp] theorem takeAction_nIn (a : HostAction) (rest : List HostAction) (s : State) : (takeAction a rest s).nIn = s.nIn := rfl
@[simp] theorem takeAction_next (a : HostAction) (rest : List HostAction) (s : State) : (takeAction a rest s).next = s.next := rfl
@[simp] theorem takeAction_dict (a : HostAction) (rest : List HostAction) (s : State) : (takeAction a rest s).dict = s.dict := rfl
@[simp] theorem takeAction_wValid (a : HostAction) (rest : List HostAction) (s : State) : (takeAction a rest s).wValid = s.wValid := rfl
@[simp] theorem takeAction_wCode (a : HostAction) (rest : List HostAction) (s : State) : (takeAction a rest s).wCode = s.wCode := rfl
@[simp] theorem takeAction_prevCode (a : HostAction) (rest : List HostAction) (s : State) : (takeAction a rest s).prevCode = s.prevCode := rfl
@[simp] theorem takeAction_firstPending (a : HostAction) (rest : List HostAction) (s : State) : (takeAction a rest s).firstPending = s.firstPending := rfl
@[simp] theorem takeAction_host (a : HostAction) (rest : List HostAction) (s : State) : (takeAction a rest s).host = rest := rfl
@[simp] theorem takeAction_reads (a : HostAction) (rest : List HostAction) (s : State) : (takeAction a rest s).reads = s.reads := rfl
@[simp] theorem takeAction_resets (a : HostAction) (rest : List HostAction) (s : State) : (takeAction a rest s).resets = s.resets := rfl

/-! `blockTurn` -/

@[simp] theorem blockTurn_status (s : State) : (blockTurn s).status = s.status := rfl
@[simp] theorem blockTurn_inLen (s : State) : (blockTurn s).inLen = s.inLen := rfl
@[simp] theorem blockTurn_outLen (s : State) : (blockTurn s).outLen = s.outLen := rfl
@[simp] theorem blockTurn_errPos (s : State) : (blockTurn s).errPos = s.errPos := rfl
@[simp] theorem blockTurn_dictNext (s : State) : (blockTurn s).dictNext = s.dictNext := rfl
@[simp] theorem blockTurn_inCapR (s : State) : (blockTurn s).inCapR = s.inCapR := rfl
@[simp] theorem blockTurn_outCapR (s : State) : (blockTurn s).outCapR = s.outCapR := rfl
@[simp] theorem blockTurn_inBuf (s : State) : (blockTurn s).inBuf = s.inBuf := rfl
@[simp] theorem blockTurn_outBuf (s : State) : (blockTurn s).outBuf = s.outBuf := rfl
@[simp] theorem blockTurn_phase (s : State) : (blockTurn s).phase = s.phase := rfl
@[simp] theorem blockTurn_ip (s : State) : (blockTurn s).ip = s.ip := rfl
@[simp] theorem blockTurn_op (s : State) : (blockTurn s).op = s.op := rfl
@[simp] theorem blockTurn_nIn (s : State) : (blockTurn s).nIn = s.nIn := rfl
@[simp] theorem blockTurn_next (s : State) : (blockTurn s).next = s.next := rfl
@[simp] theorem blockTurn_dict (s : State) : (blockTurn s).dict = s.dict := rfl
@[simp] theorem blockTurn_wValid (s : State) : (blockTurn s).wValid = s.wValid := rfl
@[simp] theorem blockTurn_wCode (s : State) : (blockTurn s).wCode = s.wCode := rfl
@[simp] theorem blockTurn_prevCode (s : State) : (blockTurn s).prevCode = s.prevCode := rfl
@[simp] theorem blockTurn_firstPending (s : State) : (blockTurn s).firstPending = s.firstPending := rfl
@[simp] theorem blockTurn_reads (s : State) : (blockTurn s).reads = s.reads := rfl
@[simp] theorem blockTurn_draws (s : State) : (blockTurn s).draws = s.draws + 1 := rfl
@[simp] theorem blockTurn_resets (s : State) : (blockTurn s).resets = s.resets := rfl

/-! `hostReset` -/

@[simp] theorem hostReset_status (s : State) : (hostReset s).status = 0 := rfl
@[simp] theorem hostReset_inLen (s : State) : (hostReset s).inLen = 0 := rfl
@[simp] theorem hostReset_outLen (s : State) : (hostReset s).outLen = 0 := rfl
@[simp] theorem hostReset_errPos (s : State) : (hostReset s).errPos = 0 := rfl
@[simp] theorem hostReset_dictNext (s : State) : (hostReset s).dictNext = 0 := rfl
@[simp] theorem hostReset_inCapR (s : State) : (hostReset s).inCapR = s.inCapR := rfl
@[simp] theorem hostReset_outCapR (s : State) : (hostReset s).outCapR = s.outCapR := rfl
@[simp] theorem hostReset_inBuf (s : State) : (hostReset s).inBuf = [] := rfl
@[simp] theorem hostReset_outBuf (s : State) : (hostReset s).outBuf = [] := rfl
@[simp] theorem hostReset_phase (s : State) : (hostReset s).phase = .idle := rfl
@[simp] theorem hostReset_ip (s : State) : (hostReset s).ip = 0 := rfl
@[simp] theorem hostReset_op (s : State) : (hostReset s).op = 0 := rfl
@[simp] theorem hostReset_nIn (s : State) : (hostReset s).nIn = 0 := rfl
@[simp] theorem hostReset_next (s : State) : (hostReset s).next = 0 := rfl
@[simp] theorem hostReset_dict (s : State) : (hostReset s).dict = [] := rfl
@[simp] theorem hostReset_wValid (s : State) : (hostReset s).wValid = false := rfl
@[simp] theorem hostReset_wCode (s : State) : (hostReset s).wCode = 0 := rfl
@[simp] theorem hostReset_prevCode (s : State) : (hostReset s).prevCode = 0 := rfl
@[simp] theorem hostReset_firstPending (s : State) : (hostReset s).firstPending = false := rfl
@[simp] theorem hostReset_host (s : State) : (hostReset s).host = s.host := rfl
@[simp] theorem hostReset_reads (s : State) : (hostReset s).reads = s.reads := rfl
@[simp] theorem hostReset_draws (s : State) : (hostReset s).draws = s.draws := rfl
@[simp] theorem hostReset_resets (s : State) : (hostReset s).resets = s.resets + 1 := rfl

/-! `insertEntry` -/

@[simp] theorem insertEntry_status (e : Entry) (s : State) : (insertEntry e s).status = s.status := by unfold insertEntry; split <;> rfl
@[simp] theorem insertEntry_inLen (e : Entry) (s : State) : (insertEntry e s).inLen = s.inLen := by unfold insertEntry; split <;> rfl
@[simp] theorem insertEntry_outLen (e : Entry) (s : State) : (insertEntry e s).outLen = s.outLen := by unfold insertEntry; split <;> rfl
@[simp] theorem insertEntry_errPos (e : Entry) (s : State) : (insertEntry e s).errPos = s.errPos := by unfold insertEntry; split <;> rfl
@[simp] theorem insertEntry_dictNext (e : Entry) (s : State) : (insertEntry e s).dictNext = s.dictNext := by unfold insertEntry; split <;> rfl
@[simp] theorem insertEntry_inCapR (e : Entry) (s : State) : (insertEntry e s).inCapR = s.inCapR := by unfold insertEntry; split <;> rfl
@[simp] theorem insertEntry_outCapR (e : Entry) (s : State) : (insertEntry e s).outCapR = s.outCapR := by unfold insertEntry; split <;> rfl
@[simp] theorem insertEntry_inBuf (e : Entry) (s : State) : (insertEntry e s).inBuf = s.inBuf := by unfold insertEntry; split <;> rfl
@[simp] theorem insertEntry_outBuf (e : Entry) (s : State) : (insertEntry e s).outBuf = s.outBuf := by unfold insertEntry; split <;> rfl
@[simp] theorem insertEntry_phase (e : Entry) (s : State) : (insertEntry e s).phase = s.phase := by unfold insertEntry; split <;> rfl
@[simp] theorem insertEntry_ip (e : Entry) (s : State) : (insertEntry e s).ip = s.ip := by unfold insertEntry; split <;> rfl
@[simp] theorem insertEntry_op (e : Entry) (s : State) : (insertEntry e s).op = s.op := by unfold insertEntry; split <;> rfl
@[simp] theorem insertEntry_nIn (e : Entry) (s : State) : (insertEntry e s).nIn = s.nIn := by unfold insertEntry; split <;> rfl
@[simp] theorem insertEntry_wValid (e : Entry) (s : State) : (insertEntry e s).wValid = s.wValid := by unfold insertEntry; split <;> rfl
@[simp] theorem insertEntry_wCode (e : Entry) (s : State) : (insertEntry e s).wCode = s.wCode := by unfold insertEntry; split <;> rfl
@[simp] theorem insertEntry_prevCode (e : Entry) (s : State) : (insertEntry e s).prevCode = s.prevCode := by unfold insertEntry; split <;> rfl
@[simp] theorem insertEntry_firstPending (e : Entry) (s : State) : (insertEntry e s).firstPending = s.firstPending := by unfold insertEntry; split <;> rfl
@[simp] theorem insertEntry_host (e : Entry) (s : State) : (insertEntry e s).host = s.host := by unfold insertEntry; split <;> rfl
@[simp] theorem insertEntry_reads (e : Entry) (s : State) : (insertEntry e s).reads = s.reads := by unfold insertEntry; split <;> rfl
@[simp] theorem insertEntry_draws (e : Entry) (s : State) : (insertEntry e s).draws = s.draws := by unfold insertEntry; split <;> rfl
@[simp] theorem insertEntry_resets (e : Entry) (s : State) : (insertEntry e s).resets = s.resets := by unfold insertEntry; split <;> rfl

theorem insertEntry_dict (e : Entry) (s : State) :
    (insertEntry e s).dict = if s.next.toNat < Config.dictCap then s.dict ++ [e] else s.dict := by unfold insertEntry; split <;> rfl

theorem insertEntry_next (e : Entry) (s : State) :
    (insertEntry e s).next = if s.next.toNat < Config.dictCap then s.next + 1 else s.next := by unfold insertEntry; split <;> rfl

@[simp] theorem complete_eq_commit (s : State) : complete s = commit .ok 0 s := rfl

/-! BUSY depends on STATUS alone. -/

theorem busy_congr {s t : State} (h : t.status = s.status) : t.busy = s.busy := by simp [State.busy, h]

@[simp] theorem statusRunning_eq : statusRunning = 1#32 := by decide

@[simp] theorem statusEnded_ok : statusEnded .ok = 0x02#32 := by decide
@[simp] theorem statusEnded_framing : statusEnded .framing = 0x12#32 := by decide
@[simp] theorem statusEnded_badCode : statusEnded .badCode = 0x22#32 := by decide
@[simp] theorem statusEnded_io : statusEnded .io = 0x32#32 := by decide
@[simp] theorem statusEnded_internal : statusEnded .internal = 0x42#32 := by decide
@[simp] theorem statusEnded_illegalCmd : statusEnded .illegalCmd = 0x52#32 := by decide

@[simp] theorem commit_busy (e : Err) (pos : Word) (s : State) : (commit e pos s).busy = false := by
  cases e <;> simp [State.busy]

@[simp] theorem commit_done (e : Err) (pos : Word) (s : State) : (commit e pos s).done = true := by
  cases e <;> simp [State.done]

@[simp] theorem accept_busy (s : State) : (accept s).busy = true := by simp [State.busy]

end Sys2Proof.Laws
end

