-- ==== Sys2Proof/Laws/Ops.lean ====
section
/-! SUPPORT. One lemma per shared operation: everything it can answer. -/

namespace Sys2Proof.Laws

open Sys2Proof.Machine

/-! ### Results -/

theorem bind_done {α β : Type} {r : StepResult α} {f : α → StepResult β} {b : β} (h : r.bind f = .done b) :
    ∃ a, r = .done a ∧ f a = .done b := by
  cases r with
  | done a => exact ⟨a, rfl, h⟩
  | raise e pos => cases h
  | fault x => cases h

theorem bind_raise {α β : Type} {r : StepResult α} {f : α → StepResult β} {e : Err} {pos : Word}
    (h : r.bind f = .raise e pos) : r = .raise e pos ∨ ∃ a, r = .done a ∧ f a = .raise e pos := by
  cases r with
  | done a => exact .inr ⟨a, rfl, h⟩
  | raise e' pos' => left; simpa [StepResult.bind] using h
  | fault x => cases h

theorem bind_fault {α β : Type} {r : StepResult α} {f : α → StepResult β} {x : Fault}
    (h : r.bind f = .fault x) : r = .fault x ∨ ∃ a, r = .done a ∧ f a = .fault x := by
  cases r with
  | done a => exact .inr ⟨a, rfl, h⟩
  | raise e' pos' => cases h
  | fault y => left; simpa [StepResult.bind] using h

@[simp] theorem done_bind {α β : Type} (a : α) (f : α → StepResult β) : (StepResult.done a).bind f = f a := rfl

@[simp] theorem raise_bind {α β : Type} (e : Err) (pos : Word) (f : α → StepResult β) :
    (StepResult.raise e pos).bind f = .raise e pos := rfl

@[simp] theorem fault_bind {α β : Type} (x : Fault) (f : α → StepResult β) :
    (StepResult.fault x : StepResult α).bind f = .fault x := rfl

theorem ofOption_done {α : Type} {f : Fault} {o : Option α} {a : α} : StepResult.ofOption f o = .done a ↔ o = some a := by
  cases o <;> simp [StepResult.ofOption]

theorem ofOption_ne_raise {α : Type} {f : Fault} {o : Option α} {e : Err} {pos : Word} :
    StepResult.ofOption f o ≠ .raise e pos := by
  cases o <;> simp [StepResult.ofOption]

theorem ofOption_fault {α : Type} {f x : Fault} {o : Option α} : StepResult.ofOption f o = .fault x ↔ o = none ∧ x = f := by
  cases o <;> simp [StepResult.ofOption, eq_comm]

/-- Everything `finish` can answer: the operation's state, or `commit` on the state before it. -/
theorem finish_next {s t : State} {r : StepResult State} (h : finish s r = .next t) :
    r = .done t ∨ ∃ e pos, r = .raise e pos ∧ t = commit e pos s := by
  cases r with
  | done a => left; simpa [finish] using h
  | raise e pos => right; exact ⟨e, pos, rfl, by simpa [finish] using h.symm⟩
  | fault x => simp [finish] at h

theorem finish_ne_refused {s : State} {r : StepResult State} {q : Refusal} : finish s r ≠ .refused q := by
  cases r <;> simp [finish]

theorem finish_fault {s : State} {r : StepResult State} {x : Fault} (h : finish s r = .fault x) : r = .fault x := by
  cases r <;> simp_all [finish]

/-! ### Bytes and codes -/

theorem bytesOfCode_length (k : Code) : (bytesOfCode k).length = 2 := rfl

/-- R86 on one unit. -/
theorem codeOfBytes_bytesOfCode (k : Code) : codeOfBytes (k.extractLsb' 8 8) (k.extractLsb' 0 8) = k := by
  refine BitVec.eq_of_getLsbD_eq fun i hi => ?_
  by_cases h : i < 8
  · simp [codeOfBytes, h, hi]
  · simp [codeOfBytes, h, hi, show i - 8 < 8 by omega, show 8 + (i - 8) = i by omega]

/-- A code as a number: the first byte is the more significant (R86). -/
theorem codeOfBytes_toNat (hi lo : Byte) : (codeOfBytes hi lo).toNat = hi.toNat * 256 + lo.toNat := by
  have h1 := hi.isLt
  have h2 := lo.isLt
  have h3 := Nat.two_pow_add_eq_or_of_lt (i := 8) (b := lo.toNat) (by omega) hi.toNat
  simp only [codeOfBytes, BitVec.toNat_or, BitVec.toNat_shiftLeft, BitVec.toNat_setWidth, Nat.shiftLeft_eq]
  rw [Nat.mod_eq_of_lt (a := hi.toNat) (by omega), Nat.mod_eq_of_lt (a := lo.toNat) (by omega),
    Nat.mod_eq_of_lt (by omega), Nat.mul_comm (hi.toNat), ← h3]

theorem bytesOfCode_codeOfBytes (hi lo : Byte) : bytesOfCode (codeOfBytes hi lo) = [hi, lo] := by
  simp only [bytesOfCode, codeOfBytes, List.cons.injEq, and_true]
  constructor
  · refine BitVec.eq_of_getLsbD_eq fun i h => ?_
    simp [h, show 8 + i < 16 by omega]
  · refine BitVec.eq_of_getLsbD_eq fun i h => ?_
    simp [h, show i < 16 by omega]

/-! ### Reads -/

theorem memReadIn_done {s : State} {i : Nat} {b : Byte} : memReadIn s i = .done b ↔ s.inBuf.read i = some b := ofOption_done

theorem frmDes_done {s : State} {i : Nat} {k : Code} (h : frmDes s i = .done k) :
    ∃ hi lo, s.inBuf.read (2 * i) = some hi ∧ s.inBuf.read (2 * i + 1) = some lo ∧ k = codeOfBytes hi lo := by
  obtain ⟨hi, h1, h⟩ := bind_done h
  obtain ⟨lo, h2, h⟩ := bind_done h
  exact ⟨hi, lo, memReadIn_done.mp h1, memReadIn_done.mp h2, by simpa using h.symm⟩

theorem frmDes_ne_raise {s : State} {i : Nat} {e : Err} {pos : Word} : frmDes s i ≠ .raise e pos := by
  intro h
  rcases bind_raise h with h | ⟨_, _, h⟩
  · exact ofOption_ne_raise h
  · rcases bind_raise h with h | ⟨_, _, h⟩
    · exact ofOption_ne_raise h
    · cases h

theorem frmDes_fault {s : State} {i : Nat} {x : Fault} (h : frmDes s i = .fault x) :
    x = .uninitInput ∧ (s.inBuf.read (2 * i) = none ∨ s.inBuf.read (2 * i + 1) = none) := by
  rcases bind_fault h with h | ⟨_, _, h⟩
  · obtain ⟨h1, h2⟩ := ofOption_fault.mp h; exact ⟨h2, .inl h1⟩
  · rcases bind_fault h with h | ⟨_, _, h⟩
    · obtain ⟨h1, h2⟩ := ofOption_fault.mp h; exact ⟨h2, .inr h1⟩
    · cases h

theorem dictEntry_some {s : State} {k : Nat} {e : Entry} (h : dictEntry s k = some e) :
    k < s.next.toNat ∧ s.dict[k]? = some e := by
  unfold dictEntry at h
  split at h
  · exact ⟨‹_›, h⟩
  · cases h

theorem entryAt_done {s : State} {k : Code} {e : Entry} : entryAt s k = .done e ↔ dictEntry s k.toNat = some e := ofOption_done

/-- FD is exact, R105: what it finds is the entry of the code it answers. -/
theorem fdLookup_some {s : State} {p n : Code} {b : Byte} (hn : s.next.toNat ≤ 65536) (h : fdLookup s p b = some n) :
    ∃ w, dictEntry s p.toNat = some w ∧ 256 ≤ n.toNat ∧ dictEntry s n.toNat = some (w ++ [b]) := by
  unfold fdLookup at h
  split at h
  · cases h
  · rename_i w hw
    obtain ⟨j, hj, rfl⟩ := Option.map_eq_some_iff.mp h
    obtain ⟨hlt, hp, -⟩ := List.findIdx?_eq_some_iff_getElem.mp hj
    simp only [List.length_drop, List.length_take, List.getElem_drop, List.getElem_take, decide_eq_true_eq] at hlt hp
    have h16 : (BitVec.ofNat 16 (Config.seedCount + j)).toNat = Config.seedCount + j := by
      rw [BitVec.toNat_ofNat]; exact Nat.mod_eq_of_lt (by omega)
    refine ⟨w, hw, by rw [h16]; simp, ?_⟩
    rw [h16, dictEntry, if_pos (by omega), List.getElem?_eq_getElem (by omega), hp]

/-- FD is exact, R105: where it finds nothing, no assigned code has the sequence. -/
theorem fdLookup_none {s : State} {p : Code} {b : Byte} {w : Entry} (hw : dictEntry s p.toNat = some w)
    (h : fdLookup s p b = none) (n : Nat) (hn : 256 ≤ n) : dictEntry s n ≠ some (w ++ [b]) := by
  intro hd
  obtain ⟨hlt, hd⟩ := dictEntry_some hd
  obtain ⟨hlen, hd⟩ := List.getElem?_eq_some_iff.mp hd
  simp only [fdLookup, hw, Option.map_eq_none_iff, List.findIdx?_eq_none_iff, decide_eq_false_iff_not] at h
  refine h (w ++ [b]) ?_ rfl
  rw [List.mem_iff_getElem]
  refine ⟨n - 256, by simp only [List.length_drop, List.length_take, Config.seedCount]; omega, ?_⟩
  simp only [List.getElem_drop, List.getElem_take, show Config.seedCount + (n - 256) = n from by
    show 256 + (n - 256) = n; omega, hd]

/-! ### Writes -/

/-- Everything FRM.SER does when it answers a state, R163. -/
theorem frmSer_done {k : Code} {s t : State} (h : frmSer k s = .done t) :
    k.toNat < s.next.toNat ∧ s.op.toNat + 2 ≤ s.outCapR.toNat ∧ t = putBytes (bytesOfCode k) s := by
  unfold frmSer at h
  split_ifs at h with h1 h2
  exact ⟨by omega, by omega, by simpa using h.symm⟩

theorem frmSer_raise {k : Code} {s : State} {e : Err} {pos : Word} (h : frmSer k s = .raise e pos) :
    e = .io ∧ pos = s.ip ∧ s.outCapR.toNat < s.op.toNat + 2 := by
  unfold frmSer at h
  split_ifs at h with h1 h2
  simp only [StepResult.raise.injEq] at h
  exact ⟨h.1.symm, h.2.symm, h2⟩

theorem frmSer_fault {k : Code} {s : State} {x : Fault} (h : frmSer k s = .fault x) : s.next.toNat ≤ k.toNat := by
  unfold frmSer at h
  split_ifs at h with h1 h2
  exact h1

/-- Everything `append` does when it answers a state, R134. -/
theorem outAppend_done {e : Entry} {s t : State} (h : outAppend e s = .done t) :
    s.op.toNat + e.length ≤ s.outCapR.toNat ∧ t = putBytes e s := by
  unfold outAppend at h
  split_ifs at h with h1
  exact ⟨by omega, by simpa using h.symm⟩

theorem outAppend_raise {e : Entry} {s : State} {x : Err} {pos : Word} (h : outAppend e s = .raise x pos) :
    x = .io ∧ pos = s.ip ∧ s.outCapR.toNat < s.op.toNat + e.length := by
  unfold outAppend at h
  split_ifs at h with h1
  simp only [StepResult.raise.injEq] at h
  exact ⟨h.1.symm, h.2.symm, h1⟩

theorem outAppend_ne_fault {e : Entry} {s : State} {x : Fault} : outAppend e s ≠ .fault x := by
  unfold outAppend; split <;> simp

/-- The cursor after a write that fits: no wrap (R12). -/
theorem putBytes_op_toNat {bs : List Byte} {s : State} (h : s.op.toNat + bs.length ≤ s.outCapR.toNat) :
    (putBytes bs s).op.toNat = s.op.toNat + bs.length := by
  have := s.outCapR.isLt
  simp only [putBytes_op, BitVec.toNat_add, BitVec.toNat_ofNat]
  rw [Nat.mod_eq_of_lt (a := bs.length) (by omega)]
  exact Nat.mod_eq_of_lt (by omega)

/-! ### `first` -/

theorem firstByte_done {e : Entry} {b : Byte} : firstByte e = .done b ↔ e.head? = some b := ofOption_done

theorem firstByte_ne_raise {e : Entry} {x : Err} {pos : Word} : firstByte e ≠ .raise x pos := ofOption_ne_raise

theorem firstByte_fault {e : Entry} {x : Fault} (h : firstByte e = .fault x) : e = [] := by
  simpa using (ofOption_fault.mp h).1

/-! ### The seeds -/

theorem seeds_length : seeds.length = 256 := by simp [seeds]

theorem seeds_getElem? {i : Nat} (h : i < 256) : seeds[i]? = some [BitVec.ofNat 8 i] := by
  simp [seeds, h]

theorem seeds_nodup : seeds.Nodup := by
  refine List.Nodup.map_on (fun x hx y hy h => ?_) List.nodup_range
  simp only [List.mem_range] at hx hy
  have := congrArg BitVec.toNat (List.cons.inj h).1
  simp only [BitVec.toNat_ofNat, Config.seedCount] at this hx hy
  omega

/-! ### Codes and counters as numbers -/

theorem seedCode_toNat (c : Byte) : (seedCode c).toNat = c.toNat := by
  have := c.isLt
  simp only [seedCode, BitVec.toNat_setWidth]
  omega

/-- NEXT does not wrap below 65536 (R37). -/
theorem next_succ_toNat {n : BitVec 17} (h : n.toNat < 65536) : (n + 1).toNat = n.toNat + 1 := by
  rw [BitVec.toNat_add, show (1 : BitVec 17).toNat = 1 from rfl]; omega

/-- A cursor below a 32-bit bound does not wrap (R12). -/
theorem cursor_succ_toNat {c n : Word} (h : c.toNat < n.toNat) : (c + 1).toNat = c.toNat + 1 := by
  have := n.isLt
  rw [BitVec.toNat_add, show (1 : Word).toNat = 1 from rfl]; omega

/-- NEXT after `insert`, R44. -/
theorem insertEntry_next_toNat (e : Entry) (s : State) :
    (insertEntry e s).next.toNat = if s.next.toNat < 65536 then s.next.toNat + 1 else s.next.toNat := by
  rw [insertEntry_next]
  split <;> rename_i h
  · exact next_succ_toNat h
  · rfl

end Sys2Proof.Laws
end

