-- ==== Sys2Proof/Laws/Decoder.lean ====
section
/-! SUPPORT. Everything a decoder step can answer (R132, R133, R135). -/

namespace Sys2Proof.Laws

open Sys2Proof.Machine

theorem decFirst_done {s t : State} (h : decFirst s = .done t) :
    ∃ k, frmDes s s.ip.toNat = .done k ∧ k.toNat < 256 ∧ s.op.toNat + 1 ≤ s.outCapR.toNat ∧
      t = { putBytes [k.setWidth 8] s with prevCode := k, firstPending := false, ip := s.ip + 1 } := by
  obtain ⟨k, hk, h⟩ := bind_done h
  split_ifs at h with h256
  obtain ⟨t0, ha, h⟩ := bind_done h
  obtain ⟨hcap, rfl⟩ := outAppend_done ha
  exact ⟨k, hk, by omega, by simpa using hcap, by simpa using h.symm⟩

theorem decFirst_raise {s : State} {e : Err} {pos : Word} (h : decFirst s = .raise e pos) :
    ∃ k, frmDes s s.ip.toNat = .done k ∧ pos = s.ip ∧
      (e = .badCode ∧ 256 ≤ k.toNat ∨ e = .io ∧ k.toNat < 256 ∧ s.outCapR.toNat < s.op.toNat + 1) := by
  rcases bind_raise h with h | ⟨k, hk, h⟩
  · exact absurd h frmDes_ne_raise
  · refine ⟨k, hk, ?_⟩
    split_ifs at h with h256
    · simp only [StepResult.raise.injEq] at h
      exact ⟨h.2.symm, .inl ⟨h.1.symm, h256⟩⟩
    · rcases bind_raise h with h | ⟨_, -, h⟩
      · obtain ⟨h1, h2, h3⟩ := outAppend_raise h
        exact ⟨h2, .inr ⟨h1, by omega, by simpa using h3⟩⟩
      · cases h

theorem decFirst_fault {s : State} {x : Fault} (h : decFirst s = .fault x) : frmDes s s.ip.toNat = .fault x := by
  rcases bind_fault h with h | ⟨k, hk, h⟩
  · exact h
  · split_ifs at h with h256
    rcases bind_fault h with h | ⟨_, -, h⟩
    · exact absurd h outAppend_ne_fault
    · cases h

/-- R133's three classes of a code: known, the special case, and the rest. -/
theorem codeEntry_done {s : State} {w e : Entry} {k : Code} (h : codeEntry s w k = .done e) :
    (k.toNat < s.next.toNat ∧ dictEntry s k.toNat = some e) ∨
    (k.toNat = s.next.toNat ∧ ∃ b, w.head? = some b ∧ e = w ++ [b]) := by
  unfold codeEntry at h
  split_ifs at h with h1 h2
  · exact .inl ⟨h1, entryAt_done.mp h⟩
  · obtain ⟨b, hb, h⟩ := bind_done h
    exact .inr ⟨h2, b, firstByte_done.mp hb, by simpa using h.symm⟩

theorem codeEntry_raise {s : State} {w : Entry} {k : Code} {e : Err} {pos : Word} (h : codeEntry s w k = .raise e pos) :
    e = .badCode ∧ pos = s.ip ∧ s.next.toNat < k.toNat := by
  unfold codeEntry at h
  split_ifs at h with h1 h2
  · exact absurd h ofOption_ne_raise
  · rcases bind_raise h with h | ⟨_, -, h⟩
    · exact absurd h firstByte_ne_raise
    · cases h
  · simp only [StepResult.raise.injEq] at h
    exact ⟨h.1.symm, h.2.symm, by omega⟩

theorem codeEntry_fault {s : State} {w : Entry} {k : Code} {x : Fault} (h : codeEntry s w k = .fault x) :
    (k.toNat < s.next.toNat ∧ dictEntry s k.toNat = none) ∨ w = [] := by
  unfold codeEntry at h
  split_ifs at h with h1 h2
  · exact .inl ⟨h1, (ofOption_fault.mp h).1⟩
  · rcases bind_fault h with h | ⟨_, -, h⟩
    · exact .inr (firstByte_fault h)
    · cases h

theorem decCode_done {s t : State} (h : decCode s = .done t) :
    ∃ k w e b, frmDes s s.ip.toNat = .done k ∧ dictEntry s s.prevCode.toNat = some w ∧ codeEntry s w k = .done e ∧
      e.head? = some b ∧ s.op.toNat + e.length ≤ s.outCapR.toNat ∧
      t = { insertEntry (w ++ [b]) (putBytes e s) with prevCode := k, ip := s.ip + 1 } := by
  obtain ⟨k, hk, h⟩ := bind_done h
  obtain ⟨w, hw, h⟩ := bind_done h
  obtain ⟨e, he, h⟩ := bind_done h
  obtain ⟨t0, ha, h⟩ := bind_done h
  obtain ⟨b, hb, h⟩ := bind_done h
  obtain ⟨hcap, rfl⟩ := outAppend_done ha
  exact ⟨k, w, e, b, hk, entryAt_done.mp hw, he, firstByte_done.mp hb, hcap, by simpa using h.symm⟩

theorem decCode_raise {s : State} {x : Err} {pos : Word} (h : decCode s = .raise x pos) :
    ∃ k w, frmDes s s.ip.toNat = .done k ∧ dictEntry s s.prevCode.toNat = some w ∧ pos = s.ip ∧
      (x = .badCode ∧ s.next.toNat < k.toNat ∨
       x = .io ∧ ∃ e, codeEntry s w k = .done e ∧ s.outCapR.toNat < s.op.toNat + e.length) := by
  rcases bind_raise h with h | ⟨k, hk, h⟩
  · exact absurd h frmDes_ne_raise
  rcases bind_raise h with h | ⟨w, hw, h⟩
  · exact absurd h ofOption_ne_raise
  refine ⟨k, w, hk, entryAt_done.mp hw, ?_⟩
  rcases bind_raise h with h | ⟨e, he, h⟩
  · obtain ⟨h1, h2, h3⟩ := codeEntry_raise h
    exact ⟨h2, .inl ⟨h1, h3⟩⟩
  rcases bind_raise h with h | ⟨_, -, h⟩
  · obtain ⟨h1, h2, h3⟩ := outAppend_raise h
    exact ⟨h2, .inr ⟨h1, e, he, h3⟩⟩
  rcases bind_raise h with h | ⟨_, -, h⟩
  · exact absurd h firstByte_ne_raise
  · cases h

theorem decCode_fault {s : State} {x : Fault} (h : decCode s = .fault x) :
    frmDes s s.ip.toNat = .fault x ∨ dictEntry s s.prevCode.toNat = none ∨
    (∃ w k, dictEntry s s.prevCode.toNat = some w ∧
      ((k < s.next.toNat ∧ dictEntry s k = none) ∨ w = [] ∨ dictEntry s k = some [])) := by
  rcases bind_fault h with h | ⟨k, hk, h⟩
  · exact .inl h
  rcases bind_fault h with h | ⟨w, hw, h⟩
  · exact .inr (.inl (ofOption_fault.mp h).1)
  refine .inr (.inr ⟨w, k.toNat, entryAt_done.mp hw, ?_⟩)
  rcases bind_fault h with h | ⟨e, he, h⟩
  · rcases codeEntry_fault h with h | h
    · exact .inl h
    · exact .inr (.inl h)
  rcases bind_fault h with h | ⟨_, -, h⟩
  · exact absurd h outAppend_ne_fault
  rcases bind_fault h with h | ⟨_, -, h⟩
  · have := firstByte_fault h
    subst this
    rcases codeEntry_done he with ⟨-, h⟩ | ⟨-, b, -, h⟩
    · exact .inr (.inr h)
    · simp at h
  · cases h

/-- What DEC.FIRST leaves: all but the datapath and OUT_BUF, with the cursor one on. -/
theorem decFirst_frame {s t : State} (h : decFirst s = .done t) :
    t.status = s.status ∧ t.phase = s.phase ∧ t.nIn = s.nIn ∧ t.ip = s.ip + 1 ∧ t.outLen = s.outLen ∧ t.errPos = s.errPos ∧
    t.dictNext = s.dictNext ∧ t.inLen = s.inLen ∧ t.inBuf = s.inBuf ∧ t.inCapR = s.inCapR ∧ t.outCapR = s.outCapR ∧
    t.host = s.host ∧ t.reads = s.reads ∧ t.resets = s.resets := by
  obtain ⟨k, -, -, -, rfl⟩ := decFirst_done h
  simp

/-- What DEC.CODE leaves: all but the datapath, OUT_BUF and the dictionary, with the cursor one on. -/
theorem decCode_frame {s t : State} (h : decCode s = .done t) :
    t.status = s.status ∧ t.phase = s.phase ∧ t.nIn = s.nIn ∧ t.ip = s.ip + 1 ∧ t.outLen = s.outLen ∧ t.errPos = s.errPos ∧
    t.dictNext = s.dictNext ∧ t.inLen = s.inLen ∧ t.inBuf = s.inBuf ∧ t.inCapR = s.inCapR ∧ t.outCapR = s.outCapR ∧
    t.host = s.host ∧ t.reads = s.reads ∧ t.resets = s.resets := by
  obtain ⟨k, w, e, b, -, -, -, -, -, rfl⟩ := decCode_done h
  simp

end Sys2Proof.Laws
end

