-- ==== Sys2Proof/Laws/Encoder.lean ====
section
/-! SUPPORT. Everything an encoder step can answer (R102, R103). -/

namespace Sys2Proof.Laws

open Sys2Proof.Machine

/-- The three branches of ENC.BYTE, R102. -/
theorem encMatch_done {c : Byte} {s t : State} (h : encMatch c s = .done t) :
    (s.wValid = false ∧ t = { s with wCode := seedCode c, wValid := true }) ∨
    (s.wValid = true ∧ ∃ n, fdLookup s s.wCode c = some n ∧ t = { s with wCode := n }) ∨
    (s.wValid = true ∧ fdLookup s s.wCode c = none ∧ ∃ w, dictEntry s s.wCode.toNat = some w ∧
      s.wCode.toNat < s.next.toNat ∧ s.op.toNat + 2 ≤ s.outCapR.toNat ∧
      t = { insertEntry (w ++ [c]) (putBytes (bytesOfCode s.wCode) s) with wCode := seedCode c }) := by
  unfold encMatch at h
  split at h
  · rename_i hv
    split at h
    · rename_i n hn
      exact .inr (.inl ⟨hv, n, hn, by simpa using h.symm⟩)
    · rename_i hn
      obtain ⟨s1, h1, h⟩ := bind_done h
      obtain ⟨hk, hcap, rfl⟩ := frmSer_done h1
      obtain ⟨w, hw, h⟩ := bind_done h
      exact .inr (.inr ⟨hv, hn, w, entryAt_done.mp hw, hk, hcap, by simpa using h.symm⟩)
  · rename_i hv
    exact .inl ⟨by simpa using hv, by simpa using h.symm⟩

/-- ENC.BYTE raises only IO(ip), at a mismatch that does not fit (R102). -/
theorem encMatch_raise {c : Byte} {s : State} {e : Err} {pos : Word} (h : encMatch c s = .raise e pos) :
    e = .io ∧ pos = s.ip ∧ s.wValid = true ∧ fdLookup s s.wCode c = none ∧ s.outCapR.toNat < s.op.toNat + 2 := by
  unfold encMatch at h
  split at h
  · rename_i hv
    split at h
    · cases h
    · rename_i hn
      rcases bind_raise h with h | ⟨s1, -, h⟩
      · obtain ⟨h1, h2, h3⟩ := frmSer_raise h
        exact ⟨h1, h2, hv, hn, h3⟩
      · rcases bind_raise h with h | ⟨_, -, h⟩
        · exact absurd h ofOption_ne_raise
        · cases h
  · cases h

theorem encMatch_fault {c : Byte} {s : State} {x : Fault} (h : encMatch c s = .fault x) :
    s.wValid = true ∧ dictEntry s s.wCode.toNat = none := by
  unfold encMatch at h
  split at h
  · rename_i hv
    refine ⟨hv, ?_⟩
    split at h
    · cases h
    · rcases bind_fault h with h | ⟨s1, h1, h⟩
      · have := frmSer_fault h
        simp [dictEntry, Nat.not_lt.mpr this]
      · obtain ⟨-, -, rfl⟩ := frmSer_done h1
        rcases bind_fault h with h | ⟨_, -, h⟩
        · exact (ofOption_fault.mp h).1
        · cases h
  · cases h

theorem encByte_done {s t : State} (h : encByte s = .done t) :
    ∃ c t0, s.inBuf.read s.ip.toNat = some c ∧ encMatch c s = .done t0 ∧ t = { t0 with ip := t0.ip + 1 } := by
  obtain ⟨c, h1, h⟩ := bind_done h
  obtain ⟨t0, h2, h⟩ := bind_done h
  exact ⟨c, t0, memReadIn_done.mp h1, h2, by simpa using h.symm⟩

theorem encByte_raise {s : State} {e : Err} {pos : Word} (h : encByte s = .raise e pos) :
    ∃ c, s.inBuf.read s.ip.toNat = some c ∧ encMatch c s = .raise e pos := by
  rcases bind_raise h with h | ⟨c, h1, h⟩
  · exact absurd h ofOption_ne_raise
  · rcases bind_raise h with h | ⟨_, -, h⟩
    · exact ⟨c, memReadIn_done.mp h1, h⟩
    · cases h

theorem encByte_fault {s : State} {x : Fault} (h : encByte s = .fault x) :
    s.inBuf.read s.ip.toNat = none ∨ s.wValid = true ∧ dictEntry s s.wCode.toNat = none := by
  rcases bind_fault h with h | ⟨c, h1, h⟩
  · exact .inl (ofOption_fault.mp h).1
  · rcases bind_fault h with h | ⟨_, -, h⟩
    · exact .inr (encMatch_fault h)
    · cases h

/-- What ENC.BYTE leaves: all but the datapath, OUT_BUF and the dictionary, with the cursor one on. -/
theorem encByte_frame {s t : State} (h : encByte s = .done t) :
    t.status = s.status ∧ t.phase = s.phase ∧ t.nIn = s.nIn ∧ t.ip = s.ip + 1 ∧ t.outLen = s.outLen ∧ t.errPos = s.errPos ∧
    t.dictNext = s.dictNext ∧ t.inLen = s.inLen ∧ t.inBuf = s.inBuf ∧ t.inCapR = s.inCapR ∧ t.outCapR = s.outCapR ∧
    t.host = s.host ∧ t.reads = s.reads ∧ t.resets = s.resets := by
  obtain ⟨c, t0, -, h0, rfl⟩ := encByte_done h
  rcases encMatch_done h0 with ⟨-, rfl⟩ | ⟨-, n, -, rfl⟩ | ⟨-, -, w, -, -, -, rfl⟩ <;> simp

/-- ENC.FLUSH, R103. -/
theorem encFlush_done {s t : State} (h : encFlush s = .done t) :
    (s.wValid = true ∧ s.wCode.toNat < s.next.toNat ∧ s.op.toNat + 2 ≤ s.outCapR.toNat ∧
      t = commit .ok 0 (putBytes (bytesOfCode s.wCode) s)) ∨
    (s.wValid = false ∧ t = commit .ok 0 s) := by
  obtain ⟨s1, h1, h⟩ := bind_done h
  split at h1
  · rename_i hv
    obtain ⟨hk, hcap, rfl⟩ := frmSer_done h1
    exact .inl ⟨hv, hk, hcap, by simpa using h.symm⟩
  · rename_i hv
    cases h1
    exact .inr ⟨by simpa using hv, by simpa using h.symm⟩

theorem encFlush_raise {s : State} {e : Err} {pos : Word} (h : encFlush s = .raise e pos) :
    e = .io ∧ pos = s.ip ∧ s.wValid = true ∧ s.outCapR.toNat < s.op.toNat + 2 := by
  rcases bind_raise h with h | ⟨_, -, h⟩
  · split at h
    · rename_i hv
      obtain ⟨h1, h2, h3⟩ := frmSer_raise h
      exact ⟨h1, h2, hv, h3⟩
    · cases h
  · cases h

theorem encFlush_fault {s : State} {x : Fault} (h : encFlush s = .fault x) :
    s.wValid = true ∧ s.next.toNat ≤ s.wCode.toNat := by
  rcases bind_fault h with h | ⟨_, -, h⟩
  · split at h
    · exact ⟨‹_›, frmSer_fault h⟩
    · cases h
  · cases h

end Sys2Proof.Laws
end

