-- ==== Sys2Proof/Laws/PerInstr.lean ====
section
/-! SUPPORT. What holds of every command as syntax, one lemma per constructor. -/

namespace Sys2Proof.Laws.Encoding

/-- A command is well formed and its word, a legal one, decodes to it (R80 to R82). -/
def Statement (i : Instr) : Prop :=
  i.wellFormed = true ∧ decode (encode i) = .ok i ∧ CmdWord.rsv (encode i) = 0 ∧ CmdWord.op (encode i) = i.op

theorem compress : Statement .compress := by
  refine ⟨rfl, ?_, ?_, ?_⟩ <;> decide

theorem decompress : Statement .decompress := by
  refine ⟨rfl, ?_, ?_, ?_⟩ <;> decide

end Sys2Proof.Laws.Encoding
end

