-- ==== Sys2Proof/Laws/Step.lean ====
section
/-! SUPPORT. Everything a step can do: one inversion lemma per layer (move, host access, CMD write, block step). -/

namespace Sys2Proof.Laws

open Sys2Proof.Machine

@[simp] theorem takeAction_busy (a : HostAction) (rest : List HostAction) (s : State) :
    (takeAction a rest s).busy = s.busy := rfl

@[simp] theorem blockTurn_busy (s : State) : (blockTurn s).busy = s.busy := rfl

theorem takeAction_draws (a : HostAction) (rest : List HostAction) (s : State) :
    (takeAction a rest s).draws = if freshDraw a.op s then s.draws + 1 else s.draws := rfl

/-- A read draws a fresh number exactly while BUSY (R66, R72). -/
theorem freshDraw_of_isRead {op : HostOp} {s : State} (h : op.isRead = true) : freshDraw op s = s.busy := by
  cases op <;> first | rfl | cases h

/-- Everything a command's step 0 can answer when it is not refused: acceptance, or an error of acceptance (R181, R183, R184, R186). -/
theorem exec_next {i : Instr} {s t : State} (h : exec i s = .next t) :
    s.busy = false ∧
    ((i = .compress ∧ s.inLen.toNat ≤ s.inCapR.toNat ∧ t = encInit (accept s)) ∨
     (i = .compress ∧ s.inCapR.toNat < s.inLen.toNat ∧ t = commit .io s.inCapR (encInit (accept s))) ∨
     (i = .decompress ∧ s.inLen.toNat ≤ s.inCapR.toNat ∧ s.inLen.toNat % 2 = 0 ∧ t = decInit (accept s)) ∨
     (i = .decompress ∧ s.inCapR.toNat < s.inLen.toNat ∧ t = commit .io s.inCapR (decInit (accept s))) ∨
     (i = .decompress ∧ s.inLen.toNat ≤ s.inCapR.toNat ∧ s.inLen.toNat % 2 = 1 ∧
       t = commit .framing (s.inLen - 1) (decInit (accept s)))) := by
  cases i
  · simp only [exec, execCompress, whenIdle] at h
    split_ifs at h with hb
    refine ⟨by simpa using hb, ?_⟩
    unfold capacityCheck at h
    split_ifs at h with hc <;> simp [finish] at h hc <;> subst h <;> simp [hc]
  · simp only [exec, execDecompress, whenIdle] at h
    split_ifs at h with hb
    refine ⟨by simpa using hb, ?_⟩
    unfold capacityCheck at h
    split_ifs at h with hc
    · simp [finish] at h hc
      subst h
      simp [hc]
    · simp only [done_bind, frmCheck] at h
      split_ifs at h with ho <;> simp [finish] at h hc ho <;> subst h <;> simp [hc, ho]

/-- Everything a CMD write can answer when it is not refused, R180. -/
theorem hostCmdWrite_next {v : Word} {s t : State} (h : hostCmdWrite v s = .next t) :
    s.busy = false ∧ (t = { s with status := statusEnded .illegalCmd } ∨ ∃ i, exec i s = .next t) := by
  unfold hostCmdWrite at h
  split at h
  · exact ⟨(exec_next h).1, .inr ⟨_, h⟩⟩
  · simp only [illegalCmd, whenIdle] at h
    split_ifs at h with hb
    exact ⟨by simpa using hb, .inl (by simpa using h.symm)⟩

/-- Everything a host action can do when it is not refused (R21 to R32, R63, R64, R180, R230). -/
theorem hostAccess_next {op : HostOp} {s t : State} (h : hostAccess op s = .next t) :
    (∃ v, op = .regWrite 32 0 v ∧ hostCmdWrite v s = .next t) ∨
    (∃ v, op = .regWrite 32 8 v ∧ s.busy = false ∧ t = { s with inLen := v }) ∨
    (∃ off v, op = .regWrite 32 off v ∧ t = s) ∨
    (∃ r, op.isRead = true ∧ t = logRead r s) ∨
    (∃ i v, op = .inWrite 8 i v ∧ s.busy = false ∧ i < s.inCapR.toNat ∧ t = { s with inBuf := s.inBuf.write i v }) ∨
    (op = .poll ∧ t = hostPoll s) ∨
    (op = .reset ∧ t = hostReset s) := by
  cases op with
  | regWrite bits off v =>
    simp only [hostAccess, regAccess, hostRegWrite] at h
    split_ifs at h with h1 h2 h3 h4 h5
    · obtain rfl : bits = 32 := by simpa using h1
      subst h3
      exact .inl ⟨v, rfl, h⟩
    · obtain rfl : bits = 32 := by simpa using h1
      subst h4
      exact .inr (.inl ⟨v, rfl, by simpa using h5, by simpa using h.symm⟩)
    · obtain rfl : bits = 32 := by simpa using h1
      exact .inr (.inr (.inl ⟨off, v, rfl, by simpa using h.symm⟩))
  | regRead bits off =>
    simp only [hostAccess, regAccess] at h
    split_ifs at h
    exact .inr (.inr (.inr (.inl ⟨_, rfl, by simpa using h.symm⟩)))
  | inWrite bits idx v =>
    simp only [hostAccess, bufAccess, hostInWrite] at h
    split_ifs at h with h1 h2 h3
    obtain rfl : bits = 8 := by simpa using h1
    exact .inr (.inr (.inr (.inr (.inl ⟨idx, v, rfl, by simpa using h3, by omega, by simpa using h.symm⟩))))
  | inRead bits idx =>
    simp only [hostAccess, bufAccess] at h
    split_ifs at h
    exact .inr (.inr (.inr (.inl ⟨_, rfl, by simpa using h.symm⟩)))
  | outWrite bits idx v => simp [hostAccess] at h
  | outRead bits idx =>
    simp only [hostAccess, bufAccess] at h
    split_ifs at h
    exact .inr (.inr (.inr (.inl ⟨_, rfl, by simpa using h.symm⟩)))
  | poll =>
    exact .inr (.inr (.inr (.inr (.inr (.inl ⟨rfl, by simpa [hostAccess] using h.symm⟩)))))
  | reset =>
    exact .inr (.inr (.inr (.inr (.inr (.inr ⟨rfl, by simpa [hostAccess] using h.symm⟩)))))

/-- Everything the block's step can answer: one enabled operation, done or raised (R207). -/
theorem blockStep_next {s t : State} (h : blockStep s = .next t) :
    (s.phase = .enc ∧ s.ip.toNat < s.nIn.toNat ∧ finish s (encByte s) = .next t) ∨
    (s.phase = .enc ∧ s.ip.toNat = s.nIn.toNat ∧ finish s (encFlush s) = .next t) ∨
    (s.phase = .dec ∧ s.ip.toNat < codeCount s ∧ s.firstPending = true ∧ finish s (decFirst s) = .next t) ∨
    (s.phase = .dec ∧ s.ip.toNat < codeCount s ∧ s.firstPending = false ∧ finish s (decCode s) = .next t) ∨
    (s.phase = .dec ∧ s.ip.toNat = codeCount s ∧ t = commit .ok 0 s) := by
  unfold blockStep at h
  split at h
  · cases h
  · rename_i hp
    split_ifs at h with h1 h2
    · exact .inl ⟨hp, h1, h⟩
    · exact .inr (.inl ⟨hp, h2, h⟩)
  · rename_i hp
    split_ifs at h with h1 h2 h3
    · exact .inr (.inr (.inl ⟨hp, h1, by simpa using h2, h⟩))
    · exact .inr (.inr (.inr (.inl ⟨hp, h1, by simpa using h2, h⟩)))
    · exact .inr (.inr (.inr (.inr ⟨hp, h3, by simpa [finish, decEnd] using h.symm⟩)))

/-- Everything the block's step can come to: an item done, the command ended OK, or the command ended by IO or BAD_CODE (R184, R186). -/
theorem blockStep_cases {s t : State} (h : blockStep s = .next t) :
    (s.phase = .enc ∧ s.ip.toNat < s.nIn.toNat ∧ encByte s = .done t) ∨
    (s.phase = .dec ∧ s.ip.toNat < codeCount s ∧ s.firstPending = true ∧ decFirst s = .done t) ∨
    (s.phase = .dec ∧ s.ip.toNat < codeCount s ∧ s.firstPending = false ∧ decCode s = .done t) ∨
    (s.phase = .enc ∧ s.ip.toNat = s.nIn.toNat ∧ encFlush s = .done t) ∨
    (s.phase = .dec ∧ s.ip.toNat = codeCount s ∧ t = commit .ok 0 s) ∨
    (∃ e pos, (e = .io ∨ e = .badCode) ∧ t = commit e pos s) := by
  rcases blockStep_next h with ⟨a, b, h⟩ | ⟨a, b, h⟩ | ⟨a, b, c, h⟩ | ⟨a, b, c, h⟩ | ⟨a, b, h⟩
  · rcases finish_next h with h | ⟨e, pos, hr, rfl⟩
    · exact .inl ⟨a, b, h⟩
    · obtain ⟨c, -, hr⟩ := encByte_raise hr
      exact .inr (.inr (.inr (.inr (.inr ⟨e, pos, .inl (encMatch_raise hr).1, rfl⟩))))
  · rcases finish_next h with h | ⟨e, pos, hr, rfl⟩
    · exact .inr (.inr (.inr (.inl ⟨a, b, h⟩)))
    · exact .inr (.inr (.inr (.inr (.inr ⟨e, pos, .inl (encFlush_raise hr).1, rfl⟩))))
  · rcases finish_next h with h | ⟨e, pos, hr, rfl⟩
    · exact .inr (.inl ⟨a, b, c, h⟩)
    · obtain ⟨k, -, -, hr⟩ := decFirst_raise hr
      exact .inr (.inr (.inr (.inr (.inr ⟨e, pos, by tauto, rfl⟩))))
  · rcases finish_next h with h | ⟨e, pos, hr, rfl⟩
    · exact .inr (.inr (.inl ⟨a, b, c, h⟩))
    · obtain ⟨k, w, -, -, -, hr⟩ := decCode_raise hr
      exact .inr (.inr (.inr (.inr (.inr ⟨e, pos, by tauto, rfl⟩))))
  · exact .inr (.inr (.inr (.inr (.inl ⟨a, b, h⟩))))

/-- Everything a step can do: nothing, one host action, or one block step (R67). -/
theorem step_next {s t : State} (h : step s = .next t) :
    (s.host = [] ∧ s.phase = .idle ∧ t = s) ∨
    (∃ a rest, s.host = a :: rest ∧ hostDue s a = true ∧ hostAccess a.op (takeAction a rest s) = .next t) ∨
    (s.phase ≠ .idle ∧ (∀ a ∈ s.host.head?, a.wait ≠ 0) ∧ blockStep (blockTurn s) = .next t) := by
  unfold step move at h
  split at h
  · rename_i a rest hh
    split_ifs at h with hd
    · exact .inr (.inl ⟨a, rest, hh, hd, h⟩)
    · have hn : ¬(s.phase = .idle) ∧ ¬(a.wait = 0) := by simpa [hostDue] using hd
      exact .inr (.inr ⟨hn.1, by simpa [hh] using hn.2, h⟩)
  · rename_i hh
    split_ifs at h with hi
    · exact .inl ⟨hh, hi, by simpa using h.symm⟩
    · exact .inr (.inr ⟨hi, by simp [hh], h⟩)

/-- The host's due action is the step. -/
theorem step_of_hostDue {s : State} {a : HostAction} {rest : List HostAction} (hh : s.host = a :: rest)
    (hd : hostDue s a = true) : step s = hostAccess a.op (takeAction a rest s) := by
  simp only [step, move, hh, hd, if_true]

/-- The block's turn is the step. -/
theorem step_of_blockMoves {s : State} (hp : s.phase ≠ .idle) (hw : ∀ a ∈ s.host.head?, a.wait ≠ 0) :
    step s = blockStep (blockTurn s) := by
  unfold step move
  split
  · rename_i a rest hh
    have hw : a.wait ≠ 0 := by simpa [hh] using hw
    rw [if_neg (by simp [hostDue, hp, hw])]
  · simp [hp]

/-- POLL changes only the host's queue and log, R90. -/
theorem hostPoll_frame (s : State) :
    ∃ h, hostPoll s = { s with host := h, reads := s.reads ++ [.reg 0x04 s.status] } := by
  unfold hostPoll
  split
  · exact ⟨_, rfl⟩
  · exact ⟨s.host, rfl⟩

/-- Everything a step can come to, by what changes: nothing; one host action on the state in which it is taken; or the block's step. -/
theorem step_cases {s t : State} (h : step s = .next t) :
    (s.host = [] ∧ s.phase = .idle ∧ t = s) ∨
    (∃ a rest s1, s.host = a :: rest ∧ hostDue s a = true ∧ s1 = takeAction a rest s ∧
      ((s.busy = false ∧ t = { s1 with status := statusEnded .illegalCmd }) ∨
       (∃ i, exec i s1 = .next t) ∨
       (∃ v, a.op = .regWrite 32 8 v ∧ s.busy = false ∧ t = { s1 with inLen := v }) ∨
       t = s1 ∨
       (∃ r, t = logRead r s1) ∨
       (∃ i v, a.op = .inWrite 8 i v ∧ s.busy = false ∧ i < s.inCapR.toNat ∧ t = { s1 with inBuf := s1.inBuf.write i v }) ∨
       t = hostPoll s1 ∨
       (a.op = .reset ∧ t = hostReset s1))) ∨
    (s.phase ≠ .idle ∧ (∀ a ∈ s.host.head?, a.wait ≠ 0) ∧ blockStep (blockTurn s) = .next t) := by
  rcases step_next h with h | ⟨a, rest, h1, h2, h⟩ | h
  · exact .inl h
  · refine .inr (.inl ⟨a, rest, _, h1, h2, rfl, ?_⟩)
    rcases hostAccess_next h with ⟨v, -, h⟩ | ⟨v, h0, hb, rfl⟩ | ⟨_, _, _, rfl⟩ | ⟨r, _, rfl⟩ | ⟨i, v, h0, hb, hi, rfl⟩ |
      ⟨-, rfl⟩ | ⟨h0, rfl⟩
    · obtain ⟨hb, rfl | ⟨i, h⟩⟩ := hostCmdWrite_next h
      · exact .inl ⟨hb, rfl⟩
      · exact .inr (.inl ⟨i, h⟩)
    · exact .inr (.inr (.inl ⟨v, h0, hb, rfl⟩))
    · exact .inr (.inr (.inr (.inl rfl)))
    · exact .inr (.inr (.inr (.inr (.inl ⟨r, rfl⟩))))
    · exact .inr (.inr (.inr (.inr (.inr (.inl ⟨i, v, h0, hb, hi, rfl⟩)))))
    · exact .inr (.inr (.inr (.inr (.inr (.inr (.inl rfl))))))
    · exact .inr (.inr (.inr (.inr (.inr (.inr (.inr ⟨h0, rfl⟩))))))
  · exact .inr (.inr h)

/-- A command's step 0 never faults: it answers or is refused (R180). -/
theorem exec_ne_fault (i : Instr) (s : State) (f : Fault) : exec i s ≠ .fault f := by
  intro h
  cases i
  · simp only [exec, execCompress, whenIdle, capacityCheck] at h
    split_ifs at h <;> cases h
  · simp only [exec, execDecompress, whenIdle, capacityCheck] at h
    split_ifs at h
    · simp only [raise_bind] at h
      cases h
    · simp only [done_bind, frmCheck] at h
      split_ifs at h <;> cases h

end Sys2Proof.Laws
end

