-- ==== Sys2Proof/Laws/Safety.lean ====
section
/-! SUPPORT. The small lemmas of the terms statements use: runs, the bytes a write leaves, STATUS, and the reference functions one item
at a time. -/

namespace Sys2Proof.Laws

open Sys2Proof.Machine

/-! ### Runs -/

theorem runSteps_succ {s t : State} (k : Nat) (h : step s = .next t) : runSteps (k + 1) s = runSteps k t := by
  simp only [runSteps, h]

theorem runSteps_add {s t : State} (j k : Nat) (h : runSteps j s = .next t) : runSteps (j + k) s = runSteps k t := by
  induction j generalizing s with
  | zero =>
    obtain rfl : s = t := by simpa [runSteps] using h
    simp
  | succ j ih =>
    rw [Nat.add_right_comm]
    rcases hs : step s with u | f | r <;> simp only [runSteps, hs] at h ⊢
    · exact ih h
    · cases h
    · cases h

/-! ### STATUS -/

/-- BUSY exactly while a command runs. -/
theorem busy_iff_of_statusForms {s : State} (hs : StatusForms s) : s.busy = true ↔ s.phase ≠ .idle := by
  unfold StatusForms at hs
  split at hs <;> rename_i hp
  · simp only [List.mem_cons, List.not_mem_nil, or_false] at hs
    rcases hs with h | h | h | h | h | h <;> simp [State.busy, h, hp]
  · simp [State.busy, hs, hp]

/-! ### Writing OUT_BUF -/

theorem writesOut_putBytes (s : State) (bs : List Byte) : WritesOut s (putBytes bs s) s.op.toNat bs := by
  intro j
  simp only [putBytes_outBuf, read_writeBytes]

/-- The bytes held from index 0 on, with the bytes written at the cursor behind them. -/
theorem holdsOutput_append {s t : State} {y bs : List Byte} (h : HoldsOutput s y) (hl : s.op.toNat = y.length)
    (hw : WritesOut s t s.op.toNat bs) : HoldsOutput t (y ++ bs) := by
  intro i hi
  rw [List.length_append] at hi
  rw [hw i]
  by_cases hlt : i < y.length
  · rw [if_neg (by omega), List.getElem?_append_left hlt]; exact h i hlt
  · rw [if_pos (by omega), List.getElem?_append_right (by omega), hl]

/-! ### The reference functions, one item at a time -/

theorem frame_append (cs : List Code) (k : Code) : frame (cs ++ [k]) = frame cs ++ bytesOfCode k := by simp [frame]

theorem encodeLoop_append (x : List Byte) (c : Byte) : encodeLoop (x ++ [c]) = encodeByte (encodeLoop x) c := by
  simp [encodeLoop]

theorem decodeVarsFrom_append (v : DecodeVars) (cs : List Code) (k : Code) :
    decodeVarsFrom v (cs ++ [k]) =
      (decodeVarsFrom v cs).bind fun u => (decodeEntry u k).map fun entry => decodeNext u entry := by
  induction cs generalizing v with
  | nil => cases h : decodeEntry v k <;> simp [decodeVarsFrom, h]
  | cons c cs ih =>
    simp only [List.cons_append, decodeVarsFrom]
    cases decodeEntry v c with
    | none => rfl
    | some entry => exact ih _

/-- Where every code is known, `decode` answers what its variables hold (R130). -/
theorem decodeLoop_of_vars {v u : DecodeVars} {cs : List Code} (i : Nat) (h : decodeVarsFrom v cs = some u) :
    decodeLoop v i cs = .ok u.out := by
  induction cs generalizing v i with
  | nil =>
    obtain rfl : v = u := by simpa [decodeVarsFrom] using h
    rfl
  | cons c cs ih =>
    obtain ⟨entry, he, h⟩ := Option.bind_eq_some_iff.mp h
    simp only [decodeLoop, he]
    exact ih _ h

end Sys2Proof.Laws
end

