-- ==== Sys2Proof/Laws/Runs.lean ====
section
/-! SUPPORT. Runs of a command with the host's reads and POLLs between its steps (R67, R72): such a run does to the block what the
block's own steps do alone (`endsAfter_of_blockRun`, `blockRun_of_runSteps`). -/

namespace Sys2Proof.Laws

open Sys2Proof.Machine

/-! ### What the block does not see -/

/-- `s` with another host: another queue, another log, other free values. -/
def withHost (h : List HostAction) (r : List BusRead) (d : Nat) (s : State) : State := { s with host := h, reads := r, draws := d }

/-- The two states are the same block, whatever the host did. -/
def SameBlock (s t : State) : Prop := t = withHost t.host t.reads t.draws s

variable {h : List HostAction} {r : List BusRead} {d : Nat} {s t u : State}

theorem sameBlock_withHost (h : List HostAction) (r : List BusRead) (d : Nat) (s : State) : SameBlock s (withHost h r d s) := rfl

theorem SameBlock.trans (hs : SameBlock s t) (ht : SameBlock t u) : SameBlock s u := by
  unfold SameBlock at *
  rw [ht, hs]
  rfl

theorem SameBlock.symm (hs : SameBlock s t) : SameBlock t s := by
  unfold SameBlock at *
  rw [hs]
  rfl

/-- What two states of one block have in common. -/
theorem SameBlock.eqs (hs : SameBlock s t) :
    t.status = s.status ∧ t.phase = s.phase ∧ t.inLen = s.inLen ∧ t.outLen = s.outLen ∧ t.errPos = s.errPos ∧
    t.dictNext = s.dictNext ∧ t.inCapR = s.inCapR ∧ t.outCapR = s.outCapR ∧ t.inBuf = s.inBuf ∧ t.outBuf = s.outBuf := by
  rw [hs]
  exact ⟨rfl, rfl, rfl, rfl, rfl, rfl, rfl, rfl, rfl, rfl⟩

/-- An operation that neither sees nor changes the host. -/
def HostBlind (f : State → StepResult State) : Prop :=
  ∀ h r d s, f (withHost h r d s) = (f s).bind fun t => .done (withHost h r d t)

/-- A read that the host does not touch, before an operation that is blind to the host. -/
theorem bind_blind {α : Type} (x : StepResult α) {f g : α → StepResult State}
    (hfg : ∀ a, f a = (g a).bind fun t => .done (withHost h r d t)) :
    x.bind f = (x.bind g).bind fun t => .done (withHost h r d t) := by
  cases x
  · exact hfg _
  · rfl
  · rfl

/-- An operation that is blind to the host, before another. -/
theorem HostBlind.bind {f : State → StepResult State} (hf : HostBlind f) {g g' : State → StepResult State}
    (hg : ∀ t, g' (withHost h r d t) = (g t).bind fun t => .done (withHost h r d t)) :
    (f (withHost h r d s)).bind g' = ((f s).bind g).bind fun t => .done (withHost h r d t) := by
  rw [hf]
  cases f s
  · exact hg _
  · rfl
  · rfl

theorem insertEntry_withHost (e : Entry) : insertEntry e (withHost h r d s) = withHost h r d (insertEntry e s) := by
  rw [insertEntry, insertEntry, apply_ite (withHost h r d)]
  rfl

theorem frmSer_hostBlind (k : Code) : HostBlind (frmSer k) := by
  intro h r d s
  rw [frmSer, frmSer, apply_ite (StepResult.bind · _), apply_ite (StepResult.bind · _)]
  rfl

theorem outAppend_hostBlind (e : Entry) : HostBlind (outAppend e) := by
  intro h r d s
  rw [outAppend, outAppend, apply_ite (StepResult.bind · _)]
  rfl

theorem encMismatch_hostBlind (c : Byte) : HostBlind (encMismatch c) := fun _ _ _ s =>
  (frmSer_hostBlind s.wCode).bind fun t => bind_blind (entryAt t t.wCode) fun w => by rw [insertEntry_withHost]; rfl

theorem encMatch_hostBlind (c : Byte) : HostBlind (encMatch c) := by
  intro h r d s
  rw [encMatch, encMatch, apply_ite (StepResult.bind · _),
    show fdLookup (withHost h r d s) (withHost h r d s).wCode c = fdLookup s s.wCode c from rfl]
  cases fdLookup s s.wCode c with
  | some n => rfl
  | none => simp only [encMismatch_hostBlind c h r d s]; rfl

theorem encByte_hostBlind : HostBlind encByte := fun _ _ _ s =>
  bind_blind (memReadIn s s.ip.toNat) fun c => (encMatch_hostBlind c).bind fun _ => rfl

theorem encFlush_hostBlind : HostBlind encFlush := by
  intro h r d s
  refine HostBlind.bind (f := fun s => if s.wValid then frmSer s.wCode s else .done s) (fun h r d s => ?_) fun _ => rfl
  rw [apply_ite (StepResult.bind · _), ← frmSer_hostBlind s.wCode h r d s]
  rfl

theorem decFirst_hostBlind : HostBlind decFirst := fun _ _ _ s =>
  bind_blind (frmDes s s.ip.toNat) fun k => by
    by_cases hk : 256 ≤ k.toNat
    · simp only [hk, if_true]; rfl
    · simp only [hk, if_false]; exact (outAppend_hostBlind _).bind fun _ => rfl

theorem decCode_hostBlind : HostBlind decCode := fun _ _ _ s =>
  bind_blind (frmDes s s.ip.toNat) fun k => bind_blind (entryAt s s.prevCode) fun w => bind_blind (codeEntry s w k) fun e =>
    (outAppend_hostBlind e).bind fun t => bind_blind (firstByte e) fun b => by rw [insertEntry_withHost]; rfl

/-- The block's step neither sees nor changes the host. -/
theorem blockStep_withHost (hb : blockStep s = .next t) : blockStep (withHost h r d s) = .next (withHost h r d t) := by
  have hf : ∀ {f : State → StepResult State}, HostBlind f → finish s (f s) = .next t →
      finish (withHost h r d s) (f (withHost h r d s)) = .next (withHost h r d t) := by
    intro f hblind hfin
    rw [hblind]
    rcases finish_next hfin with hd | ⟨e, pos, hr, rfl⟩
    · rw [hd]; rfl
    · rw [hr]; rfl
  rcases blockStep_next hb with ⟨hp, hi, hs⟩ | ⟨hp, hi, hs⟩ | ⟨hp, hi, hfp, hs⟩ | ⟨hp, hi, hfp, hs⟩ | ⟨hp, hi, rfl⟩ <;>
    simp only [blockStep, show (withHost h r d s).phase = s.phase from rfl, show (withHost h r d s).ip = s.ip from rfl,
      show (withHost h r d s).nIn = s.nIn from rfl, show codeCount (withHost h r d s) = codeCount s from rfl,
      show (withHost h r d s).firstPending = s.firstPending from rfl, hp]
  · rw [if_pos hi]; exact hf encByte_hostBlind hs
  · rw [if_neg (by omega), if_pos hi]; exact hf encFlush_hostBlind hs
  · rw [if_pos hi, hfp, if_pos rfl]; exact hf decFirst_hostBlind hs
  · rw [if_pos hi, hfp, if_neg (by simp)]; exact hf decCode_hostBlind hs
  · rw [if_neg (by omega), if_pos hi]; rfl

/-! ### The host's reads between two block steps -/

/-- A due well-formed read or POLL: the block stays, the read is logged, and only a POLL that finds BUSY = 1 stays pending, behind one
block step. -/
theorem step_of_dueRead {a : HostAction} {rest : List HostAction} (hh : s.host = a :: rest) (hd : hostDue s a = true)
    (hr : a.op.isRead = true) (hwf : a.op.wellFormed s.inCapR.toNat s.outCapR.toNat = true) :
    ∃ q v d, step s = .next (withHost q (s.reads ++ [v]) d s) ∧
      (q = rest ∨ a.op = .poll ∧ s.busy = true ∧ q = ⟨1, .poll⟩ :: rest) := by
  rw [step_of_hostDue hh hd]
  have hlog : ∀ v, ∃ q v' d,
      (.next (logRead v (takeAction a rest s)) : Host.Outcome State Fault Refusal) = .next (withHost q (s.reads ++ [v']) d s) ∧
      (q = rest ∨ a.op = .poll ∧ s.busy = true ∧ q = ⟨1, .poll⟩ :: rest) :=
    fun v => ⟨rest, v, _, rfl, .inl rfl⟩
  cases hop : a.op with
  | regRead bits off =>
    obtain ⟨rfl, h4⟩ : bits = 32 ∧ off % 4 = 0 := by simpa [hop, HostOp.wellFormed] using hwf
    simpa [hop, hostAccess, regAccess, h4] using hlog _
  | inRead bits i =>
    obtain ⟨rfl, hi⟩ : bits = 8 ∧ i < s.inCapR.toNat := by simpa [hop, HostOp.wellFormed] using hwf
    simpa [hop, hostAccess, bufAccess, Nat.not_le.mpr hi] using hlog _
  | outRead bits i =>
    obtain ⟨rfl, hi⟩ : bits = 8 ∧ i < s.outCapR.toNat := by simpa [hop, HostOp.wellFormed] using hwf
    simpa [hop, hostAccess, bufAccess, Nat.not_le.mpr hi] using hlog _
  | poll =>
    cases hb : s.busy with
    | false => exact ⟨rest, _, _, by simp only [hostAccess, hostPoll, takeAction_busy, hb]; rfl, .inl rfl⟩
    | true => exact ⟨_, _, _, by simp only [hostAccess, hostPoll, takeAction_busy, hb]; rfl, .inr ⟨rfl, rfl, rfl⟩⟩
  | regWrite => simp [hop, HostOp.isRead] at hr
  | inWrite => simp [hop, HostOp.isRead] at hr
  | outWrite => simp [hop, HostOp.isRead] at hr
  | reset => simp [hop, HostOp.isRead] at hr

/-- From `s` the machine comes to `u`, in `n` block steps and any number of host steps, and until then the phase stays. -/
def RunsTo (s : State) (n : Nat) (u : State) : Prop :=
  ∃ k, runSteps k s = .next u ∧ blockSteps k s = n ∧ ∀ j < k, ∃ v, runSteps j s = .next v ∧ v.phase = s.phase

theorem RunsTo.refl (s : State) : RunsTo s 0 s := ⟨0, rfl, rfl, fun _ hj => absurd hj (Nat.not_lt_zero _)⟩

theorem RunsTo.head {n : Nat} (hs : step s = .next t) (hp : t.phase = s.phase) (ht : RunsTo t n u) :
    RunsTo s ((if BlockMoves s then 1 else 0) + n) u := by
  obtain ⟨k, hk, hn, hv⟩ := ht
  refine ⟨k + 1, by rw [runSteps_succ k hs, hk], by simp only [blockSteps, hs, hn], fun j hj => ?_⟩
  cases j with
  | zero => exact ⟨s, rfl, rfl⟩
  | succ j =>
    obtain ⟨v, h1, h2⟩ := hv j (by omega)
    exact ⟨v, by rw [runSteps_succ j hs, h1], h2.trans hp⟩

/-- The last step of a run may change the phase. -/
theorem RunsTo.one (hs : step s = .next t) : RunsTo s (if BlockMoves s then 1 else 0) t :=
  ⟨1, by simp only [runSteps, hs], by simp only [blockSteps, hs, Nat.add_zero], fun j hj => by
    obtain rfl : j = 0 := by omega
    exact ⟨s, rfl, rfl⟩⟩

/-- `n` steps of the block with no host beside it. -/
def blockRun : Nat → State → Host.Outcome State Fault Refusal
  | 0, s => .next s
  | n + 1, s =>
    match blockStep s with
    | .next t => blockRun n t
    | .fault f => .fault f
    | .refused q => .refused q

theorem blockRun_succ {n : Nat} (hs : blockRun (n + 1) s = .next t) : ∃ u, blockStep s = .next u ∧ blockRun n u = .next t := by
  cases hb : blockStep s <;> simp only [blockRun, hb] at hs
  · exact ⟨_, rfl, hs⟩
  all_goals cases hs

theorem blockRun_withHost {n : Nat} (hs : blockRun n s = .next t) : blockRun n (withHost h r d s) = .next (withHost h r d t) := by
  induction n generalizing s with
  | zero => cases hs; rfl
  | succ n ih =>
    obtain ⟨u, h1, h2⟩ := blockRun_succ hs
    simp only [blockRun, blockStep_withHost h1, ih h2]

/-- A block step ends the command or keeps STATUS and the phase; it keeps the capacities and the host. -/
theorem blockStep_frame (hs : blockStep s = .next t) :
    (t.phase = .idle ∨ t.phase = s.phase ∧ t.status = s.status) ∧ t.inLen = s.inLen ∧ t.inBuf = s.inBuf ∧ t.inCapR = s.inCapR ∧
    t.outCapR = s.outCapR ∧ t.host = s.host ∧ t.reads = s.reads := by
  rcases blockStep_cases hs with ⟨-, -, h⟩ | ⟨-, -, -, h⟩ | ⟨-, -, -, h⟩ | ⟨-, -, h⟩ | ⟨-, -, rfl⟩ | ⟨e, pos, -, rfl⟩
  · have := encByte_frame h; tauto
  · have := decFirst_frame h; tauto
  · have := decCode_frame h; tauto
  · rcases encFlush_done h with ⟨-, -, -, rfl⟩ | ⟨-, rfl⟩ <;> simp
  · simp
  · simp

/-- On the way from `s` to `u` the host only read, and with nothing pending it did nothing. -/
def HostReadOn (s u : State) : Prop :=
  HostOnlyReads u ∧ ∃ rs, u.reads = s.reads ++ rs ∧ (s.host = [] → rs = [] ∧ u.host = [])

theorem HostReadOn.refl (hr : HostOnlyReads s) : HostReadOn s s := ⟨hr, [], by simp, by simp⟩

theorem HostReadOn.trans (hs : HostReadOn s t) (ht : HostReadOn t u) : HostReadOn s u := by
  obtain ⟨-, r1, h1, e1⟩ := hs
  obtain ⟨hr, r2, h2, e2⟩ := ht
  refine ⟨hr, r1 ++ r2, by rw [h2, h1, List.append_assoc], fun hh => ?_⟩
  obtain ⟨rfl, ht⟩ := e1 hh
  exact ⟨(e2 ht).1, (e2 ht).2⟩

/-- The host's due read of a running block: the block stays, and fewer actions are due. -/
theorem step_of_dueHead {a : HostAction} {rest : List HostAction} (hr : HostOnlyReads s) (hh : s.host = a :: rest)
    (hd : hostDue s a = true) :
    ∃ u, step s = .next u ∧ SameBlock s u ∧ HostReadOn s u ∧ (u.host = rest ∨ s.busy = true ∧ u.host = ⟨1, .poll⟩ :: rest) := by
  obtain ⟨hread, hwf⟩ := hr a (by simp [hh])
  obtain ⟨q, v, d, hs, hq⟩ := step_of_dueRead hh hd hread hwf
  refine ⟨_, hs, sameBlock_withHost .., ⟨fun b hb => ?_, [v], rfl, fun h0 => by simp [h0] at hh⟩, ?_⟩
  · have hb : b ∈ q := hb
    have hrest : ∀ c ∈ rest, c.op.isRead = true ∧ c.op.wellFormed s.inCapR.toNat s.outCapR.toNat = true :=
      fun c hc => hr c (by simp [hh, hc])
    rcases hq with rfl | ⟨-, -, rfl⟩
    · exact hrest b hb
    · rcases List.mem_cons.mp hb with rfl | hb
      · exact ⟨rfl, rfl⟩
      · exact hrest b hb
  · rcases hq with rfl | ⟨-, hb, rfl⟩
    · exact .inl rfl
    · exact .inr ⟨hb, rfl⟩

/-- While a command runs and the host only reads, the block's turn comes, in the same block. -/
theorem runsTo_blockMoves (hr : HostOnlyReads s) (hp : s.phase ≠ .idle) :
    ∃ u, RunsTo s 0 u ∧ SameBlock s u ∧ HostReadOn s u ∧ BlockMoves u := by
  induction hn : s.host generalizing s with
  | nil => exact ⟨s, .refl s, rfl, .refl hr, hp, by simp [hn]⟩
  | cons a rest ih =>
    by_cases hw : a.wait = 0
    · obtain ⟨u, hs, hsame, hon, hq⟩ := step_of_dueHead hr hn (by simp [hostDue, hw])
      have hpu : u.phase = s.phase := hsame.eqs.2.1
      have hnb : ¬BlockMoves s := fun hb => hb.2 a (by simp [hn]) hw
      have h1 := fun {n v} (hv : RunsTo u n v) => RunsTo.head hs hpu hv
      simp only [hnb, if_false, Nat.zero_add] at h1
      rcases hq with hq | ⟨-, hq⟩
      · obtain ⟨v, hv, hsv, honv, hbv⟩ := ih hon.1 (by rwa [hpu]) hq
        exact ⟨v, h1 hv, hsame.trans hsv, hon.trans honv, hbv⟩
      · exact ⟨u, h1 (.refl u), hsame, hon, by rwa [hpu], by simp [hq]⟩
    · exact ⟨s, .refl s, rfl, .refl hr, hp, by simpa [hn] using hw⟩

theorem RunsTo.trans {m n : Nat} (hs : RunsTo s m t) (hp : t.phase = s.phase) (ht : RunsTo t n u) : RunsTo s (m + n) u := by
  obtain ⟨k, hk, hm, hv⟩ := hs
  induction k generalizing s m with
  | zero =>
    obtain rfl : s = t := by simpa [runSteps] using hk
    obtain rfl : 0 = m := hm
    rwa [Nat.zero_add]
  | succ k ih =>
    cases hstep : step s with
    | next v =>
      rw [runSteps_succ k hstep] at hk
      have hvp : v.phase = s.phase := by
        cases k with
        | zero => rw [show v = t by simpa [runSteps] using hk]; exact hp
        | succ k =>
          obtain ⟨w, h1, h2⟩ := hv 1 (by omega)
          rw [runSteps_succ 0 hstep] at h1
          rw [show v = w by simpa [runSteps] using h1]; exact h2
      have hrec := ih (hp.trans hvp.symm) hk rfl fun j hj => by
        obtain ⟨w, h1, h2⟩ := hv (j + 1) (by omega)
        rw [runSteps_succ j hstep] at h1
        exact ⟨w, h1, h2.trans hvp.symm⟩
      have := RunsTo.head hstep hvp hrec
      rw [← hm]
      simpa only [blockSteps, hstep, Nat.add_assoc] using this
    | fault f => simp [runSteps, hstep] at hk
    | refused q => simp [runSteps, hstep] at hk

theorem sameBlock_blockTurn (s : State) : SameBlock s (blockTurn s) := rfl

theorem blockStep_sameBlock (hs : SameBlock s u) (hb : blockStep s = .next t) :
    blockStep u = .next (withHost u.host u.reads u.draws t) := by
  have hw := blockStep_withHost (h := u.host) (r := u.reads) (d := u.draws) hb
  rwa [← hs] at hw

/-- The block's turn leaves the host's queue, but for one wait. -/
theorem hostReadOn_blockTurn (hr : HostOnlyReads s) : HostReadOn s (blockTurn s) := by
  refine ⟨?_, [], by simp, fun h0 => ⟨rfl, by simp [blockTurn, h0]⟩⟩
  intro b hb
  cases hh : s.host with
  | nil => simp [blockTurn, hh] at hb
  | cons a rest =>
    simp only [blockTurn, hh, List.mem_cons] at hb
    rcases hb with rfl | hb
    · exact hr a (by simp [hh])
    · exact hr b (by simp [hh, hb])

/-- A block step is the same with the host beside it. -/
theorem step_of_blockStep (hr : HostOnlyReads s) (hm : BlockMoves s) (hb : blockStep s = .next t) :
    ∃ u, step s = .next u ∧ SameBlock t u ∧ HostReadOn s u := by
  refine ⟨_, (step_of_blockMoves hm.1 hm.2).trans (blockStep_sameBlock (sameBlock_blockTurn s) hb), rfl, ?_⟩
  obtain ⟨-, -, -, h1, h2, -⟩ := blockStep_frame hb
  obtain ⟨h3, h4⟩ := hostReadOn_blockTurn hr
  refine ⟨fun b hb => ?_, h4⟩
  show _ ∧ b.op.wellFormed t.inCapR.toNat t.outCapR.toNat = true
  rw [h1, h2]
  exact h3 b hb

/-- The next block step of a running command, whatever the host reads before it. -/
theorem runsTo_blockStep (hr : HostOnlyReads s) (hp : s.phase ≠ .idle) (hb : blockStep s = .next t) :
    ∃ u, RunsTo s 1 u ∧ SameBlock t u ∧ HostReadOn s u := by
  obtain ⟨v, hv, hsame, hon, hm⟩ := runsTo_blockMoves hr hp
  obtain ⟨u, hstep, hu, honu⟩ := step_of_blockStep hon.1 hm (blockStep_sameBlock hsame hb)
  refine ⟨u, ?_, (sameBlock_withHost _ _ _ t).trans hu, hon.trans honu⟩
  have h1 := RunsTo.one hstep
  rw [if_pos hm] at h1
  simpa using hv.trans hsame.eqs.2.1 h1

/-- Any number of block steps of a running command, whatever the host reads between them. -/
theorem runsTo_blockRun {n : Nat} (hr : HostOnlyReads s) (hb : blockRun n s = .next t) :
    ∃ u, RunsTo s n u ∧ SameBlock t u ∧ HostReadOn s u := by
  induction n generalizing s t with
  | zero => cases hb; exact ⟨_, .refl _, rfl, .refl hr⟩
  | succ n ih =>
    obtain ⟨v, h1, h2⟩ := blockRun_succ hb
    have hp : s.phase ≠ .idle := fun hp => by simp [blockStep, hp] at h1
    obtain ⟨w, hw, hsame, hon⟩ := runsTo_blockStep hr hp h1
    rcases (blockStep_frame h1).1 with hi | ⟨hv, -⟩
    · cases n with
      | zero => cases h2; exact ⟨w, hw, hsame, hon⟩
      | succ n => simp [blockRun, blockStep, hi] at h2
    · have h2' := blockRun_withHost (h := w.host) (r := w.reads) (d := w.draws) h2
      rw [← hsame] at h2'
      obtain ⟨u, hu, hsu, honu⟩ := ih hon.1 h2'
      refine ⟨u, ?_, (sameBlock_withHost _ _ _ t).trans hsu, hon.trans honu⟩
      rw [Nat.add_comm]
      exact hw.trans (hsame.eqs.2.1.trans hv) hu

/-- A command's step 0 leaves it running or ended. -/
theorem exec_phase {i : Instr} (he : exec i s = .next t) : t.phase = commandPhase i ∨ t.phase = .idle := by
  obtain ⟨-, ⟨rfl, -, rfl⟩ | ⟨rfl, -, rfl⟩ | ⟨rfl, -, -, rfl⟩ | ⟨rfl, -, rfl⟩ | ⟨rfl, -, -, rfl⟩⟩ := exec_next he <;>
    simp [commandPhase]

/-- The command's step 0 keeps the host and its side. -/
theorem exec_frame {i : Instr} (he : exec i s = .next t) :
    t.inLen = s.inLen ∧ t.inBuf = s.inBuf ∧ t.inCapR = s.inCapR ∧ t.outCapR = s.outCapR ∧ t.host = s.host ∧ t.reads = s.reads := by
  obtain ⟨-, ⟨-, -, rfl⟩ | ⟨-, -, rfl⟩ | ⟨-, -, -, rfl⟩ | ⟨-, -, rfl⟩ | ⟨-, -, -, rfl⟩⟩ := exec_next he <;> simp

theorem blockRun_frame {n : Nat} (hb : blockRun n s = .next t) :
    t.inLen = s.inLen ∧ t.inBuf = s.inBuf ∧ t.inCapR = s.inCapR ∧ t.outCapR = s.outCapR := by
  induction n generalizing s with
  | zero => cases hb; exact ⟨rfl, rfl, rfl, rfl⟩
  | succ n ih =>
    obtain ⟨u, h1, h2⟩ := blockRun_succ hb
    have hf := blockStep_frame h1
    have hu := ih h2
    exact ⟨hu.1.trans hf.2.1, hu.2.1.trans hf.2.2.1, hu.2.2.1.trans hf.2.2.2.1, hu.2.2.2.trans hf.2.2.2.2.1⟩

/-- A command that ends after `n` block steps with no host beside it ends so with the host's reads between them. -/
theorem endsAfter_of_blockRun {i : Instr} {a : State} {n : Nat} (hr : HostOnlyReads s) (he : exec i s = .next a)
    (hb : blockRun n a = .next t) (hi : t.phase = .idle) : ∃ u, EndsAfter i s n u ∧ SameBlock t u ∧ KeepsHostInput s u := by
  obtain ⟨h1, h2, h3, h4, h5, h6⟩ := exec_frame he
  have hra : HostOnlyReads a := by
    unfold HostOnlyReads
    rw [h3, h4, h5]
    exact hr
  rcases exec_phase he with hp | hp
  · obtain ⟨u, ⟨k, hk, hn, hv⟩, hsame, -, rs, hrs, h0⟩ := runsTo_blockRun hra hb
    obtain ⟨b1, b2, b3, b4⟩ := blockRun_frame hb
    obtain ⟨-, e2, e3, -, -, -, e7, e8, e9, -⟩ := hsame.eqs
    refine ⟨u, ⟨a, k, he, hk, hn, e2.trans hi, fun j hj => ?_⟩, hsame, ?_⟩
    · obtain ⟨v, hv1, hv2⟩ := hv j hj
      exact ⟨v, hv1, hv2.trans hp⟩
    · exact ⟨by rw [e3, b1, h1], by rw [e9, b2, h2], by rw [e7, b3, h3], by rw [e8, b4, h4], rs, by rw [hrs, h6],
        fun hh => (h0 (h5.trans hh)).1⟩
  · cases n with
    | zero =>
      cases hb
      exact ⟨_, ⟨_, 0, he, rfl, rfl, hi, fun j hj => absurd hj (Nat.not_lt_zero _)⟩, rfl, h1, h2, h3, h4, [], by simp [h6], by simp⟩
    | succ n => simp [blockRun, blockStep, hp] at hb

/-- What the block comes to in a run with only reads beside it, it comes to by its own steps alone. -/
theorem blockRun_of_runSteps {k : Nat} (hr : HostOnlyReads s) (hk : runSteps k s = .next t) :
    ∃ u, blockRun (blockSteps k s) s = .next u ∧ SameBlock u t ∧ HostReadOn s t := by
  induction k generalizing s with
  | zero => cases hk; exact ⟨_, rfl, rfl, .refl hr⟩
  | succ k ih =>
    cases hs : step s with
    | fault f => simp [runSteps, hs] at hk
    | refused q => simp [runSteps, hs] at hk
    | next v =>
      rw [runSteps_succ k hs] at hk
      simp only [blockSteps, hs]
      rcases step_next hs with ⟨hh, hp, rfl⟩ | ⟨a, rest, hh, hd, -⟩ | ⟨hp, hw, hb⟩
      · rw [if_neg (fun hm => hm.1 hp), Nat.zero_add]
        exact ih hr hk
      · have hnm : ¬BlockMoves s := by
          rintro ⟨hp, hw⟩
          have : a.wait ≠ 0 := hw a (by simp [hh])
          simp [hostDue, hp, this] at hd
        obtain ⟨w, hw, hsame, hon, -⟩ := step_of_dueHead hr hh hd
        obtain rfl : w = v := by simpa [hw] using hs
        obtain ⟨u, hu, hut, hont⟩ := ih hon.1 hk
        rw [if_neg hnm, Nat.zero_add]
        have hu' := blockRun_withHost (h := s.host) (r := s.reads) (d := s.draws) hu
        rw [← hsame.symm] at hu'
        exact ⟨_, hu', (sameBlock_withHost _ _ _ u).symm.trans hut, hon.trans hont⟩
      · have hm : BlockMoves s := ⟨hp, hw⟩
        have hb' := blockStep_sameBlock (sameBlock_blockTurn s).symm hb
        obtain ⟨w, hw, hsame, hon⟩ := step_of_blockStep hr hm hb'
        obtain rfl : w = v := by simpa [hw] using hs
        obtain ⟨u, hu, hut, hont⟩ := ih hon.1 hk
        rw [if_pos hm, Nat.add_comm]
        have hu' := blockRun_withHost (h := s.host) (r := s.reads) (d := s.draws) hu
        exact ⟨withHost s.host s.reads s.draws u, by simp only [blockRun, hb', hu'],
          (sameBlock_withHost _ _ _ u).symm.trans hut, hon.trans hont⟩

end Sys2Proof.Laws
end

