-- ==== Sys2Proof/Tests/Slice0.lean ====
section
/-! SUPPORT. The model's own tests. Expected values are those of spec/95_test_vectors.md (L1, L2, L3) or written out from the rule named;
a `witness_` theorem shows that the hypotheses of one statement of Obligations.lean can be met, clause by clause. -/

namespace Sys2Proof.Tests

open Sys2Proof Sys2Proof.Machine

set_option maxRecDepth 4000

/-! ### Small states -/

/-- Idle after reset, with the bytes `x` written and IN_LEN set to their number. -/
def ready (inCap outCap : Word) (x : List Byte) : State :=
  { State.resetWith inCap outCap with inBuf := Memory.writeBytes [] 0 x, inLen := BitVec.ofNat 32 x.length }

/-- `s` with one host action due. -/
def pend (op : HostOp) (s : State) : State := { s with host := [⟨0, op⟩] }

/-- `s` with a host that polls after one block step and then reads OUT_LEN and IN_BUF[0]. -/
def polled (s : State) : State := { s with host := [⟨1, .poll⟩, ⟨0, .regRead 32 0x0C⟩, ⟨0, .inRead 8 0⟩] }

/-- A COMPRESS of `x` just accepted. -/
def encoding (inCap outCap : Word) (x : List Byte) : State := encInit (accept (ready inCap outCap x))

/-- A DECOMPRESS of `y` just accepted. -/
def decoding (inCap outCap : Word) (y : List Byte) : State := decInit (accept (ready inCap outCap y))

/-- A COMPRESS of "AB" after the byte A. -/
def encodingAB (outCap : Word) : State := { encoding 8 outCap [65, 66] with wValid := true, wCode := 65, ip := 1 }

/-- A COMPRESS of "AAA" after the bytes AA: "AA" is entry 256. -/
def encodingAAA (outCap : Word) : State :=
  { encoding 8 outCap [65, 65, 65] with wValid := true, wCode := 65, ip := 2, op := 2, dict := seeds ++ [[65, 65]], next := 257 }

/-- A DECOMPRESS of code 65 and the code `k`, after the first. -/
def decodingAfterA (outCap : Word) (hi lo : Byte) : State :=
  { decoding 8 outCap [0, 65, hi, lo] with firstPending := false, prevCode := 65, ip := 1, op := 1, outBuf := [(0, 65)] }

/-- The next state of a step, or reset where there is none. -/
def stepped (s : State) : State := match step s with | .next t => t | _ => State.resetWith 0 0

/-! ### WellFormed: one ill-formed access for each check -/

theorem test_wellFormed_commands : Instr.wellFormed .compress = true ∧ Instr.wellFormed .decompress = true := by decide
theorem test_wellFormed_access : (HostOp.regRead 32 0x1C).wellFormed 8 8 = true ∧ (HostOp.inWrite 8 7 0).wellFormed 8 8 = true ∧
    (HostOp.outRead 8 7).wellFormed 8 8 = true := by decide
theorem test_illFormed_regWrite_width : (HostOp.regWrite 8 0x08 0).wellFormed 8 8 = false := by decide
theorem test_illFormed_regWrite_alignment : (HostOp.regWrite 32 0x0A 0).wellFormed 8 8 = false := by decide
theorem test_illFormed_regRead_width : (HostOp.regRead 8 0x04).wellFormed 8 8 = false := by decide
theorem test_illFormed_regRead_alignment : (HostOp.regRead 32 0x06).wellFormed 8 8 = false := by decide
theorem test_illFormed_inWrite_width : (HostOp.inWrite 32 0 0).wellFormed 8 8 = false := by decide
theorem test_illFormed_inWrite_range : (HostOp.inWrite 8 8 0).wellFormed 8 8 = false := by decide
theorem test_illFormed_inRead_width : (HostOp.inRead 16 0).wellFormed 8 8 = false := by decide
theorem test_illFormed_inRead_range : (HostOp.inRead 8 8).wellFormed 8 8 = false := by decide
theorem test_illFormed_outRead_width : (HostOp.outRead 32 0).wellFormed 8 8 = false := by decide
theorem test_illFormed_outRead_range : (HostOp.outRead 8 8).wellFormed 8 8 = false := by decide
theorem test_illFormed_outWrite : (HostOp.outWrite 8 0 0).wellFormed 8 8 = false := by decide

/-! ### Decoding: the words bit by bit, RSV then OP (R80, R81), and the illegal ones (L2-C17 to L2-C21) -/

theorem test_decode_compress : decode 0b0000000000000000000000000000_0001#32 = .ok .compress := by decide
theorem test_decode_decompress : decode 0b0000000000000000000000000000_0010#32 = .ok .decompress := by decide
theorem test_decode_op_zero : decode 0x00000000#32 = .error (.reservedOp 0) := by decide
theorem test_decode_op_three : decode 0x00000003#32 = .error (.reservedOp 3) := by decide
theorem test_decode_op_fifteen : decode 0x0000000F#32 = .error (.reservedOp 15) := by decide
theorem test_decode_rsv_low : decode 0x00000011#32 = .error (.reservedBits 1) := by decide
theorem test_decode_rsv_high : decode 0x80000001#32 = .error (.reservedBits 0x8000000) := by decide
theorem test_decodeTableWord : decodeTableWord 32 1 = some .compress ∧ decodeTableWord 32 2 = some .decompress ∧
    decodeTableWord 32 3 = none ∧ decodeTableWord 40 0x100000001 = none := by decide

/-- The very next step after reset runs the placed command (log entry 10): BUSY = 0 and IN_LEN = 0, so it is accepted. -/
theorem test_withFetchWord_compress :
    ∃ t, step (State.reset.withFetchWord 32 1) = .next t ∧ t.phase = .enc ∧ t.status = 0x1#32 := ⟨_, rfl, rfl, rfl⟩
theorem test_withFetchWord_decompress :
    ∃ t, step (State.reset.withFetchWord 32 2) = .next t ∧ t.phase = .dec ∧ t.status = 0x1#32 := ⟨_, rfl, rfl, rfl⟩

/-! ### The commands, one step each -/

/-- L2-C9: IN_LEN = 5 at IN_CAP = 4. -/
theorem test_compress_over_capacity : ∃ t, exec .compress (ready 4 64 [1, 2, 3, 4, 5]) = .next t ∧
    t.status = 0x32#32 ∧ t.errPos = 4 ∧ t.outLen = 0 ∧ t.dictNext = 256 := ⟨_, rfl, rfl, rfl, rfl, rfl⟩

/-- L2-E1 at its second byte: code 65 is emitted and "AB" becomes entry 256. -/
theorem test_compress_emits_and_inserts :
    (stepped (encodingAB 8)).outBuf = [(0, 0x00), (1, 0x41)] ∧ (stepped (encodingAB 8)).wCode = 66 ∧
    (stepped (encodingAB 8)).next = 257 ∧ dictEntry (stepped (encodingAB 8)) 256 = some [65, 66] := by decide

/-- L1-4, third row: FRAMING wins over what would be BAD_CODE. -/
theorem test_decompress_framing : ∃ t, exec .decompress (ready 64 64 [0x01, 0x00, 0x00]) = .next t ∧
    t.status = 0x12#32 ∧ t.errPos = 2 ∧ t.outLen = 0 ∧ t.dictNext = 256 := ⟨_, rfl, rfl, rfl, rfl, rfl⟩

/-- L2-D2 at its second code: the special case 256 appends "AA" and inserts it. -/
theorem test_decompress_special_case :
    (stepped (decodingAfterA 8 1 0)).outBuf = [(0, 65), (1, 65), (2, 65)] ∧ (stepped (decodingAfterA 8 1 0)).op = 3 ∧
    (stepped (decodingAfterA 8 1 0)).prevCode = 256 ∧ dictEntry (stepped (decodingAfterA 8 1 0)) 256 = some [65, 65] := by decide

/-! ### The framer and the reference functions -/

theorem test_frame : frame [65, 256, 257, 256] = [0x00, 0x41, 0x01, 0x00, 0x01, 0x01, 0x01, 0x00] := by decide
theorem test_unframe_no_sign : unframe [0x80, 0x00, 0x00, 0x80] = [32768, 128] := by decide

/-- L2-F10. -/
theorem test_frmDes : frmDes (ready 8 8 [0x00, 0x41, 0x00, 0x42, 0x01, 0x00, 0x01, 0x02]) 3 = .done 258 := by decide

/-- L2-E3 and L2-D2. -/
theorem test_encode_first_added_entry : encodeRef [65, 65, 65] = [65, 256] := by decide
theorem test_decode_special_case : decodeRef [65, 256] = .ok [65, 65, 65] := by decide
theorem test_decode_first_code_256 : decodeRef [256] = .badCode 0 [] := by decide

/-! ### The host's accesses -/

/-- L2-H3, L2-H4, L2-H5 and L2-H6. -/
theorem test_write_outLen_no_effect : (stepped (pend (.regWrite 32 0x0C 5) (ready 8 8 [1]))).outLen = 0 := by decide
theorem test_read_misaligned : step (pend (.regRead 32 0x06) (ready 8 8 [])) = .refused .regAlignment := rfl
theorem test_cmd_while_busy : step (pend (.regWrite 32 0x00 1) (encoding 8 8 [65])) = .refused .cmdWhileBusy := rfl
theorem test_inBuf_while_busy : step (pend (.inWrite 8 0 0x41) (encoding 8 8 [65])) = .refused .inBufWhileBusy := rfl

/-- L2-H8 and L2-H2. -/
theorem test_status_while_busy : (stepped (pend (.regRead 32 0x04) (encoding 8 8 [65]))).reads = [.reg 0x04 0x1] := by decide
theorem test_unmapped_reads_zero : (stepped (pend (.regRead 32 0xFC) (ready 8 8 []))).reads = [.reg 0xFC 0] := by decide

/-- L2-H9: the byte was never written. -/
theorem test_uninit_input : step { encoding 8 8 [] with nIn := 1 } = .fault .uninitInput := rfl

/-- A POLL goes on reading after one more block step, and ends where BUSY = 0 (R90). -/
theorem test_poll_waits : (stepped (pend .poll (encoding 8 8 [65]))).host = [⟨1, .poll⟩] ∧
    (stepped (pend .poll (ready 8 8 []))).host = [] := by decide

/-- R31 and R66: an IN_BUF byte the host never wrote reads the same before a command, while it runs and after it; a RESET selects a new
one (R230). -/
theorem test_unwritten_input_survives_command : let s := encoding 8 8 [65];
    inByteValue 7 (ready 8 8 [65]) = Config.freeInByte 0 7 ∧ inByteValue 7 (stepped (pend (.inRead 8 7) s)) = Config.freeInByte 0 7 ∧
    inByteValue 7 (stepped (stepped s)) = Config.freeInByte 0 7 ∧ (stepped (stepped s)).phase = .idle ∧
    inByteValue 7 (stepped (pend .reset s)) = Config.freeInByte 1 7 := ⟨rfl, rfl, rfl, rfl, rfl⟩

/-- R66: an idle OUT_BUF byte past OUT_LEN reads the same before and after a write to IN_LEN. -/
theorem test_free_output_survives_idle_write :
    outByteValue 3 (stepped (pend (.regWrite 32 0x08 5) (ready 8 8 []))) = outByteValue 3 (ready 8 8 []) := rfl

/-- R22: a read of CMD is 0 while BUSY. -/
theorem test_cmd_reads_zero_while_busy : (stepped (pend (.regRead 32 0x00) (encoding 8 8 [65]))).reads = [.reg 0x00 0] := by decide

/-- P3, lines 3 and 4, and P1, line 2, in bus actions. -/
theorem test_assemble : assemble [.setlen 3, .run .decompress] =
      [⟨0, .regWrite 32 0x08 3⟩, ⟨0, .regWrite 32 0x00 2⟩, ⟨0, .poll⟩] ∧
    assemble [.wbsText 0 "AB"] = [⟨0, .inWrite 8 0 0x41⟩, ⟨0, .inWrite 8 1 0x42⟩] := by decide

/-! ### Witnesses: commands -/

theorem witness_CmdWriteStepRunsCommand :
    (HostMoves (pend (.regWrite 32 0x00 1) (ready 8 8 [])) ⟨0, .regWrite 32 0x00 1⟩ [] ∧ decode 1 = .ok .compress) ∧
    (HostMoves (pend (.regWrite 32 0x00 2) (ready 8 8 [])) ⟨0, .regWrite 32 0x00 2⟩ [] ∧ decode 2 = .ok .decompress) := by decide

theorem witness_FetchWordStepRunsCommand :
    decodeTableWord 32 1 = some .compress ∧ decodeTableWord 32 2 = some .decompress := by decide

/-- IN_LEN = IN_CAP. -/
theorem witness_CompressAcceptsFreshEncoder :
    (ready 3 8 [1, 2, 3]).busy = false ∧ (ready 3 8 [1, 2, 3]).inLen.toNat ≤ (ready 3 8 [1, 2, 3]).inCapR.toNat := by decide

theorem witness_DecompressAcceptsFreshDecoder :
    (ready 4 8 [0, 65, 1, 0]).busy = false ∧ (ready 4 8 [0, 65, 1, 0]).inLen.toNat ≤ (ready 4 8 [0, 65, 1, 0]).inCapR.toNat ∧
    (ready 4 8 [0, 65, 1, 0]).inLen.toNat % 2 = 0 := by decide

/-- IN_LEN = IN_CAP + 1. -/
theorem witness_CommandOverInputCapacityEndsIo :
    (ready 2 8 [1, 2, 3]).busy = false ∧ (ready 2 8 [1, 2, 3]).inCapR.toNat < (ready 2 8 [1, 2, 3]).inLen.toNat := by decide

theorem witness_OddInputEndsFraming :
    ((ready 3 8 [0, 65, 1]).busy = false ∧ (ready 3 8 [0, 65, 1]).inLen.toNat ≤ (ready 3 8 [0, 65, 1]).inCapR.toNat ∧
      (ready 3 8 [0, 65, 1]).inLen.toNat % 2 = 1) ∧
    (∃ t, exec .decompress (ready 3 8 [0, 65, 1]) = .next t ∧ t.status = 0x12#32) ∧
    ((pend (.regWrite 32 0x00 2) (ready 3 8 [0, 65, 1])).status ≠ 0x12#32 ∧
      ∃ t, step (pend (.regWrite 32 0x00 2) (ready 3 8 [0, 65, 1])) = .next t ∧ t.status = 0x12#32) :=
  ⟨by decide, ⟨_, rfl, rfl⟩, by decide, _, rfl, rfl⟩

theorem witness_CmdWriteWhileBusyIsRefused :
    (encoding 8 8 [65]).busy = true ∧
    HostMoves (pend (.regWrite 32 0x00 7) (encoding 8 8 [65])) ⟨0, .regWrite 32 0x00 7⟩ [] ∧
    (pend (.regWrite 32 0x00 7) (encoding 8 8 [65])).busy = true := by decide

theorem witness_IllegalWordRecordsIllegalCmd :
    HostMoves (pend (.regWrite 32 0x00 0x11) (ready 8 8 [])) ⟨0, .regWrite 32 0x00 0x11⟩ [] ∧
    (pend (.regWrite 32 0x00 0x11) (ready 8 8 [])).busy = false ∧ 0x11#32 ≠ 0x00000001#32 ∧ 0x11#32 ≠ 0x00000002#32 := by decide

/-! ### Witnesses: the encoder -/

theorem witness_EncByteStartsOrExtendsMatch :
    (BlockMoves (encoding 8 8 [65]) ∧ (encoding 8 8 [65]).phase = .enc ∧
      (encoding 8 8 [65]).ip.toNat < (encoding 8 8 [65]).nIn.toNat ∧
      (encoding 8 8 [65]).inBuf.read (encoding 8 8 [65]).ip.toNat = some 65 ∧ (encoding 8 8 [65]).wValid = false) ∧
    (BlockMoves (encodingAAA 8) ∧ (encodingAAA 8).phase = .enc ∧ (encodingAAA 8).ip.toNat < (encodingAAA 8).nIn.toNat ∧
      (encodingAAA 8).inBuf.read (encodingAAA 8).ip.toNat = some 65 ∧ (encodingAAA 8).wValid = true ∧
      fdLookup (encodingAAA 8) (encodingAAA 8).wCode 65 = some 256) := by decide

/-- The code fits exactly, or misses one byte. -/
theorem witness_EncByteEmitsAndInserts :
    (BlockMoves (encodingAB 2) ∧ (encodingAB 2).phase = .enc ∧ (encodingAB 2).ip.toNat < (encodingAB 2).nIn.toNat ∧
      (encodingAB 2).inBuf.read (encodingAB 2).ip.toNat = some 66 ∧ (encodingAB 2).wValid = true ∧
      dictEntry (encodingAB 2) (encodingAB 2).wCode.toNat = some [65] ∧ fdLookup (encodingAB 2) (encodingAB 2).wCode 66 = none ∧
      (encodingAB 2).op.toNat + 2 ≤ (encodingAB 2).outCapR.toNat) ∧
    (dictEntry (encodingAB 1) (encodingAB 1).wCode.toNat = some [65] ∧ fdLookup (encodingAB 1) (encodingAB 1).wCode 66 = none ∧
      (encodingAB 1).outCapR.toNat < (encodingAB 1).op.toNat + 2) := by decide

/-- A COMPRESS of "A" after its byte. -/
def flushing (outCap : Word) : State := { encoding 8 outCap [65] with wValid := true, wCode := 65, ip := 1 }

/-- The empty input, and one byte whose code fits exactly or misses one byte. -/
theorem witness_EncFlushEndsCompress :
    (BlockMoves (encoding 8 8 []) ∧ (encoding 8 8 []).phase = .enc ∧ (encoding 8 8 []).ip.toNat = (encoding 8 8 []).nIn.toNat ∧
      (encoding 8 8 []).wValid = false) ∧
    (BlockMoves (flushing 2) ∧ (flushing 2).phase = .enc ∧ (flushing 2).ip.toNat = (flushing 2).nIn.toNat ∧
      (flushing 2).wValid = true ∧ (flushing 2).wCode.toNat < (flushing 2).next.toNat ∧
      (flushing 2).op.toNat + 2 ≤ (flushing 2).outCapR.toNat) ∧
    (BlockMoves (flushing 1) ∧ (flushing 1).outCapR.toNat < (flushing 1).op.toNat + 2) := by decide

/-! ### Witnesses: the decoder -/

/-- What every clause of DecFirstDecodesSeed asks, at the first code of the bytes `hi` and `lo`. -/
def AtFirstCode (s : State) (hi lo : Byte) : Prop :=
  BlockMoves s ∧ s.phase = .dec ∧ s.firstPending = true ∧ s.ip.toNat < s.nIn.toNat / 2 ∧
  s.inBuf.read (2 * s.ip.toNat) = some hi ∧ s.inBuf.read (2 * s.ip.toNat + 1) = some lo

/-- Code 255 that fits exactly or does not, and code 256. -/
theorem witness_DecFirstDecodesSeed :
    (AtFirstCode (decoding 8 1 [0, 255]) 0 255 ∧
      (decoding 8 1 [0, 255]).op.toNat + 1 ≤ (decoding 8 1 [0, 255]).outCapR.toNat) ∧
    (AtFirstCode (decoding 8 0 [0, 255]) 0 255 ∧
      (decoding 8 0 [0, 255]).outCapR.toNat < (decoding 8 0 [0, 255]).op.toNat + 1) ∧
    (AtFirstCode (decoding 8 8 [1, 0]) 1 0 ∧ (1 : Byte) ≠ 0) := by
  unfold AtFirstCode; decide

/-- What every clause of DecCodeDecodesEntry asks, at the code of the bytes `hi` and `lo` after the code 65. -/
def AtSecondCode (s : State) (hi lo : Byte) (k : Code) : Prop :=
  BlockMoves s ∧ s.phase = .dec ∧ s.firstPending = false ∧ s.ip.toNat < s.nIn.toNat / 2 ∧
  s.inBuf.read (2 * s.ip.toNat) = some hi ∧ s.inBuf.read (2 * s.ip.toNat + 1) = some lo ∧
  k.toNat = hi.toNat * 256 + lo.toNat ∧ dictEntry s s.prevCode.toNat = some [65]

/-- Code 255, known: it fits exactly, or misses one byte. -/
theorem witness_DecCodeDecodesEntry_known :
    (AtSecondCode (decodingAfterA 2 0 255) 0 255 255 ∧ (255 : Code).toNat < (decodingAfterA 2 0 255).next.toNat ∧
      (decodingAfterA 2 0 255).dict[(255 : Code).toNat]? = some [255] ∧
      (decodingAfterA 2 0 255).op.toNat + (0 + 1) ≤ (decodingAfterA 2 0 255).outCapR.toNat) ∧
    (AtSecondCode (decodingAfterA 1 0 255) 0 255 255 ∧ (255 : Code).toNat < (decodingAfterA 1 0 255).next.toNat ∧
      (decodingAfterA 1 0 255).dict[(255 : Code).toNat]? = some [255] ∧
      (decodingAfterA 1 0 255).outCapR.toNat < (decodingAfterA 1 0 255).op.toNat + (0 + 1)) := by
  unfold AtSecondCode; decide

/-- Code 256, the special case: it fits exactly, or misses one byte. -/
theorem witness_DecCodeDecodesEntry_special :
    (AtSecondCode (decodingAfterA 3 1 0) 1 0 256 ∧ (256 : Code).toNat = (decodingAfterA 3 1 0).next.toNat ∧
      (decodingAfterA 3 1 0).op.toNat + (1 + 1) ≤ (decodingAfterA 3 1 0).outCapR.toNat) ∧
    (AtSecondCode (decodingAfterA 2 1 0) 1 0 256 ∧ (256 : Code).toNat = (decodingAfterA 2 1 0).next.toNat ∧
      (decodingAfterA 2 1 0).outCapR.toNat < (decodingAfterA 2 1 0).op.toNat + (1 + 1)) := by
  unfold AtSecondCode; decide

/-- Code 257, one above the special case. -/
theorem witness_DecCodeDecodesEntry_bad :
    AtSecondCode (decodingAfterA 8 1 1) 1 1 257 ∧ (decodingAfterA 8 1 1).next.toNat < (257 : Code).toNat := by
  unfold AtSecondCode; decide

theorem witness_DecEndEndsDecompress : let s := { decodingAfterA 8 1 0 with ip := 2 };
    BlockMoves s ∧ s.phase = .dec ∧ s.ip.toNat = s.nIn.toNat / 2 := by decide

/-- L2-C6: the first emit does not fit. -/
theorem witness_BlockErrorIsPrecise :
    (encodingAB 1).status = 0x00000001#32 ∧ BlockMoves (encodingAB 1) ∧
    ∃ t, step (encodingAB 1) = .next t ∧ t.done = true ∧ t.err ≠ 0 := ⟨rfl, by decide, _, rfl, rfl, by decide⟩

theorem witness_UnwrittenInputFaults :
    (let s := { encoding 8 8 [] with nIn := 1 };
      BlockMoves s ∧ s.phase = .enc ∧ s.ip.toNat < s.nIn.toNat ∧ s.inBuf.read s.ip.toNat = none) ∧
    (let s := { decoding 8 8 [] with nIn := 2 };
      BlockMoves s ∧ s.phase = .dec ∧ s.ip.toNat < s.nIn.toNat / 2 ∧ s.inBuf.read (2 * s.ip.toNat) = none) ∧
    (let s := { decoding 8 8 [0] with nIn := 2 };
      BlockMoves s ∧ s.phase = .dec ∧ s.ip.toNat < s.nIn.toNat / 2 ∧ s.inBuf.read (2 * s.ip.toNat + 1) = none) := by decide

/-! ### Witnesses: the framer, the concatenator, the dictionary -/

/-- L2-F14 and L2-F15. -/
theorem witness_SerializerWritesBothBytes :
    (256 : Code).toNat < (encodingAAA 4).next.toNat ∧ (encodingAAA 4).op.toNat + 2 ≤ (encodingAAA 4).outCapR.toNat ∧
    (encodingAAA 3).outCapR.toNat < (encodingAAA 3).op.toNat + 2 := by decide

theorem witness_ConcatenatorWritesAllOrNothing :
    (decodingAfterA 3 1 0).op.toNat + [65#8, 65#8].length ≤ (decodingAfterA 3 1 0).outCapR.toNat ∧
    (decodingAfterA 2 1 0).outCapR.toNat < (decodingAfterA 2 1 0).op.toNat + [65#8, 65#8].length := by decide

/-- NEXT = 65535 and NEXT = 65536. -/
theorem witness_InsertGrowsUntilSaturated :
    (let s := { encoding 8 8 [] with dict := List.replicate 65535 [0], next := 65535 };
      s.dict.length = s.next.toNat ∧ s.next.toNat < 65536) ∧
    (let s := { encoding 8 8 [] with dict := List.replicate 65536 [0], next := 65536 };
      s.dict.length = s.next.toNat ∧ 65536 ≤ s.next.toNat) := by
  refine ⟨⟨List.length_replicate, by decide⟩, List.length_replicate, by decide⟩

/-- A dictionary of the seeds has the shape (R38), and one with "AA" at 256 too. -/
theorem shape_encoding (inCap outCap : Word) (x : List Byte) : DictionaryShape (encoding inCap outCap x) :=
  ⟨fun h => (by cases h), fun _ => ⟨Laws.seeds_length, show 256 ≤ 256 by decide, show 256 ≤ 65536 by decide, fun _ h => Laws.seeds_getElem? h,
    fun n h1 h2 => absurd (show n < 256 from h2) (by omega)⟩⟩

theorem shape_decoding (inCap outCap : Word) (y : List Byte) : DictionaryShape (decoding inCap outCap y) :=
  ⟨fun h => (by cases h), fun _ => ⟨Laws.seeds_length, show 256 ≤ 256 by decide, show 256 ≤ 65536 by decide, fun _ h => Laws.seeds_getElem? h,
    fun n h1 h2 => absurd (show n < 256 from h2) (by omega)⟩⟩

theorem shape_encodingAB (outCap : Word) : DictionaryShape (encodingAB outCap) := shape_encoding 8 outCap [65, 66]

theorem match_encodingAB (outCap : Word) : EncoderMatch (encodingAB outCap) :=
  fun _ => ⟨Laws.seeds_nodup, fun _ => show 65 < 256 by decide, show (true = true ↔ (1 : Word) ≠ 0) by decide⟩

theorem witness_ForwardLookupIsExact : (encodingAB 8).phase = .enc ∧ DictionaryShape (encodingAB 8) ∧ EncoderMatch (encodingAB 8) ∧
    dictEntry (encodingAB 8) (65 : Code).toNat = some [65] :=
  ⟨rfl, shape_encodingAB 8, match_encodingAB 8, by decide⟩

theorem witness_FrameUnframeInverse : [0x12#8, 0x34#8].length % 2 = 0 := by decide

theorem witness_DeserializerReadsBigEndian :
    ((ready 8 8 [0x12, 0x34]).inBuf.read (2 * 0) = some 0x12 ∧ (ready 8 8 [0x12, 0x34]).inBuf.read (2 * 0 + 1) = some 0x34) ∧
    (ready 8 8 [0x12]).inBuf.read (2 * 0 + 1) = none := by decide

/-! ### Witnesses: the host's accesses -/

theorem witness_IdleRegisterReads :
    (∀ off ∈ [0x00, 0x04, 0x08, 0x0C, 0x10, 0x14, 0x18, 0x1C, 0x20, 0xFC],
      HostMoves (pend (.regRead 32 off) (ready 8 8 [])) ⟨0, .regRead 32 off⟩ [] ∧ off % 4 = 0 ∧
      (pend (.regRead 32 off) (ready 8 8 [])).busy = false) ∧
    HostMoves (pend .poll (ready 8 8 [])) ⟨0, .poll⟩ [] ∧ (pend .poll (ready 8 8 [])).busy = false := by decide

/-- Index 7 is the last of OUT_BUF. -/
theorem witness_BusyReads :
    (∀ off ∈ [0x00, 0x04, 0x08, 0x0C, 0x10, 0x14, 0x18, 0x1C],
      HostMoves (pend (.regRead 32 off) (encoding 8 8 [65])) ⟨0, .regRead 32 off⟩ [] ∧
      (pend (.regRead 32 off) (encoding 8 8 [65])).busy = true ∧ StatusForms (pend (.regRead 32 off) (encoding 8 8 [65]))) ∧
    (HostMoves (pend (.outRead 8 7) (encoding 8 8 [65])) ⟨0, .outRead 8 7⟩ [] ∧
      (pend (.outRead 8 7) (encoding 8 8 [65])).busy = true ∧ StatusForms (pend (.outRead 8 7) (encoding 8 8 [65])) ∧
      7 < (pend (.outRead 8 7) (encoding 8 8 [65])).outCapR.toNat) ∧
    (HostMoves (pend .poll (encoding 8 8 [65])) ⟨0, .poll⟩ [] ∧ (pend .poll (encoding 8 8 [65])).busy = true ∧
      StatusForms (pend .poll (encoding 8 8 [65]))) := by decide

theorem witness_NoEffectRegisterAccesses :
    (∀ off ∈ [0x04, 0x0C, 0x1C, 0x20], HostMoves (pend (.regWrite 32 off 5) (ready 8 8 [])) ⟨0, .regWrite 32 off 5⟩ [] ∧
      off % 4 = 0 ∧ off ≠ 0x00 ∧ off ≠ 0x08) ∧
    (HostMoves (pend (.regRead 32 0x20) (encoding 8 8 [65])) ⟨0, .regRead 32 0x20⟩ [] ∧ 0x20 % 4 = 0 ∧ 0x20 ≤ 0x20) := by decide

theorem witness_IllFormedAccessIsRefused :
    (∀ op ∈ [HostOp.regWrite 8 0x08 0, .regWrite 32 0x0A 0, .regRead 8 0x04, .regRead 32 0x06, .inWrite 32 0 0, .inWrite 8 8 0,
        .inRead 16 0, .inRead 8 8, .outRead 32 0, .outRead 8 8, .outWrite 8 0 0],
      HostMoves (pend op (ready 8 8 [])) ⟨0, op⟩ [] ∧ op.wellFormed 8 8 = false) ∧
    (∀ op ∈ [HostOp.regWrite 32 0x08 0, .regRead 32 0x1C, .inWrite 8 7 0, .inRead 8 7, .outRead 8 7, .poll, .reset],
      HostMoves (pend op (ready 8 8 [])) ⟨0, op⟩ [] ∧ op.wellFormed 8 8 = true ∧ (pend op (ready 8 8 [])).busy = false) := by decide

theorem witness_IdleInputWrites :
    (HostMoves (pend (.regWrite 32 0x08 9) (ready 8 8 [])) ⟨0, .regWrite 32 0x08 9⟩ [] ∧
      (pend (.regWrite 32 0x08 9) (ready 8 8 [])).busy = false) ∧
    (HostMoves (pend (.inWrite 8 7 1) (ready 8 8 [])) ⟨0, .inWrite 8 7 1⟩ [] ∧ (pend (.inWrite 8 7 1) (ready 8 8 [])).busy = false ∧
      7 < (pend (.inWrite 8 7 1) (ready 8 8 [])).inCapR.toNat) := by decide

theorem witness_BusyInputWritesRefused :
    (HostMoves (pend (.regWrite 32 0x08 9) (encoding 8 8 [])) ⟨0, .regWrite 32 0x08 9⟩ [] ∧
      (pend (.regWrite 32 0x08 9) (encoding 8 8 [])).busy = true) ∧
    (HostMoves (pend (.inWrite 8 7 1) (encoding 8 8 [])) ⟨0, .inWrite 8 7 1⟩ [] ∧
      (pend (.inWrite 8 7 1) (encoding 8 8 [])).busy = true ∧ 7 < (pend (.inWrite 8 7 1) (encoding 8 8 [])).inCapR.toNat) := by decide

/-- OUT_LEN = 1: index 0 is below it, index 1 is at it. -/
theorem witness_BufferReads :
    (let s := pend (.outRead 8 0) { ready 8 8 [] with outLen := 1, outBuf := [(0, 65)] };
      HostMoves s ⟨0, .outRead 8 0⟩ [] ∧ 0 < s.outCapR.toNat ∧ s.busy = false ∧ 0 < s.outLen.toNat ∧ s.outBuf.read 0 = some 65) ∧
    (let s := pend (.outRead 8 1) { ready 8 8 [] with outLen := 1, outBuf := [(0, 65)] };
      HostMoves s ⟨0, .outRead 8 1⟩ [] ∧ 1 < s.outCapR.toNat ∧ s.busy = false ∧ s.outLen.toNat ≤ 1) ∧
    (let s := pend (.inRead 8 7) { ready 8 8 [] with inBuf := [(7, 65)] };
      HostMoves s ⟨0, .inRead 8 7⟩ [] ∧ 7 < s.inCapR.toNat ∧ s.inBuf.read 7 = some 65) ∧
    (let s := pend (.inRead 8 7) (ready 8 8 []);
      HostMoves s ⟨0, .inRead 8 7⟩ [] ∧ 7 < s.inCapR.toNat ∧ s.inBuf.read 7 = none) := by decide

/-- A free byte of OUT_BUF read twice, at once and with a write to IN_LEN between. -/
theorem witness_IdleReadsHaveNoSideEffect :
    (let s := { ready 8 8 [] with host := [⟨0, .outRead 8 3⟩, ⟨0, .outRead 8 3⟩] };
      IsIdle s ∧ HostOp.isRead (.outRead 8 3) = true ∧ ∃ t u, step s = .next t ∧ step t = .next u) ∧
    (let s := { ready 8 8 [] with host := [⟨0, .outRead 8 3⟩, ⟨0, .regWrite 32 0x08 5⟩, ⟨0, .outRead 8 3⟩] };
      IsIdle s ∧ HostOp.isRead (.outRead 8 3) = true ∧ HostOp.regWrite 32 0x08 5 ≠ .reset ∧
      (∀ w, HostOp.regWrite 32 0x08 5 ≠ .regWrite 32 0x00 w) ∧ HostOp.outRead 8 3 ≠ .regRead 32 0x08 ∧
      (∀ i w, HostOp.regWrite 32 0x08 5 ≠ .inWrite 8 i w) ∧ ∃ t u v, step s = .next t ∧ step t = .next u ∧ step u = .next v) :=
  ⟨⟨by decide, rfl, _, _, rfl, rfl⟩, by decide, rfl, by decide, by simp, by decide, by simp, _, _, _, rfl, rfl, rfl⟩

theorem witness_ResetActionRestoresResetValues : HostMoves (pend .reset (encodingAB 8)) ⟨0, .reset⟩ [] := by decide

theorem witness_ResetStateValues : ∃ c d, State.reset = State.resetWith c d := ⟨_, _, rfl⟩

theorem witness_IdleBlockWithoutHostStays : (ready 8 8 []).phase = .idle ∧ (ready 8 8 []).host = [] := by decide

/-! ### Witnesses: the invariants, at a running command -/

theorem cursors_encodingAB (outCap : Word) : CursorsInRange (encodingAB outCap) :=
  fun _ => ⟨show 2 ≤ 8 by decide, Nat.zero_le _, fun _ => ⟨show 1 ≤ 2 by decide, show 0 % 2 = 0 by decide⟩, fun h => (by cases h)⟩

theorem cursors_decoding : CursorsInRange (decoding 8 8 [0, 65]) :=
  fun _ => ⟨by decide, by decide, fun h => (by cases h), fun _ => ⟨by decide, by decide⟩⟩

theorem witness_StepKeepsStatusForms : StatusForms (encodingAB 8) ∧ (∃ t, step (encodingAB 8) = .next t) ∧
    (∃ t, StatusForms (pend .reset (encodingAB 8)) ∧ step (pend .reset (encodingAB 8)) = .next t ∧ t.status = 0) :=
  ⟨by decide, ⟨_, rfl⟩, _, by decide, rfl, rfl⟩

theorem witness_StepKeepsBuffersCanonical : BuffersCanonical (encodingAB 8) ∧ ∃ t, step (encodingAB 8) = .next t :=
  ⟨by unfold BuffersCanonical; decide, _, rfl⟩

theorem witness_StepKeepsCursorsInRange : CursorsInRange (encodingAB 8) ∧ ∃ t, step (encodingAB 8) = .next t :=
  ⟨cursors_encodingAB 8, _, rfl⟩

theorem witness_StepKeepsResultsInRange :
    StatusForms (encodingAB 8) ∧ CursorsInRange (encodingAB 8) ∧ ResultsInRange (encodingAB 8) ∧ ∃ t, step (encodingAB 8) = .next t :=
  ⟨by decide, cursors_encodingAB 8, by unfold ResultsInRange; decide, _, rfl⟩

theorem witness_StepKeepsDictionaryShape :
    CursorsInRange (encodingAB 8) ∧ DictionaryShape (encodingAB 8) ∧ EncoderMatch (encodingAB 8) ∧ DecoderPrevious (encodingAB 8) ∧
    ∃ t, step (encodingAB 8) = .next t :=
  ⟨cursors_encodingAB 8, shape_encodingAB 8, match_encodingAB 8, fun h => (by cases h), _, rfl⟩

theorem witness_StepKeepsEncoderAgreement :
    StatusForms (encodingAB 8) ∧ CursorsInRange (encodingAB 8) ∧ DictionaryShape (encodingAB 8) ∧ EncoderMatch (encodingAB 8) ∧
    EncoderAgrees (encodingAB 8) ∧ ∃ t, step (encodingAB 8) = .next t :=
  ⟨by decide, cursors_encodingAB 8, shape_encodingAB 8, match_encodingAB 8,
    fun _ => ⟨[65], by decide, by decide, by decide, by decide, by decide, by decide, by decide, by decide⟩, _, rfl⟩

theorem witness_StepKeepsDecoderAgreement :
    StatusForms (decoding 8 8 [0, 65]) ∧ CursorsInRange (decoding 8 8 [0, 65]) ∧ DictionaryShape (decoding 8 8 [0, 65]) ∧
    DecoderPrevious (decoding 8 8 [0, 65]) ∧ DecoderAgrees (decoding 8 8 [0, 65]) ∧ ∃ t, step (decoding 8 8 [0, 65]) = .next t :=
  ⟨by decide, cursors_decoding, shape_decoding 8 8 [0, 65], fun _ => by decide,
    fun _ => ⟨[], ⟨seeds, [], []⟩, by decide, by decide, by decide, rfl, by decide, by decide, by decide, by decide, by decide⟩, _, rfl⟩

theorem witness_NoFaultWhenInputWritten :
    CursorsInRange (encodingAB 8) ∧ DictionaryShape (encodingAB 8) ∧ EncoderMatch (encodingAB 8) ∧ DecoderPrevious (encodingAB 8) ∧
    InputWritten (encodingAB 8) :=
  ⟨cursors_encodingAB 8, shape_encodingAB 8, match_encodingAB 8, fun h => (by cases h), by decide⟩

theorem witness_OnlyHostWritesInput : ∃ t, step (pend (.inWrite 8 0 1) (ready 8 8 [])) = .next t := ⟨_, rfl⟩

theorem witness_StepKeepsCapacities : ∃ t, step (encodingAB 8) = .next t := ⟨_, rfl⟩

/-- The end of a COMPRESS of the empty input, and an error that sets ERR_POS. -/
theorem witness_OnlyEndOrResetStopsCommand :
    (∃ t, step (encoding 8 8 []) = .next t ∧ (encoding 8 8 []).phase ≠ .idle ∧ StatusForms (encoding 8 8 []) ∧ t.phase = .idle) ∧
    (∃ t, step (encodingAB 1) = .next t ∧ t.errPos ≠ (encodingAB 1).errPos) :=
  ⟨⟨_, rfl, by decide, by decide, rfl⟩, _, rfl, by decide⟩

/-! ### Witnesses: whole commands, with a host that polls -/

/-- L2-E3. -/
theorem witness_CompressFitsEndState : let s := polled (ready 3 4 [65, 65, 65]);
    IsIdle s ∧ HostOnlyReads s ∧ HoldsInput s [65, 65, 65] ∧ s.inLen.toNat = 3 ∧ 3 ≤ s.inCapR.toNat ∧
    2 * (encodeRef [65, 65, 65]).length ≤ s.outCapR.toNat := by decide

/-- L2-E3 with one byte too few: `j` = 1. -/
theorem witness_CompressOverflowEndState : let s := polled (ready 3 3 [65, 65, 65]);
    IsIdle s ∧ HostOnlyReads s ∧ HoldsInput s [65, 65, 65] ∧ s.inLen.toNat = 3 ∧ 3 ≤ s.inCapR.toNat ∧
    s.outCapR.toNat < 2 * (encodeRef [65, 65, 65]).length ∧ 1 = s.outCapR.toNat / 2 := by decide

/-- L2-D2. -/
theorem witness_DecompressOkEndState : let s := polled (ready 4 3 [0, 65, 1, 0]);
    IsIdle s ∧ HostOnlyReads s ∧ HoldsInput s [0, 65, 1, 0] ∧ s.inLen.toNat = 4 ∧ 4 ≤ s.inCapR.toNat ∧ 4 % 2 = 0 ∧
    decodeRef (unframe [0, 65, 1, 0]) = .ok [65, 65, 65] ∧ 3 ≤ s.outCapR.toNat := by decide

/-- L2-D9 with no byte to spare, and L2-D7. -/
theorem witness_DecompressBadCodeEndState :
    (let s := polled (ready 4 1 [0, 65, 1, 2]);
      IsIdle s ∧ HostOnlyReads s ∧ HoldsInput s [0, 65, 1, 2] ∧ s.inLen.toNat = 4 ∧ 4 ≤ s.inCapR.toNat ∧ 4 % 2 = 0 ∧
      decodeRef (unframe [0, 65, 1, 2]) = .badCode 1 [65] ∧ 1 ≤ s.outCapR.toNat) ∧
    decodeRef (unframe [1, 0]) = .badCode 0 [] := by decide

/-- L2-C13, and the special case with one byte too few. -/
theorem witness_DecompressOverflowEndState :
    (let s := polled (ready 2 0 [0, 65]);
      IsIdle s ∧ HostOnlyReads s ∧ HoldsInput s [0, 65] ∧ s.inLen.toNat = 2 ∧ 2 ≤ s.inCapR.toNat ∧ 2 % 2 = 0 ∧ 0 < 2 / 2 ∧
      decodeRef ((unframe [0, 65]).take 0) = .ok [] ∧ 0 ≤ s.outCapR.toNat ∧
      decodeRef ((unframe [0, 65]).take 1) = .ok [65] ∧ s.outCapR.toNat < 1) ∧
    (let s := polled (ready 4 2 [0, 65, 1, 0]);
      IsIdle s ∧ HostOnlyReads s ∧ HoldsInput s [0, 65, 1, 0] ∧ s.inLen.toNat = 4 ∧ 4 ≤ s.inCapR.toNat ∧ 4 % 2 = 0 ∧ 1 < 4 / 2 ∧
      decodeRef ((unframe [0, 65, 1, 0]).take 1) = .ok [65] ∧ 1 ≤ s.outCapR.toNat ∧
      decodeRef ((unframe [0, 65, 1, 0]).take 2) = .ok [65, 65, 65] ∧ s.outCapR.toNat < 3) := by decide

/-- L1-3: one byte, with the POLL between the two block steps. -/
theorem witness_CompressThenDecompressRestores : let s := polled (ready 8 8 [65]); let u := polled (ready 8 8 [0, 65]);
    IsIdle s ∧ HostOnlyReads s ∧ HoldsInput s [65] ∧ s.inLen.toNat = 1 ∧
    (∃ a t, exec .compress s = .next a ∧ runSteps 3 a = .next t ∧ t.phase = .idle ∧ t.status = 0x00000002#32 ∧
      u.inLen = t.outLen ∧ (∀ i < t.outLen.toNat, u.inBuf.read i = t.outBuf.read i) ∧ t.outLen.toNat ≤ u.inCapR.toNat) ∧
    IsIdle u ∧ HostOnlyReads u ∧ 1 ≤ u.outCapR.toNat :=
  ⟨by decide, by decide, by decide, by decide, ⟨_, _, rfl, rfl, rfl, rfl, rfl, by decide, by decide⟩, by decide, by decide, by decide⟩

theorem witness_CommandEndsWithinStepBound : let s := polled (ready 8 8 [0, 65]);
    IsIdle s ∧ HostOnlyReads s ∧ (∀ j < s.inLen.toNat, s.inBuf.read j ≠ none) ∧ (∃ a, exec .compress s = .next a) ∧
    ∃ a, exec .decompress s = .next a := ⟨by decide, by decide, by decide, ⟨_, rfl⟩, _, rfl⟩

/-- Two blocks with different pasts: one has results of an earlier command. -/
theorem witness_EndStateIgnoresHistory :
    let s := polled (ready 8 8 [65]); let s' := { ready 8 8 [65, 66] with inLen := 1, status := 0x32, outLen := 2, errPos := 7 };
    IsIdle s ∧ IsIdle s' ∧ HostOnlyReads s ∧ HostOnlyReads s' ∧ s.inLen = s'.inLen ∧ s.inCapR = s'.inCapR ∧ s.outCapR = s'.outCapR ∧
    (s.inLen.toNat ≤ s.inCapR.toNat → ∀ j < s.inLen.toNat, s.inBuf.read j = s'.inBuf.read j) ∧ (∃ a', exec .compress s' = .next a') ∧
    ∃ a t, exec .compress s = .next a ∧ runSteps 3 a = .next t ∧ t.phase = .idle :=
  ⟨by decide, by decide, by decide, by decide, rfl, rfl, rfl, by decide, ⟨_, rfl⟩, _, _, rfl, rfl, rfl⟩

theorem shape_encodingAAA : DictionaryShape (encodingAAA 8) := by
  have hlen : seeds.length = 256 := Laws.seeds_length
  refine ⟨fun h => (by cases h), fun _ => ⟨show (seeds ++ [[65, 65]]).length = 257 by simp [hlen], by decide, by decide, ?_, ?_⟩⟩
  · intro i hi
    show (seeds ++ [[65, 65]])[i]? = _
    rw [List.getElem?_append_left (by omega)]
    exact Laws.seeds_getElem? hi
  · intro n h1 h2
    obtain rfl : n = 256 := by have : n < 257 := h2; omega
    exact ⟨65, by omega, [65], 65, by decide, by decide⟩

/-- Entry 256 is the first that is no seed. -/
theorem witness_EntryLengthBound : (encodingAAA 8).phase ≠ .idle ∧ DictionaryShape (encodingAAA 8) ∧ 256 ≤ 256 ∧
    dictEntry (encodingAAA 8) 256 = some [65, 65] := ⟨by decide, shape_encodingAAA, le_rfl, by decide⟩

/-- L2-D2: three bytes from two codes, the most there can be. -/
theorem witness_DecodeOutputBound : decodeRef [65, 256] = .ok [65, 65, 65] := by decide

end Sys2Proof.Tests
end

/-! Proofs of the statements of 00_scope.md: the cursors of a running command (R12, R34, R35, R160, R163) and the length of a dictionary
entry (R10). -/

namespace Sys2Proof.Proofs

open Sys2Proof.Machine Sys2Proof.Laws

/-! ### CursorsInRange -/

/-- An idle block has no cursors to keep in range. -/
theorem cursorsInRange_of_idle {s : State} (h : s.phase = .idle) : CursorsInRange s := fun hp => absurd h hp

/-- The predicate sees the sequencer, the latched length, the two cursors and the capacities only. -/
theorem cursorsInRange_congr {s t : State} (hs : CursorsInRange s) (hphase : t.phase = s.phase) (hnIn : t.nIn = s.nIn)
    (hip : t.ip = s.ip) (hop : t.op = s.op) (hin : t.inCapR = s.inCapR) (hout : t.outCapR = s.outCapR) : CursorsInRange t := by
  simpa only [CursorsInRange, codeCount, hphase, hnIn, hip, hop, hin, hout] using hs

theorem cursorsInRange_takeAction {s : State} (a : HostAction) (rest : List HostAction) (hs : CursorsInRange s) :
    CursorsInRange (takeAction a rest s) := cursorsInRange_congr hs rfl rfl rfl rfl rfl rfl

theorem cursorsInRange_blockTurn {s : State} (hs : CursorsInRange s) : CursorsInRange (blockTurn s) :=
  cursorsInRange_congr hs rfl rfl rfl rfl rfl rfl

theorem cursorsInRange_hostPoll {s : State} (hs : CursorsInRange s) : CursorsInRange (hostPoll s) := by
  obtain ⟨h, hpoll⟩ := hostPoll_frame s
  rw [hpoll]
  exact cursorsInRange_congr hs rfl rfl rfl rfl rfl rfl

/-! ### A command's acceptance and the block's steps keep the cursors in range -/

/-- Acceptance puts both cursors at 0 and has checked the input's length (R183, R160), whatever stood before. -/
theorem exec_cursorsInRange {i : Instr} {s t : State} (h : exec i s = .next t) : CursorsInRange t := by
  obtain ⟨-, h⟩ := exec_next h
  rcases h with ⟨-, hcap, rfl⟩ | ⟨-, -, rfl⟩ | ⟨-, hcap, heven, rfl⟩ | ⟨-, -, rfl⟩ | ⟨-, -, -, rfl⟩
  · simpa [CursorsInRange] using hcap
  · exact cursorsInRange_of_idle rfl
  · simpa [CursorsInRange] using ⟨hcap, heven⟩
  · exact cursorsInRange_of_idle rfl
  · exact cursorsInRange_of_idle rfl

/-- ENC.BYTE moves the output cursor by one whole code that fits, or not at all (R102, R163). -/
theorem encByte_op_toNat {s t : State} (h : encByte s = .done t) :
    t.op = s.op ∨ s.op.toNat + 2 ≤ s.outCapR.toNat ∧ t.op.toNat = s.op.toNat + 2 := by
  obtain ⟨c, t0, -, h0, rfl⟩ := encByte_done h
  rcases encMatch_done h0 with ⟨-, rfl⟩ | ⟨-, n, -, rfl⟩ | ⟨-, -, w, -, -, hcap, rfl⟩
  · exact .inl rfl
  · exact .inl rfl
  · refine .inr ⟨hcap, ?_⟩
    rw [insertEntry_op]
    exact putBytes_op_toNat hcap

theorem encByte_cursorsInRange {s t : State} (hs : CursorsInRange s) (hp : s.phase = .enc) (hlt : s.ip.toNat < s.nIn.toNat)
    (h : encByte s = .done t) : CursorsInRange t := by
  obtain ⟨hnIn, hop, henc, -⟩ := hs (by simp [hp])
  obtain ⟨-, heven⟩ := henc hp
  obtain ⟨-, tphase, tnIn, tip, -, -, -, -, -, tin, tout, -⟩ := encByte_frame h
  have hop' : t.op.toNat ≤ s.outCapR.toNat ∧ t.op.toNat % 2 = 0 := by
    rcases encByte_op_toNat h with h | ⟨hcap, h⟩ <;> rw [h] <;> omega
  have hip : (s.ip + 1).toNat ≤ s.nIn.toNat := by rw [cursor_succ_toNat hlt]; exact hlt
  intro _
  rw [tnIn, tin, tout, tip, tphase, hp]
  exact ⟨hnIn, hop'.1, fun _ => ⟨hip, hop'.2⟩, nofun⟩

/-- What DEC.FIRST and DEC.CODE share: the input cursor moves on by one code, and the output cursor stays within OUT_BUF (R134). -/
theorem cursorsInRange_of_decItem {s t : State} (hs : CursorsInRange s) (hp : s.phase = .dec) (hlt : s.ip.toNat < codeCount s)
    (tphase : t.phase = s.phase) (tnIn : t.nIn = s.nIn) (tip : t.ip = s.ip + 1) (tin : t.inCapR = s.inCapR)
    (tout : t.outCapR = s.outCapR) (hop : t.op.toNat ≤ s.outCapR.toNat) : CursorsInRange t := by
  obtain ⟨hnIn, -, -, hdec⟩ := hs (by simp [hp])
  obtain ⟨heven, -⟩ := hdec hp
  have hip : (s.ip + 1).toNat ≤ s.nIn.toNat / 2 := by
    rw [cursor_succ_toNat (Nat.lt_of_lt_of_le hlt (Nat.div_le_self _ 2))]
    exact hlt
  intro _
  rw [codeCount, tnIn, tin, tout, tip, tphase, hp]
  exact ⟨hnIn, hop, nofun, fun _ => ⟨heven, hip⟩⟩

theorem decFirst_op_le {s t : State} (h : decFirst s = .done t) : t.op.toNat ≤ s.outCapR.toNat := by
  obtain ⟨k, -, -, hcap, rfl⟩ := decFirst_done h
  exact (putBytes_op_toNat hcap).trans_le hcap

theorem decCode_op_le {s t : State} (h : decCode s = .done t) : t.op.toNat ≤ s.outCapR.toNat := by
  obtain ⟨k, w, e, b, -, -, -, -, hcap, rfl⟩ := decCode_done h
  rw [insertEntry_op]
  exact (putBytes_op_toNat hcap).trans_le hcap

theorem encFlush_phase {s t : State} (h : encFlush s = .done t) : t.phase = .idle := by
  rcases encFlush_done h with ⟨-, -, -, rfl⟩ | ⟨-, rfl⟩ <;> rfl

/-- An item done moves the cursors on within their range; the other steps end the command. -/
theorem blockStep_cursorsInRange {s t : State} (hs : CursorsInRange s) (h : blockStep s = .next t) : CursorsInRange t := by
  rcases blockStep_cases h with ⟨hp, hlt, h⟩ | ⟨hp, hlt, -, h⟩ | ⟨hp, hlt, -, h⟩ | ⟨-, -, h⟩ | ⟨-, -, rfl⟩ | ⟨e, pos, -, rfl⟩
  · exact encByte_cursorsInRange hs hp hlt h
  · obtain ⟨-, tphase, tnIn, tip, -, -, -, -, -, tin, tout, -⟩ := decFirst_frame h
    exact cursorsInRange_of_decItem hs hp hlt tphase tnIn tip tin tout (decFirst_op_le h)
  · obtain ⟨-, tphase, tnIn, tip, -, -, -, -, -, tin, tout, -⟩ := decCode_frame h
    exact cursorsInRange_of_decItem hs hp hlt tphase tnIn tip tin tout (decCode_op_le h)
  · exact cursorsInRange_of_idle (encFlush_phase h)
  · exact cursorsInRange_of_idle rfl
  · exact cursorsInRange_of_idle rfl

/-- Settles O39: a CMD write starts a command with its cursors in range, RESET and the end of a command stop it, an item moves the
cursors on within their range, and no other host action touches them. -/
theorem stepKeepsCursorsInRange : Obligations.StepKeepsCursorsInRange := by
  intro s t hs h
  rcases step_cases h with ⟨-, -, rfl⟩ | ⟨a, rest, s1, -, -, hs1, h⟩ | ⟨-, -, h⟩
  · exact hs
  · have hs' : CursorsInRange s1 := hs1 ▸ cursorsInRange_takeAction a rest hs
    rcases h with ⟨-, rfl⟩ | ⟨i, h⟩ | ⟨v, -, -, rfl⟩ | rfl | ⟨r, rfl⟩ | ⟨i, v, -, -, -, rfl⟩ | rfl | ⟨-, rfl⟩
    · exact cursorsInRange_congr hs' rfl rfl rfl rfl rfl rfl
    · exact exec_cursorsInRange h
    · exact cursorsInRange_congr hs' rfl rfl rfl rfl rfl rfl
    · exact hs'
    · exact cursorsInRange_congr hs' rfl rfl rfl rfl rfl rfl
    · exact cursorsInRange_congr hs' rfl rfl rfl rfl rfl rfl
    · exact cursorsInRange_hostPoll hs'
    · exact cursorsInRange_of_idle rfl
  · exact blockStep_cursorsInRange (cursorsInRange_blockTurn hs) h

/-! ### The entries of a dictionary that has its shape -/

theorem dictEntry_of_lt {s : State} {k : Nat} (h : k < s.next.toNat) : dictEntry s k = s.dict[k]? := if_pos h

section
variable {s : State} (hs : DictionaryShape s) (hp : s.phase ≠ .idle)
include hs hp

theorem dictEntry_lt_dictCap {n : Nat} {e : Entry} (h : dictEntry s n = some e) : n < 65536 := by
  obtain ⟨-, -, hle, -, -⟩ := hs.2 hp
  exact Nat.lt_of_lt_of_le (dictEntry_some h).1 hle

/-- The seeds, R38. -/
theorem dictEntry_seed {i : Nat} (hi : i < 256) : dictEntry s i = some [BitVec.ofNat 8 i] := by
  obtain ⟨-, hge, -, hseed, -⟩ := hs.2 hp
  rw [dictEntry_of_lt (Nat.lt_of_lt_of_le hi hge), hseed i hi]

/-- Every later entry extends an earlier one by one byte, R45. -/
theorem dictEntry_extends {n : Nat} {e : Entry} (hn : 256 ≤ n) (h : dictEntry s n = some e) :
    ∃ p < n, ∃ w b, dictEntry s p = some w ∧ e = w ++ [b] := by
  obtain ⟨-, -, -, -, hext⟩ := hs.2 hp
  obtain ⟨hlt, h⟩ := dictEntry_some h
  obtain ⟨p, hpn, w, b, hw, he⟩ := hext n hn hlt
  exact ⟨p, hpn, w, b, by rw [dictEntry_of_lt (hpn.trans hlt), hw], Option.some.inj (h.symm.trans he)⟩

/-- A seed has one byte, and each code above the seeds adds one byte at most. -/
theorem dictEntry_length_le {n : Nat} {e : Entry} (h : dictEntry s n = some e) : e.length ≤ max 1 (n - 254) := by
  induction n using Nat.strong_induction_on generalizing e with
  | _ n ih =>
    by_cases hn : n < 256
    · obtain rfl : [BitVec.ofNat 8 n] = e := Option.some.inj ((dictEntry_seed hs hp hn).symm.trans h)
      exact Nat.le_max_left _ _
    · obtain ⟨p, hpn, w, b, hw, rfl⟩ := dictEntry_extends hs hp (by omega) h
      have := ih p hpn hw
      rw [List.length_append, List.length_singleton]
      omega

end

/-- Settles O59, from the bound code by code and the last code, 65535. -/
theorem entryLengthBound : Obligations.EntryLengthBound := by
  intro s n e hp hs hn h
  have hlen := dictEntry_length_le hs hp h
  have hcap := dictEntry_lt_dictCap hs hp h
  omega

end Sys2Proof.Proofs

/-! Proofs of the statements of 10_state.md: STATUS (R24), the buffers (R31, R32), the results (R26 to R28), the dictionary (R37 to R45),
and the host's accesses to registers and buffers (R21 to R31). -/

namespace Sys2Proof.Proofs

open Sys2Proof.Machine Sys2Proof.Laws

/-! ### What a step does to the block -/

/-- What no host sees stays: a predicate that sees neither the host's queue nor its log nor the free values. -/
theorem sameBlock_keeps {P : State → Prop} {s u : State} (hP : ∀ h r d s, P s → P (withHost h r d s)) (hu : SameBlock s u)
    (hs : P s) : P u := by
  rw [hu]
  exact hP _ _ _ _ hs

theorem sameBlock_takeAction (a : HostAction) (rest : List HostAction) (s : State) : SameBlock s (takeAction a rest s) := rfl

theorem sameBlock_logRead (r : BusRead) (s : State) : SameBlock s (logRead r s) := rfl

theorem sameBlock_hostPoll (s : State) : SameBlock s (hostPoll s) := by
  obtain ⟨h, hpoll⟩ := hostPoll_frame s
  rw [hpoll]
  rfl

/-- What a due host action other than a read does to the block `u`: ILLEGAL_CMD, a command's step 0, a write, or RESET. -/
def HostChanges (op : HostOp) (u t : State) : Prop :=
  (u.busy = false ∧ t = { u with status := statusEnded .illegalCmd }) ∨
  (∃ i, exec i u = .next t) ∨
  (∃ v, op = .regWrite 32 0x08 v ∧ t = { u with inLen := v }) ∨
  (∃ i v, op = .inWrite 8 i v ∧ i < u.inCapR.toNat ∧ t = { u with inBuf := u.inBuf.write i v }) ∨
  (op = .reset ∧ t = hostReset u)

/-- Everything a step can do to the block: nothing, what a host action changes, or the running command's step. -/
theorem step_blockCases {s t : State} (h : step s = .next t) :
    ∃ u, SameBlock s u ∧
      (t = u ∨ (∃ a rest, HostMoves s a rest ∧ HostChanges a.op u t) ∨ (u.phase ≠ .idle ∧ blockStep u = .next t)) := by
  rcases step_cases h with ⟨-, -, rfl⟩ | ⟨a, rest, s1, hh, hd, rfl, h⟩ | ⟨hp, -, h⟩
  · exact ⟨t, rfl, .inl rfl⟩
  · have hs1 := sameBlock_takeAction a rest s
    have hm : HostMoves s a rest := ⟨hh, hd⟩
    rcases h with h | h | ⟨v, hop, -, ht⟩ | rfl | ⟨r, rfl⟩ | ⟨i, v, hop, -, hi, ht⟩ | rfl | h
    · exact ⟨_, hs1, .inr (.inl ⟨a, rest, hm, .inl h⟩)⟩
    · exact ⟨_, hs1, .inr (.inl ⟨a, rest, hm, .inr (.inl h)⟩)⟩
    · exact ⟨_, hs1, .inr (.inl ⟨a, rest, hm, .inr (.inr (.inl ⟨v, hop, ht⟩))⟩)⟩
    · exact ⟨_, hs1, .inl rfl⟩
    · exact ⟨_, hs1.trans (sameBlock_logRead r _), .inl rfl⟩
    · exact ⟨_, hs1, .inr (.inl ⟨a, rest, hm, .inr (.inr (.inr (.inl ⟨i, v, hop, hi, ht⟩)))⟩)⟩
    · exact ⟨_, hs1.trans (sameBlock_hostPoll _), .inl rfl⟩
    · exact ⟨_, hs1, .inr (.inl ⟨a, rest, hm, .inr (.inr (.inr (.inr h)))⟩)⟩
  · exact ⟨_, sameBlock_blockTurn s, .inr (.inr ⟨hp, h⟩)⟩

/-- A command's step 0 starts a fresh encoder or decoder, and where its input is refused ends it at once (R101, R131, R183, R201). -/
theorem exec_starts_or_ends {i : Instr} {s t : State} (h : exec i s = .next t) :
    ∃ u, (u = encInit (accept s) ∨ u = decInit (accept s)) ∧
      (t = u ∨ ∃ e pos, (e = .io ∨ e = .framing) ∧ t = commit e pos u) := by
  obtain ⟨-, ⟨-, -, h⟩ | ⟨-, -, h⟩ | ⟨-, -, -, h⟩ | ⟨-, -, h⟩ | ⟨-, -, -, h⟩⟩ := exec_next h
  · exact ⟨_, .inl rfl, .inl h⟩
  · exact ⟨_, .inl rfl, .inr ⟨_, _, .inl rfl, h⟩⟩
  · exact ⟨_, .inr rfl, .inl h⟩
  · exact ⟨_, .inr rfl, .inr ⟨_, _, .inl rfl, h⟩⟩
  · exact ⟨_, .inr rfl, .inr ⟨_, _, .inr rfl, h⟩⟩

/-! ### What a block step does to OUT_BUF -/

/-- From `s` to `t` the block wrote nothing, or a run of bytes at the output cursor that fits OUT_BUF (R134, R163). -/
def Emits (s t : State) : Prop :=
  (t.outBuf = s.outBuf ∧ t.op = s.op) ∨
  ∃ bs, s.op.toNat + bs.length ≤ s.outCapR.toNat ∧ t.outBuf = s.outBuf.writeBytes s.op.toNat bs ∧
    t.op.toNat = s.op.toNat + bs.length

theorem emits_putBytes (bs : List Byte) {s t : State} (hcap : s.op.toNat + bs.length ≤ s.outCapR.toNat)
    (hbuf : t.outBuf = (putBytes bs s).outBuf) (hop : t.op = (putBytes bs s).op) : Emits s t :=
  .inr ⟨bs, hcap, hbuf, by rw [hop, putBytes_op_toNat hcap]⟩

section
variable {s t : State} (h : Emits s t)
include h

theorem Emits.wf (hs : s.outBuf.wf) : t.outBuf.wf := by
  rcases h with ⟨hbuf, -⟩ | ⟨bs, -, hbuf, -⟩ <;> rw [hbuf]
  · exact hs
  · exact wf_writeBytes bs _ hs

/-- No byte at or past OUT_CAP is written. -/
theorem Emits.lt_outCap (hs : ∀ c ∈ s.outBuf, c.1 < s.outCapR.toNat) : ∀ c ∈ t.outBuf, c.1 < s.outCapR.toNat := by
  intro c hc
  rcases h with ⟨hbuf, -⟩ | ⟨bs, hcap, hbuf, -⟩ <;> rw [hbuf] at hc
  · exact hs c hc
  · rcases mem_writeBytes bs hc with hc | ⟨-, hc⟩
    · exact hs c hc
    · exact hc.trans_le hcap

/-- A byte is written in `t` if it was in `s` or lies between the two cursors. -/
theorem Emits.written {i : Nat} (hi : s.outBuf.read i ≠ none ∨ s.op.toNat ≤ i ∧ i < t.op.toNat) : t.outBuf.read i ≠ none := by
  rcases h with ⟨hbuf, hop⟩ | ⟨bs, -, hbuf, hop⟩ <;> rw [hbuf]
  · rw [hop] at hi
    exact hi.resolve_right (by omega)
  · rw [read_writeBytes]
    split_ifs with hin
    · rw [List.getElem?_eq_getElem (by omega)]
      exact Option.some_ne_none _
    · exact hi.resolve_right (by omega)

theorem Emits.written_below_op (hs : ∀ i < s.op.toNat, s.outBuf.read i ≠ none) : ∀ i < t.op.toNat, t.outBuf.read i ≠ none := by
  intro i hi
  by_cases hlt : i < s.op.toNat
  · exact h.written (.inl (hs i hlt))
  · exact h.written (.inr ⟨by omega, hi⟩)

theorem Emits.op_le (hs : s.op.toNat ≤ s.outCapR.toNat) : t.op.toNat ≤ s.outCapR.toNat := by
  rcases h with ⟨-, hop⟩ | ⟨bs, hcap, -, hop⟩ <;> rw [hop]
  · exact hs
  · exact hcap

end

/-! ### What a block step does to STATUS, the results and NEXT -/

/-- One item of the input is done and the command runs on (R102, R132, R133): STATUS and the results stay, bytes are emitted, and NEXT
stays or grows by one entry (R44). -/
structure ItemDone (s t : State) : Prop where
  phase : t.phase = s.phase
  status : t.status = s.status
  outLen : t.outLen = s.outLen
  errPos : t.errPos = s.errPos
  dictNext : t.dictNext = s.dictNext
  outCapR : t.outCapR = s.outCapR
  emits : Emits s t
  next : t.next.toNat = s.next.toNat ∨ s.next.toNat < 65536 ∧ t.next.toNat = s.next.toNat + 1

/-- NEXT after `insert`: one more, or saturated (R44, R106). -/
theorem insertEntry_next_cases (e : Entry) (s : State) :
    (insertEntry e s).next.toNat = s.next.toNat ∨ s.next.toNat < 65536 ∧ (insertEntry e s).next.toNat = s.next.toNat + 1 := by
  rw [insertEntry_next_toNat]
  split_ifs with hn
  · exact .inr ⟨hn, rfl⟩
  · exact .inl rfl

theorem encByte_itemDone {s t : State} (h : encByte s = .done t) : ItemDone s t := by
  obtain ⟨hstatus, hphase, -, -, hout, herr, hdict, -, -, -, hcapR, -⟩ := encByte_frame h
  obtain ⟨c, t0, -, h0, rfl⟩ := encByte_done h
  refine ⟨hphase, hstatus, hout, herr, hdict, hcapR, ?_, ?_⟩ <;>
    rcases encMatch_done h0 with ⟨-, rfl⟩ | ⟨-, n, -, rfl⟩ | ⟨-, -, w, -, -, hcap, rfl⟩
  · exact .inl ⟨rfl, rfl⟩
  · exact .inl ⟨rfl, rfl⟩
  · exact emits_putBytes (bytesOfCode s.wCode) hcap (insertEntry_outBuf _ _) (insertEntry_op _ _)
  · exact .inl rfl
  · exact .inl rfl
  · exact insertEntry_next_cases _ _

theorem decFirst_itemDone {s t : State} (h : decFirst s = .done t) : ItemDone s t := by
  obtain ⟨hstatus, hphase, -, -, hout, herr, hdict, -, -, -, hcapR, -⟩ := decFirst_frame h
  obtain ⟨k, -, -, hcap, rfl⟩ := decFirst_done h
  exact ⟨hphase, hstatus, hout, herr, hdict, hcapR, emits_putBytes [k.setWidth 8] hcap rfl rfl, .inl rfl⟩

theorem decCode_itemDone {s t : State} (h : decCode s = .done t) : ItemDone s t := by
  obtain ⟨hstatus, hphase, -, -, hout, herr, hdict, -, -, -, hcapR, -⟩ := decCode_frame h
  obtain ⟨k, w, e, b, -, -, -, -, hcap, rfl⟩ := decCode_done h
  exact ⟨hphase, hstatus, hout, herr, hdict, hcapR, emits_putBytes e hcap (insertEntry_outBuf _ _) (insertEntry_op _ _),
    insertEntry_next_cases _ _⟩

/-- Everything a block step can come to for STATUS and the results: an item done, or the command ended by `commit` (R188), after the
bytes ENC.FLUSH emits or none. -/
theorem blockStep_itemDone_or_commit {s t : State} (h : blockStep s = .next t) :
    ItemDone s t ∨ ∃ e pos u, t = commit e pos u ∧ (e = .ok ∧ pos = 0 ∨ e = .io ∨ e = .badCode) ∧
      Emits s u ∧ u.next = s.next := by
  rcases blockStep_cases h with ⟨-, -, h⟩ | ⟨-, -, -, h⟩ | ⟨-, -, -, h⟩ | ⟨-, -, h⟩ | ⟨-, -, rfl⟩ | ⟨e, pos, he, rfl⟩
  · exact .inl (encByte_itemDone h)
  · exact .inl (decFirst_itemDone h)
  · exact .inl (decCode_itemDone h)
  · rcases encFlush_done h with ⟨-, -, hcap, rfl⟩ | ⟨-, rfl⟩
    · exact .inr ⟨_, _, _, rfl, .inl ⟨rfl, rfl⟩, emits_putBytes (bytesOfCode s.wCode) hcap rfl rfl, rfl⟩
    · exact .inr ⟨_, _, _, rfl, .inl ⟨rfl, rfl⟩, .inl ⟨rfl, rfl⟩, rfl⟩
  · exact .inr ⟨_, _, _, rfl, .inl ⟨rfl, rfl⟩, .inl ⟨rfl, rfl⟩, rfl⟩
  · exact .inr ⟨e, pos, s, rfl, .inr he, .inl ⟨rfl, rfl⟩, rfl⟩

theorem blockStep_emits {s t : State} (h : blockStep s = .next t) : Emits s t := by
  rcases blockStep_itemDone_or_commit h with h | ⟨e, pos, u, rfl, -, h, -⟩
  · exact h.emits
  · exact h

/-! ### STATUS -/

/-- A command's step 0 leaves STATUS RUNNING or ENDED. -/
theorem exec_statusForms {i : Instr} {s t : State} (h : exec i s = .next t) : StatusForms t ∧ t.status ≠ 0 := by
  obtain ⟨u, rfl | rfl, rfl | ⟨e, pos, rfl | rfl, rfl⟩⟩ := exec_starts_or_ends h <;> simp [StatusForms]

theorem blockStep_statusForms {s t : State} (hs : StatusForms s) (hp : s.phase ≠ .idle) (h : blockStep s = .next t) :
    StatusForms t ∧ t.status ≠ 0 := by
  have hrun : s.status = 0x01#32 := by simpa only [StatusForms, if_neg hp] using hs
  rcases blockStep_itemDone_or_commit h with h | ⟨e, pos, u, rfl, he, -, -⟩
  · rw [StatusForms, h.phase, h.status, if_neg hp, hrun]
    exact ⟨rfl, by decide⟩
  · rcases he with ⟨rfl, -⟩ | rfl | rfl <;> simp [StatusForms]

/-- Settles O37: ILLEGAL_CMD is written only while idle, a command's step 0 and the block's steps leave STATUS RUNNING or ENDED, and the
other host actions but RESET keep it. -/
theorem stepKeepsStatusForms : Obligations.StepKeepsStatusForms := by
  intro s t hs h
  obtain ⟨u, hu, h⟩ := step_blockCases h
  have hs' : StatusForms u := sameBlock_keeps (fun _ _ _ _ h => h) hu hs
  have hstatus : u.status = s.status := hu.eqs.1
  rcases h with rfl | ⟨a, rest, hm, h⟩ | ⟨hp, h⟩
  · exact ⟨hs', fun h0 => .inl (hstatus ▸ h0)⟩
  · rcases h with ⟨hb, rfl⟩ | ⟨i, h⟩ | ⟨v, -, rfl⟩ | ⟨i, v, -, -, rfl⟩ | ⟨hop, rfl⟩
    · have hidle : u.phase = .idle := by
        by_contra hp
        simp [(busy_iff_of_statusForms hs').mpr hp] at hb
      simp [StatusForms, hidle]
    · obtain ⟨ht, hne⟩ := exec_statusForms h
      exact ⟨ht, fun h0 => absurd h0 hne⟩
    · exact ⟨hs', fun h0 => .inl (hstatus ▸ h0)⟩
    · exact ⟨hs', fun h0 => .inl (hstatus ▸ h0)⟩
    · exact ⟨by simp [StatusForms], fun _ => .inr ⟨a, rest, hm, hop⟩⟩
  · obtain ⟨ht, hne⟩ := blockStep_statusForms hs' hp h
    exact ⟨ht, fun h0 => absurd h0 hne⟩

/-! ### The buffers -/

theorem exec_outBuf {i : Instr} {s t : State} (h : exec i s = .next t) : t.outBuf = s.outBuf := by
  obtain ⟨u, rfl | rfl, rfl | ⟨e, pos, -, rfl⟩⟩ := exec_starts_or_ends h <;> rfl

/-- The predicate sees the buffers and the capacities only. -/
theorem buffersCanonical_congr {s t : State} (hs : BuffersCanonical s) (hin : t.inBuf = s.inBuf) (hout : t.outBuf = s.outBuf)
    (hinCap : t.inCapR = s.inCapR) (houtCap : t.outCapR = s.outCapR) : BuffersCanonical t := by
  simpa only [BuffersCanonical, hin, hout, hinCap, houtCap] using hs

/-- The host writes its byte in its place, below IN_CAP (R31, R64). -/
theorem buffersCanonical_inWrite {s : State} {i : Nat} (v : Byte) (hs : BuffersCanonical s) (hi : i < s.inCapR.toNat) :
    BuffersCanonical { s with inBuf := s.inBuf.write i v } := by
  obtain ⟨hinWf, houtWf, hin, hout⟩ := hs
  refine ⟨wf_write i v hinWf, houtWf, fun c hc => ?_, hout⟩
  rcases mem_write hc with rfl | hc
  · exact hi
  · exact hin c hc

theorem blockStep_buffersCanonical {s t : State} (hs : BuffersCanonical s) (h : blockStep s = .next t) : BuffersCanonical t := by
  obtain ⟨hinWf, houtWf, hin, hout⟩ := hs
  obtain ⟨-, -, hinBuf, hinCap, houtCap, -⟩ := blockStep_frame h
  have hemits := blockStep_emits h
  rw [BuffersCanonical, hinBuf, hinCap, houtCap]
  exact ⟨hinWf, hemits.wf houtWf, hin, hemits.lt_outCap hout⟩

/-- Settles O38: the block writes runs of bytes that fit OUT_BUF, the host one byte below IN_CAP, and RESET empties both. -/
theorem stepKeepsBuffersCanonical : Obligations.StepKeepsBuffersCanonical := by
  intro s t hs h
  obtain ⟨u, hu, h⟩ := step_blockCases h
  have hs' : BuffersCanonical u := sameBlock_keeps (fun _ _ _ _ h => h) hu hs
  rcases h with rfl | ⟨a, rest, -, h⟩ | ⟨-, h⟩
  · exact hs'
  · rcases h with ⟨-, rfl⟩ | ⟨i, h⟩ | ⟨v, -, rfl⟩ | ⟨i, v, -, hi, rfl⟩ | ⟨-, rfl⟩
    · exact hs'
    · obtain ⟨-, hin, hinCap, houtCap, -⟩ := exec_frame h
      exact buffersCanonical_congr hs' hin (exec_outBuf h) hinCap houtCap
    · exact hs'
    · exact buffersCanonical_inWrite v hs' hi
    · simp [BuffersCanonical]
  · exact blockStep_buffersCanonical hs' h

/-! ### The results -/

theorem dictNext_toNat (n : BitVec 17) : (n.zeroExtend 32).toNat = n.toNat := by
  have := n.isLt
  simp only [BitVec.toNat_setWidth]
  omega

/-- `commit` publishes `op` and NEXT (R188), so the results are in range where the two are. -/
theorem resultsInRange_commit {e : Err} {pos : Word} {s : State} (hop : s.op.toNat ≤ s.outCapR.toNat)
    (hwritten : ∀ i < s.op.toNat, s.outBuf.read i ≠ none) (hnext : 256 ≤ s.next.toNat ∧ s.next.toNat ≤ 65536)
    (hpos : e = .ok → pos = 0) : ResultsInRange (commit e pos s) := by
  refine ⟨hop, hwritten, fun hp => absurd rfl hp, .inr ?_, fun hp => absurd rfl hp, fun h0 => ?_, fun hok => ?_⟩
  · rwa [commit_dictNext, dictNext_toNat]
  · cases e <;> simp at h0
  · cases e <;> simp at hok ⊢
    exact hpos rfl

/-- A fresh encoder or decoder has emitted nothing and holds the seeds: a running command in range, and one that ends at once leaves its
results in range. -/
theorem exec_resultsInRange {i : Instr} {s t : State} (hs : ResultsInRange s) (h : exec i s = .next t) : ResultsInRange t := by
  obtain ⟨hlen, hbelow, -, hdict, -, -, -⟩ := hs
  obtain ⟨u, hu, ht⟩ := exec_starts_or_ends h
  have hop : u.op = 0 := by rcases hu with rfl | rfl <;> rfl
  have hnext : u.next = 256 := by rcases hu with rfl | rfl <;> rfl
  rcases ht with rfl | ⟨e, pos, he, rfl⟩
  · rcases hu with rfl | rfl <;> simpa [ResultsInRange] using ⟨hlen, hbelow, hdict⟩
  · refine resultsInRange_commit (by simp [hop]) (by simp [hop]) (by simp [hnext]) ?_
    rcases he with rfl | rfl <;> exact nofun

/-- An item done emits at the cursor and grows NEXT, and publishes nothing. -/
theorem itemDone_resultsInRange {s t : State} (hs : ResultsInRange s) (hp : s.phase ≠ .idle) (hrun : s.status = 0x01#32)
    (h : ItemDone s t) : ResultsInRange t := by
  obtain ⟨hlen, hbelow, hout, hdict, hnext, -, -⟩ := hs
  rw [ResultsInRange, h.outLen, h.outCapR, h.dictNext, h.status, hrun]
  refine ⟨hlen, fun i hi => h.emits.written (.inl (hbelow i hi)), fun _ => h.emits.written_below_op (hout hp), hdict,
    fun _ => ?_, nofun, nofun⟩
  have := hnext hp
  have := h.next
  omega

theorem blockStep_resultsInRange {s t : State} (hst : StatusForms s) (hcur : CursorsInRange s) (hs : ResultsInRange s)
    (hp : s.phase ≠ .idle) (h : blockStep s = .next t) : ResultsInRange t := by
  obtain ⟨-, -, -, -, houtCap, -, -⟩ := blockStep_frame h
  rcases blockStep_itemDone_or_commit h with h | ⟨e, pos, u, rfl, he, hemits, hnext⟩
  · exact itemDone_resultsInRange hs hp (by simpa only [StatusForms, if_neg hp] using hst) h
  · obtain ⟨-, -, hout, -, hrange, -, -⟩ := hs
    obtain ⟨-, hop, -, -⟩ := hcur hp
    rw [commit_outCapR] at houtCap
    refine resultsInRange_commit (houtCap ▸ hemits.op_le hop) (hemits.written_below_op (hout hp)) (hnext ▸ hrange hp) fun hok => ?_
    rcases he with ⟨-, hpos⟩ | rfl | rfl
    · exact hpos
    · cases hok
    · cases hok

/-- Settles O40: an item done keeps the range of `op` and NEXT and writes every byte it passes, and the end of a command publishes the
two. -/
theorem stepKeepsResultsInRange : Obligations.StepKeepsResultsInRange := by
  intro s t hst hcur hs h
  obtain ⟨u, hu, h⟩ := step_blockCases h
  have hs' : ResultsInRange u := sameBlock_keeps (fun _ _ _ _ h => h) hu hs
  rcases h with rfl | ⟨a, rest, -, h⟩ | ⟨hp, h⟩
  · exact hs'
  · rcases h with ⟨-, rfl⟩ | ⟨i, h⟩ | ⟨v, -, rfl⟩ | ⟨i, v, -, -, rfl⟩ | ⟨-, rfl⟩
    · obtain ⟨hlen, hbelow, hout, hdict, hnext, -, -⟩ := hs'
      exact ⟨hlen, hbelow, hout, hdict, hnext, by simp, by simp⟩
    · exact exec_resultsInRange hs' h
    · exact hs'
    · exact hs'
    · simp [ResultsInRange]
  · exact blockStep_resultsInRange (sameBlock_keeps (fun _ _ _ _ h => h) hu hst) (sameBlock_keeps (fun _ _ _ _ h => h) hu hcur)
      hs' hp h

/-! ### The dictionary -/

theorem insertEntry_of_lt (e : Entry) {s : State} (h : s.next.toNat < 65536) :
    insertEntry e s = { s with dict := s.dict ++ [e], next := s.next + 1 } := if_pos h

theorem insertEntry_of_saturated (e : Entry) {s : State} (h : 65536 ≤ s.next.toNat) : insertEntry e s = s :=
  if_neg (Nat.not_lt.mpr h)

/-- `insert` keeps every earlier entry. -/
theorem dictEntry_insertEntry_of_lt (e : Entry) {s : State} (hlen : s.dict.length = s.next.toNat) {k : Nat}
    (hk : k < s.next.toNat) : dictEntry (insertEntry e s) k = dictEntry s k := by
  by_cases hn : s.next.toNat < 65536
  · have hk' : k < (insertEntry e s).next.toNat := by rw [insertEntry_next_toNat, if_pos hn]; omega
    rw [dictEntry_of_lt hk', dictEntry_of_lt hk, insertEntry_of_lt e hn]
    exact List.getElem?_append_left (hlen ▸ hk)
  · rw [insertEntry_of_saturated e (Nat.not_lt.mp hn)]

/-- `insert` puts its entry at code NEXT. -/
theorem dictEntry_insertEntry_next (e : Entry) {s : State} (hlen : s.dict.length = s.next.toNat) (hn : s.next.toNat < 65536) :
    dictEntry (insertEntry e s) s.next.toNat = some e := by
  have hk : s.next.toNat < (insertEntry e s).next.toNat := by rw [insertEntry_next_toNat, if_pos hn]; omega
  rw [dictEntry_of_lt hk, insertEntry_of_lt e hn]
  exact hlen ▸ List.getElem?_concat_length

/-- Settles O22: one entry at code NEXT while NEXT is below 65536, and nothing then. -/
theorem insertGrowsUntilSaturated : Obligations.InsertGrowsUntilSaturated := by
  intro s e hlen
  refine ⟨fun hn => ⟨?_, dictEntry_insertEntry_next e hlen hn, fun k => dictEntry_insertEntry_of_lt e hlen, ?_⟩,
    insertEntry_of_saturated e⟩
  · rw [insertEntry_next_toNat, if_pos hn]
  · rw [insertEntry_of_lt e hn]

theorem dictionaryShape_of_idle {s : State} (hp : s.phase = .idle) (hd : s.dict = []) : DictionaryShape s :=
  ⟨fun _ => hd, fun h => absurd hp h⟩

/-- A fresh dictionary: the seeds and no more (R6, R38). -/
theorem dictionaryShape_of_seeds {s : State} (hp : s.phase ≠ .idle) (hd : s.dict = seeds) (hn : s.next = 256) :
    DictionaryShape s := by
  have h256 : s.next.toNat = 256 := by rw [hn]; rfl
  refine ⟨fun h => absurd h hp, fun _ => ?_⟩
  rw [hd, h256, seeds_length]
  exact ⟨rfl, le_rfl, by decide, fun i => seeds_getElem?, fun n hge hlt => absurd hge (Nat.not_le.mpr hlt)⟩

section
variable {s : State} (hs : DictionaryShape s) (hp : s.phase ≠ .idle)
include hs hp

theorem dictEntry_ne_nil {n : Nat} {e : Entry} (h : dictEntry s n = some e) : e ≠ [] := by
  by_cases hn : n < 256
  · obtain rfl : [BitVec.ofNat 8 n] = e := Option.some.inj ((dictEntry_seed hs hp hn).symm.trans h)
    exact List.cons_ne_nil _ _
  · obtain ⟨-, -, w, b, -, rfl⟩ := dictEntry_extends hs hp (Nat.not_lt.mp hn) h
    simp

/-- Inserting a one-byte extension of an entry keeps the dictionary's shape (R44, R45). -/
theorem dictionaryShape_insertEntry {k : Nat} {w : Entry} (b : Byte) (hw : dictEntry s k = some w) :
    DictionaryShape (insertEntry (w ++ [b]) s) := by
  obtain ⟨hlen, hge, -, hseed, hext⟩ := hs.2 hp
  by_cases hn : s.next.toNat < 65536
  · obtain ⟨hk, hw⟩ := dictEntry_some hw
    have old : ∀ {i : Nat} {e : Entry}, s.dict[i]? = some e → (s.dict ++ [w ++ [b]])[i]? = some e := fun h => by
      rw [List.getElem?_append_left (List.getElem?_eq_some_iff.mp h).1, h]
    refine ⟨fun h => absurd (insertEntry_phase _ s ▸ h) hp, fun _ => ?_⟩
    rw [insertEntry_next_toNat, if_pos hn, insertEntry_dict, if_pos hn, List.length_append, List.length_singleton, hlen]
    refine ⟨rfl, by omega, by omega, fun i hi => old (hseed i hi), fun n hn1 hn2 => ?_⟩
    by_cases hlast : n = s.next.toNat
    · exact ⟨k, hlast ▸ hk, w, b, old hw, by rw [hlast, ← hlen, List.getElem?_concat_length]⟩
    · obtain ⟨p, hpn, e, c, he, hec⟩ := hext n hn1 (by omega)
      exact ⟨p, hpn, e, c, old he, old hec⟩
  · rwa [insertEntry_of_saturated _ (Nat.not_lt.mp hn)]

/-- A match that FD does not extend has no extension in the dictionary: no seed is one, and FD knows every later entry (R105). -/
theorem extension_notMem_dict {p : Code} {b : Byte} {w : Entry} (hw : dictEntry s p.toNat = some w)
    (hfd : fdLookup s p b = none) : w ++ [b] ∉ s.dict := by
  obtain ⟨hlen, -⟩ := hs.2 hp
  intro hmem
  obtain ⟨n, hn⟩ := List.mem_iff_getElem?.mp hmem
  have hlt : n < s.next.toNat := hlen ▸ (List.getElem?_eq_some_iff.mp hn).1
  rw [← dictEntry_of_lt hlt] at hn
  by_cases h256 : n < 256
  · have hseed := Option.some.inj ((dictEntry_seed hs hp h256).symm.trans hn)
    have := congrArg List.length hseed
    exact dictEntry_ne_nil hs hp hw (by simpa using this)
  · exact fdLookup_none hw hfd n (Nat.not_lt.mp h256) hn

end

theorem nodup_insertEntry {e : Entry} {s : State} (hd : s.dict.Nodup) (he : e ∉ s.dict) : (insertEntry e s).dict.Nodup := by
  rw [insertEntry_dict]
  split_ifs
  · rw [← List.concat_eq_append]
    exact List.Nodup.concat he hd
  · exact hd

theorem next_le_insertEntry (e : Entry) (s : State) : s.next.toNat ≤ (insertEntry e s).next.toNat := by
  rcases insertEntry_next_cases e s with h | ⟨-, h⟩ <;> omega

theorem cursor_succ_ne_zero {c n : Word} (h : c.toNat < n.toNat) : c + 1 ≠ 0 := by
  intro h0
  have := cursor_succ_toNat h
  rw [h0] at this
  simp at this

/-- R37 to R45, R107 and R42 together: what a running command's dictionary, match and previous code are. -/
structure DictionaryOk (s : State) : Prop where
  shape : DictionaryShape s
  encoder : EncoderMatch s
  decoder : DecoderPrevious s

theorem dictionaryOk_of_idle {s : State} (hp : s.phase = .idle) (hd : s.dict = []) : DictionaryOk s :=
  ⟨dictionaryShape_of_idle hp hd, fun h => by simp [hp] at h, fun h => by simp [hp] at h⟩

theorem exec_dictionaryOk {i : Instr} {s t : State} (h : exec i s = .next t) : DictionaryOk t := by
  obtain ⟨u, hu, rfl | ⟨e, pos, -, rfl⟩⟩ := exec_starts_or_ends h
  · rcases hu with rfl | rfl
    · exact ⟨dictionaryShape_of_seeds nofun rfl rfl, fun _ => ⟨seeds_nodup, nofun, by simp⟩, nofun⟩
    · exact ⟨dictionaryShape_of_seeds nofun rfl rfl, nofun, fun _ => ⟨nofun, by simp⟩⟩
  · exact dictionaryOk_of_idle rfl rfl

/-- ENC.BYTE restarts the match at a seed, or extends it to an entry FD knows, and inserts only what the dictionary has not (R102). -/
theorem encMatch_dictionary {c : Byte} {s t : State} (hp : s.phase = .enc) (hs : DictionaryShape s) (hm : EncoderMatch s)
    (h : encMatch c s = .done t) :
    DictionaryShape t ∧ t.dict.Nodup ∧ t.wValid = true ∧ t.wCode.toNat < t.next.toNat := by
  have hrun : s.phase ≠ .idle := by simp [hp]
  obtain ⟨-, hge, hle, -, -⟩ := hs.2 hrun
  obtain ⟨hd, -, -⟩ := hm hp
  have hseed : (seedCode c).toNat < s.next.toNat := by
    rw [seedCode_toNat]
    exact c.isLt.trans_le hge
  rcases encMatch_done h with ⟨-, rfl⟩ | ⟨hv, n, hn, rfl⟩ | ⟨hv, hfd, w, hw, -, -, rfl⟩
  · exact ⟨hs, hd, rfl, hseed⟩
  · obtain ⟨w, -, -, hent⟩ := fdLookup_some hle hn
    exact ⟨hs, hd, hv, (dictEntry_some hent).1⟩
  · refine ⟨dictionaryShape_insertEntry (s := putBytes _ s) hs hrun c hw, ?_, (insertEntry_wValid _ _).trans hv, ?_⟩
    · exact nodup_insertEntry (s := putBytes _ s) hd (extension_notMem_dict hs hrun hw hfd)
    · exact hseed.trans_le (next_le_insertEntry _ (putBytes _ s))

theorem encByte_dictionaryOk {s t : State} (hp : s.phase = .enc) (hlt : s.ip.toNat < s.nIn.toNat) (hs : DictionaryOk s)
    (h : encByte s = .done t) : DictionaryOk t := by
  obtain ⟨-, hphase, -, hip, -⟩ := encByte_frame h
  obtain ⟨c, t0, -, h0, rfl⟩ := encByte_done h
  obtain ⟨hshape, hmatch, -⟩ := hs
  obtain ⟨hshape', hd, hv, hcode⟩ := encMatch_dictionary hp hshape hmatch h0
  refine ⟨hshape', fun _ => ⟨hd, fun _ => hcode, fun _ => ?_, fun _ => hv⟩, fun hdec => ?_⟩
  · rw [hip]
    exact cursor_succ_ne_zero hlt
  · rw [hphase, hp] at hdec
    cases hdec

/-- What DEC.FIRST and DEC.CODE share: the shape is kept, the code just read is the previous one, and the cursor is past it. -/
theorem dictionaryOk_of_decItem {s t : State} (hp : s.phase = .dec) (hlt : s.ip.toNat < codeCount s) (tphase : t.phase = s.phase)
    (tip : t.ip = s.ip + 1) (hshape : DictionaryShape t) (hfirst : t.firstPending = false)
    (hprev : t.prevCode.toNat < t.next.toNat) : DictionaryOk t := by
  have hne : s.ip + 1 ≠ 0 := cursor_succ_ne_zero (Nat.lt_of_lt_of_le hlt (Nat.div_le_self _ 2))
  refine ⟨hshape, fun henc => ?_, fun _ => ⟨fun _ => hprev, ?_⟩⟩
  · rw [tphase, hp] at henc
    cases henc
  · rw [hfirst, tip]
    exact iff_of_false Bool.false_ne_true hne

theorem decFirst_dictionaryOk {s t : State} (hp : s.phase = .dec) (hlt : s.ip.toNat < codeCount s) (hs : DictionaryShape s)
    (h : decFirst s = .done t) : DictionaryOk t := by
  obtain ⟨-, hphase, -, hip, -⟩ := decFirst_frame h
  obtain ⟨k, -, hk, -, rfl⟩ := decFirst_done h
  obtain ⟨-, hge, -⟩ := hs.2 (by simp [hp])
  exact dictionaryOk_of_decItem hp hlt hphase hip hs rfl (hk.trans_le hge)

/-- The code just read is an entry after the insertion: it was one before, or it is the one inserted (R133). -/
theorem codeEntry_code_lt {s : State} {w e : Entry} {k : Code} (x : Entry) (h : codeEntry s w k = .done e) :
    k.toNat < (insertEntry x s).next.toNat := by
  rcases codeEntry_done h with ⟨hk, -⟩ | ⟨hk, -⟩
  · exact hk.trans_le (next_le_insertEntry x s)
  · have hlt : s.next.toNat < 65536 := hk ▸ k.isLt
    rw [insertEntry_next_toNat, if_pos hlt]
    omega

theorem decCode_dictionaryOk {s t : State} (hp : s.phase = .dec) (hlt : s.ip.toNat < codeCount s)
    (hfirst : s.firstPending = false) (hs : DictionaryShape s) (h : decCode s = .done t) : DictionaryOk t := by
  obtain ⟨-, hphase, -, hip, -⟩ := decCode_frame h
  obtain ⟨k, w, e, b, -, hw, he, -, -, rfl⟩ := decCode_done h
  have hshape : DictionaryShape (insertEntry (w ++ [b]) (putBytes e s)) :=
    dictionaryShape_insertEntry (s := putBytes e s) hs (by simp [hp]) b hw
  exact dictionaryOk_of_decItem hp hlt hphase hip hshape ((insertEntry_firstPending _ _).trans hfirst)
    (codeEntry_code_lt (s := putBytes e s) _ he)

theorem encFlush_dict {s t : State} (h : encFlush s = .done t) : t.dict = [] := by
  rcases encFlush_done h with ⟨-, -, -, rfl⟩ | ⟨-, rfl⟩ <;> rfl

theorem blockStep_dictionaryOk {s t : State} (hs : DictionaryOk s) (h : blockStep s = .next t) : DictionaryOk t := by
  rcases blockStep_cases h with ⟨hp, hlt, h⟩ | ⟨hp, hlt, -, h⟩ | ⟨hp, hlt, hf, h⟩ | ⟨-, -, h⟩ | ⟨-, -, rfl⟩ | ⟨e, pos, -, rfl⟩
  · exact encByte_dictionaryOk hp hlt hs h
  · exact decFirst_dictionaryOk hp hlt hs.shape h
  · exact decCode_dictionaryOk hp hlt hf hs.shape h
  · exact dictionaryOk_of_idle (encFlush_phase h) (encFlush_dict h)
  · exact dictionaryOk_of_idle rfl rfl
  · exact dictionaryOk_of_idle rfl rfl

/-- Settles O41: a command starts with the seeds, an item inserts at most a one-byte extension of an entry (in a COMPRESS one that FD
does not know), and the end of a command and RESET drop the dictionary. -/
theorem stepKeepsDictionaryShape : Obligations.StepKeepsDictionaryShape := by
  intro s t _ hshape hmatch hprev h
  obtain ⟨u, hu, h⟩ := step_blockCases h
  have hs' : DictionaryOk u := sameBlock_keeps (fun _ _ _ _ h => ⟨h.shape, h.encoder, h.decoder⟩) hu ⟨hshape, hmatch, hprev⟩
  suffices hok : DictionaryOk t from ⟨hok.shape, hok.encoder, hok.decoder⟩
  rcases h with rfl | ⟨a, rest, -, h⟩ | ⟨-, h⟩
  · exact hs'
  · rcases h with ⟨-, rfl⟩ | ⟨i, h⟩ | ⟨v, -, rfl⟩ | ⟨i, v, -, -, rfl⟩ | ⟨-, rfl⟩
    · exact ⟨hs'.shape, hs'.encoder, hs'.decoder⟩
    · exact exec_dictionaryOk h
    · exact ⟨hs'.shape, hs'.encoder, hs'.decoder⟩
    · exact ⟨hs'.shape, hs'.encoder, hs'.decoder⟩
    · exact dictionaryOk_of_idle rfl rfl
  · exact blockStep_dictionaryOk hs' h

/-! ### The input and the capacities -/

/-- Settles O47: a command's step 0 and the block's steps keep the capacities, and so does every host action, RESET included. -/
theorem stepKeepsCapacities : Obligations.StepKeepsCapacities := by
  intro s t h
  obtain ⟨u, hu, h⟩ := step_blockCases h
  obtain ⟨-, -, -, -, -, -, hin, hout, -, -⟩ := hu.eqs
  rw [← hin, ← hout]
  rcases h with rfl | ⟨a, rest, -, h⟩ | ⟨-, h⟩
  · exact ⟨rfl, rfl⟩
  · rcases h with ⟨-, rfl⟩ | ⟨i, h⟩ | ⟨v, -, rfl⟩ | ⟨i, v, -, -, rfl⟩ | ⟨-, rfl⟩
    · exact ⟨rfl, rfl⟩
    · obtain ⟨-, -, hinCap, houtCap, -⟩ := exec_frame h
      exact ⟨hinCap, houtCap⟩
    · exact ⟨rfl, rfl⟩
    · exact ⟨rfl, rfl⟩
    · exact ⟨rfl, rfl⟩
  · obtain ⟨-, -, -, hinCap, houtCap, -⟩ := blockStep_frame h
    exact ⟨hinCap, houtCap⟩

theorem exec_resets {i : Instr} {s t : State} (h : exec i s = .next t) : t.resets = s.resets := by
  obtain ⟨u, rfl | rfl, rfl | ⟨e, pos, -, rfl⟩⟩ := exec_starts_or_ends h <;> rfl

theorem encFlush_resets {s t : State} (h : encFlush s = .done t) : t.resets = s.resets := by
  rcases encFlush_done h with ⟨-, -, -, rfl⟩ | ⟨-, rfl⟩ <;> rfl

theorem blockStep_resets {s t : State} (h : blockStep s = .next t) : t.resets = s.resets := by
  rcases blockStep_cases h with ⟨-, -, h⟩ | ⟨-, -, -, h⟩ | ⟨-, -, -, h⟩ | ⟨-, -, h⟩ | ⟨-, -, rfl⟩ | ⟨e, pos, -, rfl⟩
  · obtain ⟨-, -, -, -, -, -, -, -, -, -, -, -, -, hresets⟩ := encByte_frame h
    exact hresets
  · obtain ⟨-, -, -, -, -, -, -, -, -, -, -, -, -, hresets⟩ := decFirst_frame h
    exact hresets
  · obtain ⟨-, -, -, -, -, -, -, -, -, -, -, -, -, hresets⟩ := decCode_frame h
    exact hresets
  · exact encFlush_resets h
  · rfl
  · rfl

/-- A byte of IN_BUF as the host reads it depends on what is written there and on the number of RESETs only (R31). -/
theorem inByteValue_congr {s t : State} (hbuf : t.inBuf = s.inBuf) (hresets : t.resets = s.resets) (i : Nat) :
    inByteValue i t = inByteValue i s := by
  rw [inByteValue, inByteValue, hbuf, hresets]

/-- The input is as before: IN_LEN, IN_BUF, and the free contents of IN_BUF. -/
structure SameInput (s t : State) : Prop where
  inLen : t.inLen = s.inLen
  inBuf : t.inBuf = s.inBuf
  resets : t.resets = s.resets

theorem SameInput.trans {s t u : State} (hs : SameInput s t) (ht : SameInput t u) : SameInput s u :=
  ⟨ht.inLen.trans hs.inLen, ht.inBuf.trans hs.inBuf, ht.resets.trans hs.resets⟩

theorem sameInput_of_sameBlock {s t : State} (h : SameBlock s t) : SameInput s t := by
  rw [h]
  exact ⟨rfl, rfl, rfl⟩

theorem blockStep_sameInput {s t : State} (h : blockStep s = .next t) : SameInput s t := by
  obtain ⟨-, hlen, hbuf, -⟩ := blockStep_frame h
  exact ⟨hlen, hbuf, blockStep_resets h⟩

theorem exec_sameInput {i : Instr} {s t : State} (h : exec i s = .next t) : SameInput s t := by
  obtain ⟨hlen, hbuf, -⟩ := exec_frame h
  exact ⟨hlen, hbuf, exec_resets h⟩

/-- Everything a step can do to the input: nothing, the host's write of IN_LEN or of one byte, or RESET. -/
theorem step_inputCases {s t : State} (h : step s = .next t) :
    SameInput s t ∨ ∃ a rest, HostMoves s a rest ∧
      (a.op = .reset ∨
       (a.op = .regWrite 32 0x08 t.inLen ∧ t.inBuf = s.inBuf ∧ t.resets = s.resets) ∨
       (∃ i v, a.op = .inWrite 8 i v ∧ t.inLen = s.inLen ∧ t.inBuf = s.inBuf.write i v ∧ t.resets = s.resets)) := by
  obtain ⟨u, hu, h⟩ := step_blockCases h
  have hsame : SameInput s u := sameInput_of_sameBlock hu
  rcases h with rfl | ⟨a, rest, hm, h⟩ | ⟨-, h⟩
  · exact .inl hsame
  · rcases h with ⟨-, rfl⟩ | ⟨i, h⟩ | ⟨v, hop, rfl⟩ | ⟨i, v, hop, -, rfl⟩ | ⟨hop, -⟩
    · exact .inl (hsame.trans ⟨rfl, rfl, rfl⟩)
    · exact .inl (hsame.trans (exec_sameInput h))
    · exact .inr ⟨a, rest, hm, .inr (.inl ⟨hop, hsame.inBuf, hsame.resets⟩)⟩
    · exact .inr ⟨a, rest, hm, .inr (.inr ⟨i, v, hop, hsame.inLen, hsame.inBuf ▸ rfl, hsame.resets⟩)⟩
    · exact .inr ⟨a, rest, hm, .inl hop⟩
  · exact .inl (hsame.trans (blockStep_sameInput h))

/-- Settles O46: each of the three parts by the same cases of what a step does to the input. -/
theorem onlyHostWritesInput : Obligations.OnlyHostWritesInput := by
  intro s t h
  rcases step_inputCases h with ⟨hlen, hbuf, hresets⟩ | ⟨a, rest, hm, hop | ⟨hop, hbuf, hresets⟩ | ⟨i, v, hop, hlen, hbuf, hresets⟩⟩
  · exact ⟨.inl hlen, .inl hbuf, .inl (inByteValue_congr hbuf hresets)⟩
  · exact ⟨.inr ⟨a, rest, hm, .inl hop⟩, .inr ⟨a, rest, hm, .inl hop⟩, .inr ⟨a, rest, hm, .inl hop⟩⟩
  · exact ⟨.inr ⟨a, rest, hm, .inr hop⟩, .inl hbuf, .inl (inByteValue_congr hbuf hresets)⟩
  · refine ⟨.inl hlen, .inr ⟨a, rest, hm, .inr ⟨i, v, hop, hbuf⟩⟩, .inr ⟨a, rest, hm, .inr ⟨i, v, hop, ?_, fun j hj => ?_⟩⟩⟩
    · rw [inByteValue, hbuf, read_write_same, Option.getD_some]
    · rw [inByteValue, inByteValue, hbuf, hresets, read_write_other _ _ hj]

/-! ### The host's accesses -/

/-- While idle a read takes no free value, so only the queue changes (R66). -/
theorem takeAction_of_idleRead {a : HostAction} {s : State} (rest : List HostAction) (hr : a.op.isRead = true)
    (hb : s.busy = false) : takeAction a rest s = { s with host := rest } := by
  rw [takeAction, freshDraw_of_isRead hr, hb]
  rfl

theorem hostAccess_regRead {off : Nat} (s : State) (h : off % 4 = 0) :
    hostAccess (.regRead 32 off) s = .next (logRead (.reg off (regValue off s)) s) := by
  simp [hostAccess, regAccess, h]

theorem hostAccess_regWrite {off : Nat} (v : Word) (s : State) (h : off % 4 = 0) :
    hostAccess (.regWrite 32 off v) s = hostRegWrite off v s := by
  simp [hostAccess, regAccess, h]

theorem hostAccess_inWrite {i : Nat} (v : Byte) {s : State} (h : i < s.inCapR.toNat) :
    hostAccess (.inWrite 8 i v) s = hostInWrite i v s := by
  simp [hostAccess, bufAccess, h]

/-- The register map while idle, R21: no result register is free. -/
theorem regValue_of_idle {s : State} (hb : s.busy = false) (off : Nat) :
    regValue off s =
      if off = 0x00 then 0 else if off = 0x04 then s.status else if off = 0x08 then s.inLen
      else if off = 0x0C then s.outLen else if off = 0x10 then s.errPos else if off = 0x14 then s.dictNext
      else if off = 0x18 then s.inCapR else if off = 0x1C then s.outCapR else 0 := by
  unfold regValue resultReg
  split
  case h_8 h04 h08 h0C h10 h14 h18 h1C =>
    rw [if_neg h04, if_neg h08, if_neg h0C, if_neg h10, if_neg h14, if_neg h18, if_neg h1C, ite_self]
  all_goals simp [hb]

/-- Unmapped offsets read 0, R30. -/
theorem regValue_unmapped {off : Nat} (s : State) (h : 0x20 ≤ off) : regValue off s = 0 := by
  unfold regValue
  split
  case h_8 => rfl
  all_goals omega

/-- A POLL while idle reads STATUS once and is done, R90. -/
theorem hostPoll_of_idle {s : State} (hb : s.busy = false) : hostPoll s = logRead (.reg 0x04 s.status) s := by
  simp [hostPoll, hb]

/-- Settles O26, from the register map while idle. -/
theorem idleRegisterReads : Obligations.IdleRegisterReads := by
  intro s a rest ⟨hh, hd⟩ hb
  rw [step_of_hostDue hh hd]
  refine ⟨fun off hop hal => ?_, fun hop => ?_⟩
  · rw [takeAction_of_idleRead rest (by rw [hop]; rfl) hb, hop, hostAccess_regRead _ hal,
      regValue_of_idle (s := { s with host := rest }) hb]
    rfl
  · rw [takeAction_of_idleRead rest (by rw [hop]; rfl) hb, hop]
    exact congrArg Host.Outcome.next (hostPoll_of_idle (s := { s with host := rest }) hb)

/-- Settles O28: the write falls through the register map, and the read finds no register. -/
theorem noEffectRegisterAccesses : Obligations.NoEffectRegisterAccesses := by
  intro s a rest off ⟨hh, hd⟩ hal
  rw [step_of_hostDue hh hd]
  refine ⟨fun v hop h0 h8 => ?_, fun hop hoff => ?_⟩
  · rw [hop, hostAccess_regWrite _ _ hal, hostRegWrite, if_neg h0, if_neg h8]
  · rw [hop, hostAccess_regRead _ hal, regValue_unmapped _ hoff]
    rfl

/-- Settles O30: a well-formed write while idle is not refused, and a byte write leaves every other byte. -/
theorem idleInputWrites : Obligations.IdleInputWrites := by
  intro s a rest ⟨hh, hd⟩ hb
  rw [step_of_hostDue hh hd]
  refine ⟨fun v hop => ?_, fun i v hop hi => ⟨{ takeAction a rest s with inBuf := s.inBuf.write i v }, ?_, rfl,
    read_write_same _ i v, fun j hj => read_write_other _ v hj⟩⟩
  · rw [hop, hostAccess_regWrite _ _ rfl, hostRegWrite, if_neg (by decide), if_pos rfl, takeAction_busy, hb]
    rfl
  · rw [hop, hostAccess_inWrite v (s := takeAction a rest s) hi, hostInWrite, takeAction_busy, hb]
    rfl

end Sys2Proof.Proofs

/-! Proofs of the statements of 20_memory.md: which host accesses are refused (R63, R64), what the host's reads return (R66, R72, R74,
R75), and the block's read of an unwritten byte (R73). -/

namespace Sys2Proof.Proofs

open Sys2Proof.Machine Sys2Proof.Laws

/-! ### Ill-formed and well-formed accesses -/

/-- The refusals of R63 and R64. -/
def accessRefusals : List Refusal := [.regWidth, .regAlignment, .bufWidth, .bufRange, .outBufWrite]

/-- A register access of the wrong width or alignment is refused, R63. -/
theorem regAccess_of_illFormed {bits off : Nat} (x : Host.Outcome State Fault Refusal) (h : ¬(bits = 32 ∧ off % 4 = 0)) :
    ∃ r ∈ accessRefusals, regAccess bits off x = .refused r := by
  by_cases hbits : bits = 32
  · have hoff : off % 4 ≠ 0 := fun hoff => h ⟨hbits, hoff⟩
    exact ⟨.regAlignment, by simp [accessRefusals], by simp [regAccess, hbits, hoff]⟩
  · exact ⟨.regWidth, by simp [accessRefusals], if_pos hbits⟩

/-- A buffer access of the wrong width or at or past the size is refused, R64. -/
theorem bufAccess_of_illFormed {bits i cap : Nat} (x : Host.Outcome State Fault Refusal) (h : ¬(bits = 8 ∧ i < cap)) :
    ∃ r ∈ accessRefusals, bufAccess bits i cap x = .refused r := by
  by_cases hbits : bits = 8
  · have hi : cap ≤ i := Nat.le_of_not_lt fun hi => h ⟨hbits, hi⟩
    exact ⟨.bufRange, by simp [accessRefusals], by simp [bufAccess, hbits, hi]⟩
  · exact ⟨.bufWidth, by simp [accessRefusals], if_pos hbits⟩

/-- An access that is not well formed is refused by name, R63 and R64. -/
theorem hostAccess_of_illFormed {op : HostOp} {s : State} (h : op.wellFormed s.inCapR.toNat s.outCapR.toNat = false) :
    ∃ r ∈ accessRefusals, hostAccess op s = .refused r := by
  cases op with
  | regWrite | regRead => exact regAccess_of_illFormed _ (of_decide_eq_false h)
  | inWrite | inRead | outRead => exact bufAccess_of_illFormed _ (of_decide_eq_false h)
  | outWrite => exact ⟨.outBufWrite, by simp [accessRefusals], rfl⟩
  | poll | reset => cases h

/-- An access that answers a state is well formed. -/
theorem wellFormed_of_hostAccess {op : HostOp} {s t : State} (h : hostAccess op s = .next t) :
    op.wellFormed s.inCapR.toNat s.outCapR.toNat = true := by
  by_contra hwf
  obtain ⟨r, -, hr⟩ := hostAccess_of_illFormed (Bool.eq_false_of_not_eq_true hwf)
  cases h.symm.trans hr

/-! ### No well-formed access is refused while idle -/

theorem whenIdle_of_idle {s : State} (hb : s.busy = false) (r : Host.Outcome State Fault Refusal) : whenIdle s r = r := by
  simp [whenIdle, hb]

/-- While idle a command's step 0 is not refused (R180). -/
theorem exec_ne_refused_of_idle (i : Instr) {s : State} (hb : s.busy = false) (r : Refusal) : exec i s ≠ .refused r := by
  cases i
  · exact (whenIdle_of_idle hb _).trans_ne finish_ne_refused
  · exact (whenIdle_of_idle hb _).trans_ne finish_ne_refused

theorem exec_of_idle (i : Instr) {s : State} (hb : s.busy = false) : ∃ t, exec i s = .next t := by
  cases h : exec i s with
  | next t => exact ⟨t, rfl⟩
  | fault f => exact absurd h (exec_ne_fault i s f)
  | refused r => exact absurd h (exec_ne_refused_of_idle i hb r)

/-- While idle every word written to CMD has a meaning: a command, or ILLEGAL_CMD (R180, R182). -/
theorem hostCmdWrite_of_idle (v : Word) {s : State} (hb : s.busy = false) : ∃ t, hostCmdWrite v s = .next t := by
  unfold hostCmdWrite
  split
  · exact exec_of_idle _ hb
  · exact ⟨_, whenIdle_of_idle hb _⟩

theorem hostRegWrite_of_idle (off : Nat) (v : Word) {s : State} (hb : s.busy = false) : ∃ t, hostRegWrite off v s = .next t := by
  unfold hostRegWrite
  split_ifs with h0 h8 hbusy
  · exact hostCmdWrite_of_idle v hb
  · simp [hb] at hbusy
  · exact ⟨_, rfl⟩
  · exact ⟨_, rfl⟩

theorem hostInWrite_of_idle (i : Nat) (v : Byte) {s : State} (hb : s.busy = false) :
    hostInWrite i v s = .next { s with inBuf := s.inBuf.write i v } := by
  simp [hostInWrite, hb]

theorem hostAccess_inRead {i : Nat} {s : State} (h : i < s.inCapR.toNat) :
    hostAccess (.inRead 8 i) s = .next (logRead (.inByte i (inByteValue i s)) s) := by
  simp [hostAccess, bufAccess, h]

theorem hostAccess_outRead {j : Nat} {s : State} (h : j < s.outCapR.toNat) :
    hostAccess (.outRead 8 j) s = .next (logRead (.outByte j (outByteValue j s)) s) := by
  simp [hostAccess, bufAccess, h]

theorem hostAccess_of_wellFormed {op : HostOp} {s : State} (h : op.wellFormed s.inCapR.toNat s.outCapR.toNat = true)
    (hb : s.busy = false) : ∃ t, hostAccess op s = .next t := by
  cases op with
  | regWrite bits off v =>
    obtain ⟨rfl, hoff⟩ := of_decide_eq_true h
    rw [hostAccess_regWrite v s hoff]
    exact hostRegWrite_of_idle off v hb
  | regRead bits off =>
    obtain ⟨rfl, hoff⟩ := of_decide_eq_true h
    exact ⟨_, hostAccess_regRead s hoff⟩
  | inWrite bits i v =>
    obtain ⟨rfl, hi⟩ := of_decide_eq_true h
    exact ⟨_, (hostAccess_inWrite v hi).trans (hostInWrite_of_idle i v hb)⟩
  | inRead bits i =>
    obtain ⟨rfl, hi⟩ := of_decide_eq_true h
    exact ⟨_, hostAccess_inRead hi⟩
  | outRead bits j =>
    obtain ⟨rfl, hj⟩ := of_decide_eq_true h
    exact ⟨_, hostAccess_outRead hj⟩
  | outWrite => cases h
  | poll => exact ⟨_, rfl⟩
  | reset => exact ⟨_, rfl⟩

/-- Settles O29: the due action is the step, and taking it off the queue changes neither the capacities nor BUSY. -/
theorem illFormedAccessIsRefused : Obligations.IllFormedAccessIsRefused := by
  intro s a rest ⟨hh, hd⟩
  rw [step_of_hostDue hh hd]
  exact ⟨fun hwf => hostAccess_of_illFormed (s := takeAction a rest s) hwf,
    fun hwf hb => hostAccess_of_wellFormed (s := takeAction a rest s) hwf hb⟩

/-! ### What a read returns while idle -/

/-- What the read `op` puts into the host's log, with the place it reads. A POLL reads STATUS (R90); the value for an action that is no
read is never used. -/
def readResult (op : HostOp) (s : State) : BusRead :=
  match op with
  | .regRead _ off => .reg off (regValue off s)
  | .inRead _ i => .inByte i (inByteValue i s)
  | .outRead _ j => .outByte j (outByteValue j s)
  | _ => .reg 0x04 s.status

/-- While idle a read, a POLL too, logs its result and does no more (R66, R90). -/
theorem hostAccess_idleRead {op : HostOp} {s t : State} (hr : op.isRead = true) (hb : s.busy = false)
    (h : hostAccess op s = .next t) : t = logRead (readResult op s) s := by
  have hwf := wellFormed_of_hostAccess h
  suffices hread : hostAccess op s = .next (logRead (readResult op s) s) from Host.Outcome.next.inj (h.symm.trans hread)
  cases op with
  | regRead bits off =>
    obtain ⟨rfl, hoff⟩ := of_decide_eq_true hwf
    exact hostAccess_regRead s hoff
  | inRead bits i =>
    obtain ⟨rfl, hi⟩ := of_decide_eq_true hwf
    exact hostAccess_inRead hi
  | outRead bits j =>
    obtain ⟨rfl, hj⟩ := of_decide_eq_true hwf
    exact hostAccess_outRead hj
  | poll => exact congrArg Host.Outcome.next (hostPoll_of_idle hb)
  | regWrite | inWrite | outWrite | reset => cases hr

/-- A read sees neither the host's queue nor its log. -/
theorem readResult_host_reads (op : HostOp) (h : List HostAction) (l : List BusRead) (s : State) :
    readResult op { s with host := h, reads := l } = readResult op s := by
  cases op <;> rfl

/-- A write of IN_LEN shows only in a read of IN_LEN. -/
theorem readResult_inLen {op : HostOp} {c d : Nat} (w : Word) (s : State) (hwf : op.wellFormed c d = true)
    (hop : op ≠ .regRead 32 0x08) : readResult op { s with inLen := w } = readResult op s := by
  cases op with
  | regRead bits off =>
    obtain ⟨rfl, -⟩ := of_decide_eq_true hwf
    have h8 : off ≠ 0x08 := fun h => hop (h ▸ rfl)
    simp only [readResult, BusRead.reg.injEq, true_and]
    unfold regValue
    split
    case h_2 => exact absurd rfl h8
    all_goals rfl
  | regWrite | inWrite | inRead | outWrite | outRead | poll | reset => rfl

/-- A write of one byte of IN_BUF shows only in a read of that byte. -/
theorem readResult_inWrite {op : HostOp} {c d i : Nat} (w : Byte) (s : State) (hwf : op.wellFormed c d = true)
    (hop : op ≠ .inRead 8 i) : readResult op { s with inBuf := s.inBuf.write i w } = readResult op s := by
  cases op with
  | inRead bits j =>
    obtain ⟨rfl, -⟩ := of_decide_eq_true hwf
    have hj : j ≠ i := fun h => hop (h ▸ rfl)
    simp only [readResult, inByteValue, read_write_other _ w hj]
  | regWrite | regRead | inWrite | outWrite | outRead | poll | reset => rfl

/-! ### The host's steps while idle -/

section
variable {s t : State} {a : HostAction} {rest : List HostAction} (h : step s = .next t) (hi : IsIdle s)
  (hh : s.host = a :: rest)
include h hi hh

/-- While idle the pending action is due at once. -/
theorem hostAccess_of_idleStep : hostAccess a.op (takeAction a rest s) = .next t :=
  (step_of_hostDue hh (by simp [hostDue, hi.1])).symm.trans h

/-- R66: an idle read changes the host's queue and log only. -/
theorem step_idleRead (hr : a.op.isRead = true) :
    a.op.wellFormed s.inCapR.toNat s.outCapR.toNat = true ∧
    t = { s with host := rest, reads := s.reads ++ [readResult a.op s] } := by
  have hacc := hostAccess_of_idleStep h hi hh
  have ht := hostAccess_idleRead hr (s := takeAction a rest s) hi.2 hacc
  rw [takeAction_of_idleRead rest hr hi.2, readResult_host_reads a.op rest s.reads] at ht
  exact ⟨wellFormed_of_hostAccess (s := takeAction a rest s) hacc, ht⟩

/-- An idle host action that is no CMD write and no RESET takes no free value (R66): it changes IN_LEN, one byte of IN_BUF, or nothing
but the host's queue and log. -/
theorem step_idleAction (hreset : a.op ≠ .reset) (hcmd : ∀ w, a.op ≠ .regWrite 32 0x00 w) :
    (∃ l, t = { s with host := rest, reads := l }) ∨
    (∃ w, a.op = .regWrite 32 0x08 w ∧ t = { s with host := rest, inLen := w }) ∨
    (∃ i w, a.op = .inWrite 8 i w ∧ t = { s with host := rest, inBuf := s.inBuf.write i w }) := by
  have taken : freshDraw a.op s = false → takeAction a rest s = { s with host := rest } := fun hd => by
    rw [takeAction, hd]
    rfl
  rcases hostAccess_next (hostAccess_of_idleStep h hi hh) with ⟨w, hop, -⟩ | ⟨w, hop, -, rfl⟩ | ⟨off, w, hop, rfl⟩ | ⟨r, hr, rfl⟩ |
    ⟨i, w, hop, -, -, rfl⟩ | ⟨hop, -⟩ | ⟨hop, -⟩
  · exact absurd hop (hcmd w)
  · exact .inr (.inl ⟨w, hop, by rw [taken (by rw [hop]; rfl)]⟩)
  · have hoff : off ≠ 0x00 := fun h0 => hcmd w (h0 ▸ hop)
    exact .inl ⟨s.reads, taken (by simp [hop, freshDraw, hoff])⟩
  · exact .inl ⟨s.reads ++ [r], by rw [taken ((freshDraw_of_isRead hr).trans hi.2)]; rfl⟩
  · exact .inr (.inr ⟨i, w, hop, by rw [taken (by rw [hop]; rfl)]⟩)
  · exact .inl ⟨_, (step_idleRead h hi hh (by rw [hop]; rfl)).2⟩
  · exact absurd hop hreset

end

/-- Settles O33: no read changes what the result of an idle read depends on, and the action between changes it in another place only. -/
theorem idleReadsHaveNoSideEffect : Obligations.IdleReadsHaveNoSideEffect := by
  refine ⟨fun s t u a b rest hi hh hr hba hst htu => ⟨readResult a.op s, ?_⟩,
    fun s t u v a c b rest hi hh hr hba hreset hcmd hlen hbyte hst htu huv => ⟨readResult a.op s, ?_⟩⟩
  · obtain ⟨-, rfl⟩ := step_idleRead hst hi hh hr
    obtain ⟨-, rfl⟩ := step_idleRead htu hi rfl (hba ▸ hr)
    refine ⟨rfl, ?_⟩
    rw [hba, readResult_host_reads, List.append_assoc]
    rfl
  · obtain ⟨hwf, rfl⟩ := step_idleRead hst hi hh hr
    have hsame : IsIdle u ∧ u.host = b :: rest ∧ readResult a.op u = readResult a.op s := by
      rcases step_idleAction htu hi rfl hreset hcmd with ⟨l, rfl⟩ | ⟨w, hop, rfl⟩ | ⟨i, w, hop, rfl⟩
      · exact ⟨hi, rfl, readResult_host_reads a.op _ _ s⟩
      · exact ⟨hi, rfl, (readResult_host_reads a.op _ _ { s with inLen := w }).trans (readResult_inLen w s hwf (hlen w hop))⟩
      · exact ⟨hi, rfl, (readResult_host_reads a.op _ _ { s with inBuf := s.inBuf.write i w }).trans
          (readResult_inWrite w s hwf (hbyte i w hop))⟩
    obtain ⟨hu, huh, hsame⟩ := hsame
    obtain ⟨-, rfl⟩ := step_idleRead huv hu huh (hba ▸ hr)
    exact ⟨rfl, by rw [hba, hsame]⟩

/-! ### The block's read of an unwritten byte -/

theorem memReadIn_of_unwritten {s : State} {i : Nat} (h : s.inBuf.read i = none) : memReadIn s i = .fault .uninitInput :=
  ofOption_fault.mpr ⟨h, rfl⟩

/-- FRM.DES faults at either unwritten byte of the code (R73, R162). -/
theorem frmDes_of_unwritten {s : State} {i : Nat} (h : s.inBuf.read (2 * i) = none ∨ s.inBuf.read (2 * i + 1) = none) :
    frmDes s i = .fault .uninitInput := by
  cases hhi : s.inBuf.read (2 * i) with
  | none => rw [frmDes, memReadIn_of_unwritten hhi, fault_bind]
  | some hi =>
    have hlo : s.inBuf.read (2 * i + 1) = none := h.resolve_left (by simp [hhi])
    rw [frmDes, memReadIn_done.mpr hhi, done_bind, memReadIn_of_unwritten hlo, fault_bind]

theorem encByte_of_unwritten {s : State} (h : s.inBuf.read s.ip.toNat = none) : encByte s = .fault .uninitInput := by
  rw [encByte, memReadIn_of_unwritten h, fault_bind]

theorem decFirst_of_frmDes_fault {s : State} {x : Fault} (h : frmDes s s.ip.toNat = .fault x) : decFirst s = .fault x := by
  rw [decFirst, h, fault_bind]

theorem decCode_of_frmDes_fault {s : State} {x : Fault} (h : frmDes s s.ip.toNat = .fault x) : decCode s = .fault x := by
  rw [decCode, h, fault_bind]

theorem blockStep_encByte {s : State} (hp : s.phase = .enc) (hlt : s.ip.toNat < s.nIn.toNat) :
    blockStep s = finish s (encByte s) := by
  simp [blockStep, hp, hlt]

theorem blockStep_decItem {s : State} (hp : s.phase = .dec) (hlt : s.ip.toNat < codeCount s) :
    blockStep s = finish s (if s.firstPending then decFirst s else decCode s) := by
  simp [blockStep, hp, hlt]

/-- Settles O19: the first thing ENC.BYTE, DEC.FIRST and DEC.CODE do is read their input, and `blockTurn` keeps IN_BUF. -/
theorem unwrittenInputFaults : Obligations.UnwrittenInputFaults := by
  intro s ⟨hrun, hwait⟩
  rw [step_of_blockMoves hrun hwait]
  refine ⟨fun hp hlt hread => ?_, fun hp hlt hread => ?_⟩
  · rw [blockStep_encByte (s := blockTurn s) hp hlt, encByte_of_unwritten (s := blockTurn s) hread, finish]
  · have hdes : frmDes (blockTurn s) (blockTurn s).ip.toNat = .fault .uninitInput := frmDes_of_unwritten (s := blockTurn s) hread
    rw [blockStep_decItem (s := blockTurn s) hp hlt, decFirst_of_frmDes_fault hdes, decCode_of_frmDes_fault hdes, ite_self, finish]

/-! ### What a read returns while BUSY -/

/-- While BUSY a read draws a free value (R72). -/
theorem takeAction_of_busyRead {a : HostAction} {s : State} (rest : List HostAction) (hr : a.op.isRead = true)
    (hb : s.busy = true) : takeAction a rest s = { s with host := rest, draws := s.draws + 1 } := by
  rw [takeAction, freshDraw_of_isRead hr, hb]
  rfl

/-- The register map while BUSY, R72: CMD and the constants as ever, STATUS RUNNING, the results free. -/
theorem regValue_of_busy {s : State} (hb : s.busy = true) (hrun : s.status = 0x00000001#32) :
    ∀ p ∈ [(0x00, 0x00000000#32), (0x04, 0x00000001#32), (0x08, s.inLen), (0x18, s.inCapR), (0x1C, s.outCapR),
        (0x0C, Config.freeWord s.draws 0x0C), (0x10, Config.freeWord s.draws 0x10), (0x14, Config.freeWord s.draws 0x14)],
      p.1 % 4 = 0 ∧ regValue p.1 s = p.2 := by
  simp [regValue, resultReg, hb, hrun]

theorem outByteValue_of_busy {s : State} (hb : s.busy = true) (j : Nat) : outByteValue j s = Config.freeOutByte s.draws j := by
  simp [outByteValue, hb]

/-- A POLL while BUSY reads STATUS and stays pending behind one block step, R90. -/
theorem hostPoll_of_busy {s : State} (hb : s.busy = true) :
    hostPoll s = { logRead (.reg 0x04 s.status) s with host := ⟨1, .poll⟩ :: s.host } := by
  simp [hostPoll, hb]

theorem status_of_busy {s : State} (hs : StatusForms s) (hb : s.busy = true) : s.status = 0x00000001#32 := by
  simpa only [StatusForms, if_neg ((busy_iff_of_statusForms hs).mp hb)] using hs

/-- Settles O27: each access on the state that the read's fresh draw leaves. -/
theorem busyReads : Obligations.BusyReads := by
  intro s a rest ⟨hh, hd⟩ hb hs
  have hrun := status_of_busy hs hb
  have taken : a.op.isRead = true → takeAction a rest s = { s with host := rest, draws := s.draws + 1 } :=
    fun hr => takeAction_of_busyRead rest hr hb
  rw [step_of_hostDue hh hd]
  refine ⟨fun off v hv hop => ?_, fun j hj hop => ?_, fun hop => ?_⟩
  · rw [taken (by rw [hop]; rfl), hop]
    obtain ⟨hoff, hval⟩ := regValue_of_busy (s := { s with host := rest, draws := s.draws + 1 }) hb hrun (off, v) hv
    rw [hostAccess_regRead _ hoff, hval]
    rfl
  · rw [taken (by rw [hop]; rfl), hop, hostAccess_outRead (by exact hj), outByteValue_of_busy (by exact hb)]
    rfl
  · rw [taken (by rw [hop]; rfl), hop, hostAccess, hostPoll_of_busy (by exact hb)]
    simp only [hrun]
    rfl

/-! ### What a read of a buffer returns -/

theorem outByteValue_below_outLen {s : State} {j : Nat} {v : Byte} (hb : s.busy = false) (hj : j < s.outLen.toNat)
    (hv : s.outBuf.read j = some v) : outByteValue j s = v := by
  simp [outByteValue, hb, hj, hv]

theorem outByteValue_past_outLen {s : State} {j : Nat} (hj : s.outLen.toNat ≤ j) :
    outByteValue j s = Config.freeOutByte s.draws j :=
  if_neg fun h => Nat.not_lt.mpr hj h.2

theorem inByteValue_of_written {s : State} {i : Nat} {v : Byte} (h : s.inBuf.read i = some v) : inByteValue i s = v := by
  rw [inByteValue, h, Option.getD_some]

theorem inByteValue_of_unwritten {s : State} {i : Nat} (h : s.inBuf.read i = none) :
    inByteValue i s = Config.freeInByte s.resets i := by
  rw [inByteValue, h, Option.getD_none]

/-- Settles O32: the access reads the byte, and taking the action keeps the buffers; an idle read takes no free value. -/
theorem bufferReads : Obligations.BufferReads := by
  intro s a rest ⟨hh, hd⟩
  rw [step_of_hostDue hh hd]
  refine ⟨fun j v hop hj hb hlt hv => ?_, fun j hop hj hb hle => ?_, fun i v hop hi hv => ?_, fun i hop hi hv => ?_⟩
  · rw [hop, hostAccess_outRead (s := takeAction a rest s) hj, outByteValue_below_outLen (s := takeAction a rest s) hb hlt hv]
    rfl
  · have hdraws : (takeAction a rest s).draws = s.draws := by rw [takeAction_of_idleRead rest (by rw [hop]; rfl) hb]
    rw [hop, hostAccess_outRead (s := takeAction a rest s) hj, outByteValue_past_outLen (s := takeAction a rest s) hle, hdraws]
    rfl
  · rw [hop, hostAccess_inRead (s := takeAction a rest s) hi, inByteValue_of_written (s := takeAction a rest s) hv]
    rfl
  · rw [hop, hostAccess_inRead (s := takeAction a rest s) hi, inByteValue_of_unwritten (s := takeAction a rest s) hv]
    rfl

end Sys2Proof.Proofs

/-! Proofs of the statements of 30_encoding.md: the command word (R80 to R82), and frame and unframe (R84 to R86). -/

namespace Sys2Proof.Proofs

open Sys2Proof.Machine Sys2Proof.Laws

/-! ### frame and unframe -/

@[simp] theorem frame_nil : frame [] = [] := rfl

@[simp] theorem frame_cons (k : Code) (cs : List Code) :
    frame (k :: cs) = k.extractLsb' 8 8 :: k.extractLsb' 0 8 :: frame cs := rfl

theorem length_frame (cs : List Code) : (frame cs).length = 2 * cs.length := by
  induction cs with
  | nil => rfl
  | cons k cs ih => simp only [frame_cons, List.length_cons, ih]; omega

theorem unframe_frame (cs : List Code) : unframe (frame cs) = cs := by
  induction cs with
  | nil => rfl
  | cons k cs ih => rw [frame_cons, unframe, codeOfBytes_bytesOfCode, ih]

/-- By the recursion of `unframe`, two bytes at a time; its last case is the empty stream, a single byte being odd. -/
theorem frame_unframe (y : List Byte) (h : y.length % 2 = 0) : frame (unframe y) = y := by
  induction y using unframe.induct with
  | case1 hi lo y ih =>
    have hy : y.length % 2 = 0 := by simp only [List.length_cons] at h; omega
    calc frame (unframe (hi :: lo :: y))
        = bytesOfCode (codeOfBytes hi lo) ++ frame (unframe y) := rfl
      _ = hi :: lo :: y := by rw [bytesOfCode_codeOfBytes, ih hy]; rfl
  | case2 y short =>
    match y with
    | [] => rfl
    | [b] => cases h
    | hi :: lo :: y => exact (short hi lo y rfl).elim

/-- Settles O24, from R86 on one unit by induction on the codes and on the stream. -/
theorem frameUnframeInverse : Obligations.FrameUnframeInverse :=
  ⟨fun cs => ⟨unframe_frame cs, length_frame cs⟩, frame_unframe⟩

/-! ### The command word -/

@[simp] theorem rsv_append (r : BitVec 28) (o : BitVec 4) : CmdWord.rsv (r ++ o) = r := BitVec.extractLsb'_append_eq_left

@[simp] theorem op_append (r : BitVec 28) (o : BitVec 4) : CmdWord.op (r ++ o) = o := BitVec.extractLsb'_append_eq_right

/-- A command word is its two fields and nothing else (R80). -/
theorem rsv_append_op (w : Word) : CmdWord.rsv w ++ CmdWord.op w = w :=
  BitVec.extractLsb'_append_extractLsb' (w := 28) (len := 4)

theorem decode_of_rsv_ne_zero {w : Word} (h : CmdWord.rsv w ≠ 0) : decode w = .error (.reservedBits (CmdWord.rsv w)) :=
  if_pos h

theorem decode_of_rsv_zero {w : Word} (h : CmdWord.rsv w = 0) : decode w =
    if CmdWord.op w = 1 then .ok .compress else if CmdWord.op w = 2 then .ok .decompress
    else .error (.reservedOp (CmdWord.op w)) :=
  if_neg (not_not_intro h)

theorem encode_compress : encode .compress = 0x00000001#32 := rfl

theorem encode_decompress : encode .decompress = 0x00000002#32 := rfl

theorem decode_encode (i : Instr) : decode (encode i) = .ok i := by
  cases i with
  | compress => obtain ⟨-, h, -⟩ := Encoding.compress; exact h
  | decompress => obtain ⟨-, h, -⟩ := Encoding.decompress; exact h

/-- Both fields of a legal word are fixed by its command. -/
theorem fields_of_decode_ok {w : Word} {i : Instr} (h : decode w = .ok i) : CmdWord.rsv w = 0 ∧ CmdWord.op w = i.op := by
  by_cases hr : CmdWord.rsv w = 0
  · rw [decode_of_rsv_zero hr] at h
    split_ifs at h with h1 h2 <;> cases h
    · exact ⟨hr, h1⟩
    · exact ⟨hr, h2⟩
  · rw [decode_of_rsv_ne_zero hr] at h
    cases h

/-- The only word of a command is the one the encoder writes. -/
theorem decode_eq_ok_iff {w : Word} {i : Instr} : decode w = .ok i ↔ w = encode i := by
  constructor
  · intro h
    obtain ⟨hr, ho⟩ := fields_of_decode_ok h
    rw [← rsv_append_op w, hr, ho]
    rfl
  · rintro rfl
    exact decode_encode i

theorem decode_eq_error_iff {w : Word} : (∃ e, decode w = .error e) ↔ ∀ i, w ≠ encode i := by
  simp only [ne_eq, ← decode_eq_ok_iff]
  cases decode w <;> simp

/-- Settles O1: a legal word is the word of one of the two commands. -/
theorem decodeLegalWords : Obligations.DecodeLegalWords := by
  intro w
  rw [← encode_compress, ← encode_decompress]
  refine ⟨decode_eq_ok_iff, decode_eq_ok_iff, decode_eq_error_iff.trans ⟨fun h => ⟨h .compress, h .decompress⟩, ?_⟩⟩
  rintro ⟨hc, hd⟩ (_ | _)
  · exact hc
  · exact hd

/-- Settles O2: the fields of the word are the ones it is put together from. -/
theorem opFieldValues : Obligations.OpFieldValues := by
  intro op
  rw [decode_of_rsv_zero (rsv_append 0 op), op_append]
  rfl

/-- Settles O3: the two words are the encoder's, and the third has RSV 1. -/
theorem commandWordsBitByBit : Obligations.CommandWordsBitByBit :=
  ⟨decode_encode .compress, decode_encode .decompress, encode_compress, encode_decompress,
    decode_of_rsv_ne_zero (w := 0x00000011#32) (by decide)⟩

end Sys2Proof.Proofs

/-! Proofs of the statements of 40_encoder.md: the reference function `encode` (R100, R108), the forward lookup (R105), ENC.INIT (R101),
ENC.BYTE (R102), ENC.FLUSH (R103), that no step faults (R107), and the agreement of a COMPRESS with `encode` (R110). -/

namespace Sys2Proof.Proofs

open Sys2Proof.Machine Sys2Proof.Laws

/-! ### `encode`, one byte at a time -/

theorem encodeByte_extend {v : EncodeVars} {c : Byte} (h : v.w ++ [c] ∈ v.E) : encodeByte v c = { v with w := v.w ++ [c] } :=
  if_pos h

theorem encodeByte_mismatch {v : EncodeVars} {c : Byte} (h : v.w ++ [c] ∉ v.E) :
    encodeByte v c = ⟨refInsert v.E (v.w ++ [c]), [c], v.out ++ [codeOf v.E v.w]⟩ := if_neg h

theorem mem_refInsert {E : List Entry} {e : Entry} (e' : Entry) (h : e ∈ E) : e ∈ refInsert E e' := by
  rw [refInsert]
  split_ifs
  · exact List.mem_append_left _ h
  · exact h

theorem length_refInsert (E : List Entry) (e : Entry) :
    (refInsert E e).length = if E.length < 65536 then E.length + 1 else E.length := by
  rw [refInsert, apply_ite List.length, List.length_append, List.length_singleton]

theorem singleton_mem_seeds (c : Byte) : [c] ∈ seeds := by
  refine List.mem_of_getElem? (i := c.toNat) ?_
  rw [seeds_getElem? c.isLt, BitVec.ofNat_toNat, BitVec.setWidth_eq]

/-- The seeds stay in the dictionary (R38). -/
theorem singleton_mem_encodeLoop (x : List Byte) (c : Byte) : [c] ∈ (encodeLoop x).E := by
  induction x using List.reverseRecOn with
  | nil => exact singleton_mem_seeds c
  | append_singleton x b ih =>
    rw [encodeLoop_append]
    by_cases h : (encodeLoop x).w ++ [b] ∈ (encodeLoop x).E
    · rwa [encodeByte_extend h]
    · rw [encodeByte_mismatch h]
      exact mem_refInsert _ ih

/-- The match is empty only before the first byte (R104). -/
theorem encodeLoop_w_eq_nil_iff (x : List Byte) : (encodeLoop x).w = [] ↔ x = [] := by
  induction x using List.reverseRecOn with
  | nil => exact iff_of_true rfl rfl
  | append_singleton x b ih =>
    rw [encodeLoop_append]
    by_cases h : (encodeLoop x).w ++ [b] ∈ (encodeLoop x).E
    · simp [encodeByte_extend h]
    · simp [encodeByte_mismatch h]

/-- Every byte but the first emits at most one code. -/
theorem encodeLoop_out_length_le (x : List Byte) : (encodeLoop x).out.length ≤ x.length - 1 := by
  induction x using List.reverseRecOn with
  | nil => exact le_rfl
  | append_singleton x b ih =>
    rw [encodeLoop_append, List.length_append, List.length_singleton]
    by_cases h : (encodeLoop x).w ++ [b] ∈ (encodeLoop x).E
    · rw [encodeByte_extend h]
      exact ih.trans (by omega)
    · have hx : x ≠ [] := by
        intro hx
        rw [(encodeLoop_w_eq_nil_iff x).mpr hx] at h
        exact h (singleton_mem_encodeLoop x b)
      have := List.length_pos_iff.mpr hx
      rw [encodeByte_mismatch h, List.length_append, List.length_singleton]
      omega

/-- Every code emitted inserts one entry until the dictionary is full (R106). -/
theorem encodeLoop_dict_length (x : List Byte) : (encodeLoop x).E.length = min 65536 (256 + (encodeLoop x).out.length) := by
  induction x using List.reverseRecOn with
  | nil => exact seeds_length
  | append_singleton x b ih =>
    rw [encodeLoop_append]
    by_cases h : (encodeLoop x).w ++ [b] ∈ (encodeLoop x).E
    · rwa [encodeByte_extend h]
    · rw [encodeByte_mismatch h, length_refInsert, List.length_append, List.length_singleton]
      split_ifs <;> omega

/-- `encode` emits its loop's codes, and the match's at the end where there is one. -/
theorem length_encodeRef (x : List Byte) : (encodeRef x).length = if x = [] then 0 else (encodeLoop x).out.length + 1 := by
  by_cases hx : x = []
  · subst hx
    rfl
  · have hw : (encodeLoop x).w ≠ [] := (encodeLoop_w_eq_nil_iff x).not.mpr hx
    rw [encodeRef, encodeFlush, if_neg hw, if_neg hx, List.length_append, List.length_singleton]

/-- Settles O56, from the codes the loop emits and the entries it inserts. -/
theorem encodeCodeCounts : Obligations.EncodeCodeCounts := by
  intro x
  have hout := encodeLoop_out_length_le x
  rw [length_encodeRef, encodeLoop_dict_length]
  by_cases hx : x = []
  · subst hx
    exact ⟨iff_of_true rfl rfl, le_rfl, rfl⟩
  · have := List.length_pos_iff.mpr hx
    rw [if_neg hx, if_neg hx]
    exact ⟨iff_of_false (Nat.succ_ne_zero _) hx, by omega, by omega⟩

/-! ### The forward lookup -/

/-- Where no sequence stands at two codes, an entry has one code. -/
theorem dictEntry_injective {s : State} (hd : s.dict.Nodup) {m n : Nat} {e : Entry} (hm : dictEntry s m = some e)
    (hn : dictEntry s n = some e) : m = n := by
  obtain ⟨-, hm⟩ := dictEntry_some hm
  obtain ⟨-, hn⟩ := dictEntry_some hn
  exact (List.getElem?_inj (List.getElem?_eq_some_iff.mp hm).1 hd).mp (hm.trans hn.symm)

/-- `code(s)` of an entry is the code it stands at, R100. -/
theorem codeOf_of_dictEntry {s : State} (hd : s.dict.Nodup) {k : Code} {e : Entry} (h : dictEntry s k.toNat = some e) :
    codeOf s.dict e = k := by
  obtain ⟨-, h⟩ := dictEntry_some h
  obtain ⟨hk, rfl⟩ := List.getElem?_eq_some_iff.mp h
  rw [codeOf, hd.idxOf_getElem, BitVec.ofNat_toNat, BitVec.setWidth_eq]

theorem mem_dict_of_dictEntry {s : State} {n : Nat} {e : Entry} (h : dictEntry s n = some e) : e ∈ s.dict :=
  List.mem_of_getElem? (dictEntry_some h).2

section
variable {s : State} (hs : DictionaryShape s) (hp : s.phase ≠ .idle)
include hs hp

theorem dictEntry_seedCode (c : Byte) : dictEntry s (seedCode c).toNat = some [c] := by
  rw [seedCode_toNat, dictEntry_seed hs hp c.isLt, BitVec.ofNat_toNat, BitVec.setWidth_eq]

theorem dictEntry_ne_none {k : Nat} (hk : k < s.next.toNat) : dictEntry s k ≠ none := by
  obtain ⟨hlen, -⟩ := hs.2 hp
  rw [dictEntry_of_lt hk, List.getElem?_eq_getElem (hlen ▸ hk)]
  exact Option.some_ne_none _

variable {p : Code} {b : Byte} {w : Entry} (hw : dictEntry s p.toNat = some w)
include hw

/-- What FD answers is an entry `w ++ [b]`. -/
theorem dictEntry_of_fdLookup {n : Code} (h : fdLookup s p b = some n) :
    256 ≤ n.toNat ∧ dictEntry s n.toNat = some (w ++ [b]) := by
  obtain ⟨-, -, hle, -⟩ := hs.2 hp
  obtain ⟨w', hw', hn, hent⟩ := fdLookup_some hle h
  cases hw.symm.trans hw'
  exact ⟨hn, hent⟩

theorem fdLookup_eq_none_iff : fdLookup s p b = none ↔ w ++ [b] ∉ s.dict := by
  refine ⟨extension_notMem_dict hs hp hw, fun h => Option.eq_none_iff_forall_ne_some.mpr fun n hn => h ?_⟩
  exact mem_dict_of_dictEntry (dictEntry_of_fdLookup hs hp hw hn).2

/-- FD answers every code above the seeds at which `w ++ [b]` stands, where that is one code only. -/
theorem fdLookup_eq_some_iff (hd : s.dict.Nodup) {n : Code} :
    fdLookup s p b = some n ↔ 256 ≤ n.toNat ∧ dictEntry s n.toNat = some (w ++ [b]) := by
  refine ⟨dictEntry_of_fdLookup hs hp hw, fun ⟨_, hent⟩ => ?_⟩
  have hne : fdLookup s p b ≠ none := fun h => (fdLookup_eq_none_iff hs hp hw).mp h (mem_dict_of_dictEntry hent)
  obtain ⟨m, hm⟩ := Option.ne_none_iff_exists'.mp hne
  have hmn := dictEntry_injective hd (dictEntry_of_fdLookup hs hp hw hm).2 hent
  rw [hm, BitVec.eq_of_toNat_eq hmn]

end

/-- Settles O23: FD finds an entry and misses none, and no sequence stands at two codes of an encoder's dictionary. -/
theorem forwardLookupIsExact : Obligations.ForwardLookupIsExact := by
  intro s p b w hp hs hm hw
  have hrun : s.phase ≠ .idle := by simp [hp]
  obtain ⟨hd, -⟩ := hm hp
  exact ⟨fun n => fdLookup_eq_some_iff hs hrun hw hd, fdLookup_eq_none_iff hs hrun hw⟩

/-! ### ENC.INIT -/

/-- Settles O6: an accepted COMPRESS is `accept` and ENC.INIT, the capacity check having passed. -/
theorem compressAcceptsFreshEncoder : Obligations.CompressAcceptsFreshEncoder := by
  intro s hb hcap
  have hcheck : capacityCheck (encInit (accept s)) = .done (encInit (accept s)) := if_neg (Nat.not_lt.mpr hcap)
  rw [exec, execCompress, whenIdle_of_idle hb, hcheck, finish, encInit, accept, statusRunning_eq]
  rfl

/-! ### ENC.BYTE -/

theorem frmSer_of_room {k : Code} {s : State} (hk : k.toNat < s.next.toNat) (hcap : s.op.toNat + 2 ≤ s.outCapR.toNat) :
    frmSer k s = .done (putBytes (bytesOfCode k) s) := by
  rw [frmSer, if_neg (Nat.not_le.mpr hk), if_neg (Nat.not_lt.mpr hcap)]

theorem frmSer_of_noRoom {k : Code} {s : State} (hk : k.toNat < s.next.toNat) (hcap : s.outCapR.toNat < s.op.toNat + 2) :
    frmSer k s = .raise .io s.ip := by
  rw [frmSer, if_neg (Nat.not_le.mpr hk), if_pos hcap]

section
variable {s : State} {c : Byte}

theorem encMatch_start (hv : s.wValid = false) : encMatch c s = .done { s with wCode := seedCode c, wValid := true } := by
  simp [encMatch, hv]

theorem encMatch_extend {n : Code} (hv : s.wValid = true) (hn : fdLookup s s.wCode c = some n) :
    encMatch c s = .done { s with wCode := n } := by
  simp [encMatch, hv, hn]

theorem encMatch_mismatch (hv : s.wValid = true) (hfd : fdLookup s s.wCode c = none) : encMatch c s = encMismatch c s := by
  simp [encMatch, hv, hfd]

theorem encMismatch_of_room {w : Entry} (hw : dictEntry s s.wCode.toNat = some w) (hcap : s.op.toNat + 2 ≤ s.outCapR.toNat) :
    encMismatch c s = .done { insertEntry (w ++ [c]) (putBytes (bytesOfCode s.wCode) s) with wCode := seedCode c } := by
  have hw' : entryAt (putBytes (bytesOfCode s.wCode) s) s.wCode = .done w := entryAt_done.mpr hw
  rw [encMismatch, frmSer_of_room (dictEntry_some hw).1 hcap, done_bind, putBytes_wCode, hw', done_bind]

theorem encMismatch_of_noRoom {w : Entry} (hw : dictEntry s s.wCode.toNat = some w) (hcap : s.outCapR.toNat < s.op.toNat + 2) :
    encMismatch c s = .raise .io s.ip := by
  rw [encMismatch, frmSer_of_noRoom (dictEntry_some hw).1 hcap, raise_bind]

variable (hm : BlockMoves s) (hp : s.phase = .enc) (hlt : s.ip.toNat < s.nIn.toNat) (hread : s.inBuf.read s.ip.toNat = some c)
include hm hp hlt hread

/-- The step of a COMPRESS that has input left is ENC.BYTE on the byte at the cursor. -/
theorem step_encByte : step s = finish (blockTurn s)
    ((encMatch c (blockTurn s)).bind fun t => .done { t with ip := t.ip + 1 }) := by
  obtain ⟨hrun, hwait⟩ := hm
  have hread' : memReadIn (blockTurn s) (blockTurn s).ip.toNat = .done c := memReadIn_done.mpr hread
  rw [step_of_blockMoves hrun hwait, blockStep_encByte (s := blockTurn s) hp hlt, encByte, hread', done_bind]

theorem step_encByte_done {t : State} (h : encMatch c (blockTurn s) = .done t) : step s = .next { t with ip := t.ip + 1 } := by
  rw [step_encByte hm hp hlt hread, h, done_bind, finish]

theorem step_encByte_raise {e : Err} {pos : Word} (h : encMatch c (blockTurn s) = .raise e pos) :
    step s = .next (commit e pos (blockTurn s)) := by
  rw [step_encByte hm hp hlt hread, h, raise_bind, finish]

end

/-- Settles O12: the two branches of ENC.BYTE that leave OUT_BUF and the dictionary alone. -/
theorem encByteStartsOrExtendsMatch : Obligations.EncByteStartsOrExtendsMatch := by
  intro s c hm hp hlt hread
  refine ⟨fun hv => ?_, fun n hv hn => ?_⟩
  · rw [step_encByte_done hm hp hlt hread (encMatch_start (s := blockTurn s) hv)]
    rfl
  · rw [step_encByte_done hm hp hlt hread (encMatch_extend (s := blockTurn s) hv hn)]
    rfl

/-- `insert` as one record, R44. -/
theorem insertEntry_eq (e : Entry) (s : State) : insertEntry e s = { s with
    dict := if s.next.toNat < 65536 then s.dict ++ [e] else s.dict
    next := if s.next.toNat < 65536 then s.next + 1 else s.next } := by
  by_cases hn : s.next.toNat < 65536
  · rw [insertEntry_of_lt e hn, if_pos hn, if_pos hn]
  · rw [insertEntry_of_saturated e (Nat.not_lt.mp hn), if_neg hn, if_neg hn]

/-- What an error of the block's step leaves, R207. -/
theorem endedByError_commit (s : State) (e : Err) (pos : Word) :
    EndedByError s (commit e pos (blockTurn s)) (statusEnded e) pos :=
  ⟨⟨rfl, rfl, rfl, rfl, rfl⟩, rfl, rfl, rfl, rfl, rfl, rfl⟩

/-- Settles O13: at a mismatch FRM.SER emits the match's code and `insert` takes the new entry, or FRM.SER raises IO. -/
theorem encByteEmitsAndInserts : Obligations.EncByteEmitsAndInserts := by
  intro s c w hm hp hlt hread hv hw hfd
  have hmatch : encMatch c (blockTurn s) = encMismatch c (blockTurn s) := encMatch_mismatch (s := blockTurn s) hv hfd
  refine ⟨fun hcap => ?_, fun hcap => ?_⟩
  · have hdone := hmatch.trans (encMismatch_of_room (s := blockTurn s) hw hcap)
    refine ⟨_, step_encByte_done hm hp hlt hread hdone, ?_, ?_⟩
    · rw [insertEntry_eq]
      exact writesOut_putBytes (blockTurn s) (bytesOfCode s.wCode)
    · rw [insertEntry_eq]
      rfl
  · have hraise := hmatch.trans (encMismatch_of_noRoom (s := blockTurn s) hw hcap)
    exact ⟨_, step_encByte_raise hm hp hlt hread hraise, endedByError_commit s .io s.ip⟩

/-! ### ENC.FLUSH -/

theorem blockStep_encFlush {s : State} (hp : s.phase = .enc) (hip : s.ip.toNat = s.nIn.toNat) :
    blockStep s = finish s (encFlush s) := by
  simp [blockStep, hp, hip]

theorem encFlush_of_noMatch {s : State} (hv : s.wValid = false) : encFlush s = .done (commit .ok 0 s) := by
  simp [encFlush, hv]

theorem encFlush_of_match {s : State} (hv : s.wValid = true) :
    encFlush s = (frmSer s.wCode s).bind fun t => .done (complete t) := by
  simp [encFlush, hv]

/-- The step of a COMPRESS that has read its input is ENC.FLUSH. -/
theorem step_encFlush {s : State} (hm : BlockMoves s) (hp : s.phase = .enc) (hip : s.ip.toNat = s.nIn.toNat) :
    step s = finish (blockTurn s) (encFlush (blockTurn s)) := by
  obtain ⟨hrun, hwait⟩ := hm
  rw [step_of_blockMoves hrun hwait, blockStep_encFlush (s := blockTurn s) hp hip]

/-- Settles O14: without a match the command ends; with one, FRM.SER emits it first or raises IO. -/
theorem encFlushEndsCompress : Obligations.EncFlushEndsCompress := by
  intro s hm hp hip
  have hstep := step_encFlush hm hp hip
  have hflush : s.wValid = true → encFlush (blockTurn s) =
      (frmSer s.wCode (blockTurn s)).bind fun t => .done (complete t) := encFlush_of_match (s := blockTurn s)
  refine ⟨fun hv => ?_, fun hv hk hcap => ?_, fun hv hk hcap => ?_⟩
  · rw [encFlush_of_noMatch (s := blockTurn s) hv] at hstep
    exact ⟨_, hstep, ⟨rfl, statusEnded_ok, rfl, rfl, rfl⟩, rfl, rfl, rfl, rfl, rfl, rfl⟩
  · rw [hflush hv, frmSer_of_room (s := blockTurn s) hk hcap] at hstep
    exact ⟨_, hstep, ⟨rfl, statusEnded_ok, rfl, rfl, rfl⟩, writesOut_putBytes (blockTurn s) (bytesOfCode s.wCode),
      rfl, rfl, rfl, rfl, rfl⟩
  · rw [hflush hv, frmSer_of_noRoom (s := blockTurn s) hk hcap] at hstep
    rw [← BitVec.eq_of_toNat_eq hip]
    exact ⟨_, hstep, endedByError_commit s .io s.ip⟩

/-! ### No step faults -/

theorem whenIdle_ne_fault {s : State} {r : Host.Outcome State Fault Refusal} {f : Fault} (h : r ≠ .fault f) :
    whenIdle s r ≠ .fault f := by
  rw [whenIdle]
  split_ifs
  · nofun
  · exact h

theorem regAccess_ne_fault {bits off : Nat} {r : Host.Outcome State Fault Refusal} {f : Fault} (h : r ≠ .fault f) :
    regAccess bits off r ≠ .fault f := by
  rw [regAccess]
  split_ifs
  · nofun
  · nofun
  · exact h

theorem bufAccess_ne_fault {bits i cap : Nat} {r : Host.Outcome State Fault Refusal} {f : Fault} (h : r ≠ .fault f) :
    bufAccess bits i cap r ≠ .fault f := by
  rw [bufAccess]
  split_ifs
  · nofun
  · nofun
  · exact h

theorem hostCmdWrite_ne_fault (v : Word) (s : State) (f : Fault) : hostCmdWrite v s ≠ .fault f := by
  rw [hostCmdWrite]
  split
  · exact exec_ne_fault _ s f
  · exact whenIdle_ne_fault nofun

theorem hostRegWrite_ne_fault (off : Nat) (v : Word) (s : State) (f : Fault) : hostRegWrite off v s ≠ .fault f := by
  rw [hostRegWrite]
  split_ifs
  · exact hostCmdWrite_ne_fault v s f
  all_goals nofun

theorem hostInWrite_ne_fault (i : Nat) (v : Byte) (s : State) (f : Fault) : hostInWrite i v s ≠ .fault f := by
  rw [hostInWrite]
  split_ifs <;> nofun

/-- A host action is taken or refused, and never a fault (R63, R64, R234, R235). -/
theorem hostAccess_ne_fault (op : HostOp) (s : State) (f : Fault) : hostAccess op s ≠ .fault f := by
  cases op with
  | regWrite bits off v => exact regAccess_ne_fault (hostRegWrite_ne_fault off v s f)
  | regRead bits off => exact regAccess_ne_fault nofun
  | inWrite bits i v => exact bufAccess_ne_fault (hostInWrite_ne_fault i v s f)
  | inRead bits i => exact bufAccess_ne_fault nofun
  | outWrite bits i v => nofun
  | outRead bits i => exact bufAccess_ne_fault nofun
  | poll => nofun
  | reset => nofun

/-- Only a block step can fault. -/
theorem step_fault {s : State} {f : Fault} (h : step s = .fault f) : s.phase ≠ .idle ∧ blockStep (blockTurn s) = .fault f := by
  unfold step move at h
  split at h
  · split_ifs at h with hd
    · exact absurd h (hostAccess_ne_fault _ _ f)
    · exact ⟨fun hp => hd (by simp [hostDue, hp]), h⟩
  · split_ifs at h with hp
    exact ⟨hp, h⟩

section
variable {s : State} {f : Fault} (hs : DictionaryShape s)
include hs

theorem encByte_ne_fault (hp : s.phase = .enc) (hm : EncoderMatch s) (hread : s.inBuf.read s.ip.toNat ≠ none) :
    encByte s ≠ .fault f := by
  intro h
  obtain ⟨-, hcode, -⟩ := hm hp
  rcases encByte_fault h with h | ⟨hv, h⟩
  · exact hread h
  · exact dictEntry_ne_none hs (by simp [hp]) (hcode hv) h

theorem decCode_ne_fault (hp : s.phase = .dec) (hprev : s.prevCode.toNat < s.next.toNat) (hread : frmDes s s.ip.toNat ≠ .fault f) :
    decCode s ≠ .fault f := by
  have hrun : s.phase ≠ .idle := by simp [hp]
  intro h
  rcases decCode_fault h with h | h | ⟨w, k, hw, ⟨hk, h⟩ | h | h⟩
  · exact hread h
  · exact dictEntry_ne_none hs hrun hprev h
  · exact dictEntry_ne_none hs hrun hk h
  · exact dictEntry_ne_nil hs hrun hw h
  · exact dictEntry_ne_nil hs hrun h rfl

end

theorem encFlush_ne_fault {s : State} {f : Fault} (hp : s.phase = .enc) (hm : EncoderMatch s) : encFlush s ≠ .fault f := by
  intro h
  obtain ⟨-, hcode, -⟩ := hm hp
  obtain ⟨hv, hle⟩ := encFlush_fault h
  exact absurd (hcode hv) (Nat.not_lt.mpr hle)

theorem finish_ne_fault {s : State} {r : StepResult State} {f : Fault} (h : r ≠ .fault f) : finish s r ≠ .fault f :=
  fun hf => h (finish_fault hf)

/-- Both bytes of a code that is left to read are below `n_in` (R161). -/
theorem frmDes_ne_fault {s : State} {i : Nat} {f : Fault} (hin : InputWritten s) (hi : i < codeCount s) : frmDes s i ≠ .fault f := by
  intro h
  rw [codeCount] at hi
  rcases (frmDes_fault h).2 with h | h
  · exact hin _ (by omega) h
  · exact hin _ (by omega) h

theorem blockStep_decEnd {s : State} (hp : s.phase = .dec) (hip : s.ip.toNat = codeCount s) :
    blockStep s = finish s (decEnd s) := by
  simp [blockStep, hp, hip]

/-- The cursors in range, some step is enabled; its input is written, and its codes are entries (R107, R219). -/
theorem blockStep_ne_fault {s : State} {f : Fault} (hrun : s.phase ≠ .idle) (hcur : CursorsInRange s) (hs : DictionaryOk s)
    (hin : InputWritten s) : blockStep s ≠ .fault f := by
  obtain ⟨hshape, hm, hprev⟩ := hs
  obtain ⟨-, -, henc, hdec⟩ := hcur hrun
  cases hp : s.phase with
  | idle => exact absurd hp hrun
  | enc =>
    obtain ⟨hip, -⟩ := henc hp
    rcases Nat.lt_or_eq_of_le hip with hlt | heq
    · rw [blockStep_encByte hp hlt]
      exact finish_ne_fault (encByte_ne_fault hshape hp hm (hin _ hlt))
    · rw [blockStep_encFlush hp heq]
      exact finish_ne_fault (encFlush_ne_fault hp hm)
  | dec =>
    obtain ⟨-, hip⟩ := hdec hp
    rcases Nat.lt_or_eq_of_le hip with hlt | heq
    · have hread : frmDes s s.ip.toNat ≠ .fault f := frmDes_ne_fault hin hlt
      rw [blockStep_decItem hp hlt]
      refine finish_ne_fault ?_
      cases hfp : s.firstPending with
      | true => exact fun h => hread (decFirst_fault h)
      | false => exact decCode_ne_fault hshape hp ((hprev hp).1 hfp) hread
    · rw [blockStep_decEnd hp heq]
      nofun

/-- Settles O45: a host action never faults, and the running command's step does not under the invariants. -/
theorem noFaultWhenInputWritten : Obligations.NoFaultWhenInputWritten := by
  intro s f hcur hshape hm hprev hin h
  obtain ⟨hrun, h⟩ := step_fault h
  exact blockStep_ne_fault (s := blockTurn s) hrun (cursorsInRange_blockTurn hcur) ⟨hshape, hm, hprev⟩ hin h

/-! ### EncoderAgrees -/

/-- R110 but for the cursor: the dictionary, the match and the bytes written are those of `encode`'s variables `v`. -/
structure HoldsVars (s : State) (v : EncodeVars) : Prop where
  dict : s.dict = v.E
  next : s.next.toNat = v.E.length
  valid : s.wValid = true ↔ v.w ≠ []
  entry : s.wValid = true → dictEntry s s.wCode.toNat = some v.w
  op : s.op.toNat = (frame v.out).length
  output : HoldsOutput s (frame v.out)

theorem encoderAgrees_iff (s : State) : EncoderAgrees s ↔
    (s.phase = .enc → ∃ x : List Byte, x.length = s.ip.toNat ∧ HoldsInput s x ∧ HoldsVars s (encodeLoop x)) :=
  forall_congr' fun _ => exists_congr fun _ => and_congr_right fun _ => and_congr_right fun _ =>
    ⟨fun ⟨h1, h2, h3, h4, h5, h6⟩ => ⟨h1, h2, h3, h4, h5, h6⟩, fun ⟨h1, h2, h3, h4, h5, h6⟩ => ⟨h1, h2, h3, h4, h5, h6⟩⟩

theorem encoderAgrees_of_phase_ne {s : State} (hp : s.phase ≠ .enc) : EncoderAgrees s := fun h => absurd h hp

/-- ENC.INIT is the start of `encode`, R101. -/
theorem encInit_holdsVars (s : State) : HoldsVars (encInit s) encodeStart :=
  ⟨rfl, seeds_length.symm, iff_of_false Bool.false_ne_true (not_not_intro rfl), nofun, rfl, nofun⟩

/-- `insert` on the machine's dictionary is `insert` on the dictionary alone, R44. -/
theorem insertEntry_dict_eq_refInsert {s : State} (e : Entry) (hlen : s.dict.length = s.next.toNat) :
    (insertEntry e s).dict = refInsert s.dict e := by
  rw [insertEntry_dict, refInsert, hlen]

theorem holdsOutput_congr {s t : State} {y : List Byte} (hbuf : t.outBuf = s.outBuf) (hs : HoldsOutput s y) : HoldsOutput t y := by
  rwa [HoldsOutput, hbuf]

/-- Emitting the match's code, inserting the extended match and restarting at a seed, in the machine and in `encode` (R102, R163). -/
theorem emitInsert_holdsVars {c : Byte} {s : State} {v : EncodeVars} (hs : DictionaryShape s) (hrun : s.phase ≠ .idle)
    (hvalid : s.wValid = true) (hw : dictEntry s s.wCode.toNat = some v.w) (hcap : s.op.toNat + 2 ≤ s.outCapR.toNat)
    (hv : HoldsVars s v) :
    HoldsVars { insertEntry (v.w ++ [c]) (putBytes (bytesOfCode s.wCode) s) with wCode := seedCode c }
      ⟨refInsert v.E (v.w ++ [c]), [c], v.out ++ [s.wCode]⟩ := by
  have hshape : DictionaryShape (insertEntry (v.w ++ [c]) (putBytes (bytesOfCode s.wCode) s)) :=
    dictionaryShape_insertEntry (s := putBytes _ s) hs hrun c hw
  have hrun' : (insertEntry (v.w ++ [c]) (putBytes (bytesOfCode s.wCode) s)).phase ≠ .idle := by simpa using hrun
  have hdict : (insertEntry (v.w ++ [c]) (putBytes (bytesOfCode s.wCode) s)).dict = refInsert v.E (v.w ++ [c]) := by
    rw [insertEntry_dict_eq_refInsert (s := putBytes _ s) _ (hs.2 hrun).1, putBytes_dict, hv.dict]
  refine ⟨hdict, ?_, by simp [hvalid], fun _ => dictEntry_seedCode hshape hrun' c, ?_, ?_⟩
  · rw [← hdict]
    exact (hshape.2 hrun').1.symm
  · rw [frame_append, List.length_append, bytesOfCode_length, ← hv.op, insertEntry_op]
    exact putBytes_op_toNat hcap
  · rw [frame_append]
    exact holdsOutput_congr (insertEntry_outBuf _ _)
      (holdsOutput_append hv.output hv.op (writesOut_putBytes s (bytesOfCode s.wCode)))

/-- One ENC.BYTE is one round of `encode`'s loop, R110. -/
theorem encMatch_holdsVars {c : Byte} {s t : State} {v : EncodeVars} (hp : s.phase = .enc) (hs : DictionaryShape s)
    (hm : EncoderMatch s) (hv : HoldsVars s v) (h : encMatch c s = .done t) : HoldsVars t (encodeByte v c) := by
  have hrun : s.phase ≠ .idle := by simp [hp]
  obtain ⟨hlen, -⟩ := hs.2 hrun
  obtain ⟨hd, -⟩ := hm hp
  rcases encMatch_done h with ⟨hvalid, rfl⟩ | ⟨hvalid, n, hn, rfl⟩ | ⟨hvalid, hfd, w, hw, -, hcap, rfl⟩
  · have hnil : v.w = [] := by simpa [hvalid] using hv.valid
    have hseed := dictEntry_seedCode hs hrun c
    have hmem : v.w ++ [c] ∈ v.E := by
      rw [hnil, ← hv.dict]
      exact mem_dict_of_dictEntry hseed
    rw [encodeByte_extend hmem, hnil]
    exact ⟨hv.dict, hv.next, by simp, fun _ => hseed, hv.op, hv.output⟩
  · obtain ⟨-, hent⟩ := dictEntry_of_fdLookup hs hrun (hv.entry hvalid) hn
    have hmem : v.w ++ [c] ∈ v.E := hv.dict ▸ mem_dict_of_dictEntry hent
    rw [encodeByte_extend hmem]
    exact ⟨hv.dict, hv.next, by simp [hvalid], fun _ => hent, hv.op, hv.output⟩
  · obtain rfl : v.w = w := Option.some.inj ((hv.entry hvalid).symm.trans hw)
    have hmem : v.w ++ [c] ∉ v.E := hv.dict ▸ extension_notMem_dict hs hrun hw hfd
    have hcode : codeOf v.E v.w = s.wCode := hv.dict ▸ codeOf_of_dictEntry hd hw
    rw [encodeByte_mismatch hmem, hcode]
    exact emitInsert_holdsVars hs hrun hvalid hw hcap hv

/-- The bytes of `x` and the byte behind them. -/
theorem holdsInput_append {s : State} {x : List Byte} {c : Byte} (hx : HoldsInput s x) (hc : s.inBuf.read x.length = some c) :
    HoldsInput s (x ++ [c]) := by
  intro i hi
  rw [List.length_append, List.length_singleton] at hi
  rcases Nat.lt_succ_iff_lt_or_eq.mp hi with hlt | rfl
  · rw [hx i hlt, List.getElem?_append_left hlt]
  · rw [hc, List.getElem?_concat_length]

theorem encByte_encoderAgrees {s t : State} (hp : s.phase = .enc) (hlt : s.ip.toNat < s.nIn.toNat) (hs : DictionaryShape s)
    (hm : EncoderMatch s) (ha : EncoderAgrees s) (h : encByte s = .done t) : EncoderAgrees t := by
  obtain ⟨x, hlen, hin, hv⟩ := (encoderAgrees_iff s).mp ha hp
  obtain ⟨-, -, -, hip, -, -, -, -, hinBuf, -⟩ := encByte_frame h
  obtain ⟨c, t0, hread, h0, rfl⟩ := encByte_done h
  rw [encoderAgrees_iff]
  refine fun _ => ⟨x ++ [c], ?_, ?_, ?_⟩
  · rw [hip, cursor_succ_toNat hlt, List.length_append, List.length_singleton, hlen]
  · rw [HoldsInput, hinBuf]
    exact holdsInput_append hin (hlen ▸ hread)
  · obtain ⟨h1, h2, h3, h4, h5, h6⟩ := encMatch_holdsVars hp hs hm hv h0
    rw [encodeLoop_append]
    exact ⟨h1, h2, h3, h4, h5, h6⟩

/-- A fresh encoder has read nothing; every other state acceptance leaves is none of a COMPRESS. -/
theorem exec_encoderAgrees {i : Instr} {s t : State} (h : exec i s = .next t) : EncoderAgrees t := by
  obtain ⟨u, rfl | rfl, rfl | ⟨e, pos, -, rfl⟩⟩ := exec_starts_or_ends h
  · exact (encoderAgrees_iff _).mpr fun _ => ⟨[], rfl, nofun, encInit_holdsVars _⟩
  all_goals exact encoderAgrees_of_phase_ne nofun

/-- A byte of a COMPRESS goes one round on, and every other block step ends the command or is a decoder's. -/
theorem blockStep_encoderAgrees {s t : State} (hs : DictionaryShape s) (hm : EncoderMatch s) (ha : EncoderAgrees s)
    (h : blockStep s = .next t) : EncoderAgrees t := by
  rcases blockStep_cases h with ⟨hp, hlt, h⟩ | ⟨hp, -, -, h⟩ | ⟨hp, -, -, h⟩ | ⟨-, -, h⟩ | ⟨-, -, rfl⟩ | ⟨e, pos, -, rfl⟩
  · exact encByte_encoderAgrees hp hlt hs hm ha h
  · exact encoderAgrees_of_phase_ne (by simp [(decFirst_itemDone h).phase, hp])
  · exact encoderAgrees_of_phase_ne (by simp [(decCode_itemDone h).phase, hp])
  · exact encoderAgrees_of_phase_ne (by simp [encFlush_phase h])
  · exact encoderAgrees_of_phase_ne nofun
  · exact encoderAgrees_of_phase_ne nofun

/-- The host writes an input byte only while no command runs (R235). -/
theorem idle_of_inWrite {s t : State} {a : HostAction} {rest : List HostAction} {i : Nat} {v : Byte} (hst : StatusForms s)
    (hm : HostMoves s a rest) (hop : a.op = .inWrite 8 i v) (h : step s = .next t) : s.phase = .idle := by
  by_contra hrun
  obtain ⟨hhost, hdue⟩ := hm
  have hb : (takeAction a rest s).busy = true := (busy_iff_of_statusForms hst).mpr hrun
  rw [step_of_hostDue hhost hdue, hop, hostAccess, bufAccess, hostInWrite, hb, if_pos (rfl : true = true)] at h
  split_ifs at h

/-- Settles O42: a COMPRESS starts as `encode` does, ENC.BYTE goes one round of its loop, and while the command runs the host can write
neither the input nor STATUS. -/
theorem stepKeepsEncoderAgreement : Obligations.StepKeepsEncoderAgreement := by
  intro s t hst _ hshape hm ha h
  obtain ⟨u, hu, hcases⟩ := step_blockCases h
  have ha' : EncoderAgrees u := sameBlock_keeps (fun _ _ _ _ h => h) hu ha
  rcases hcases with rfl | ⟨a, rest, hmoves, hchange⟩ | ⟨-, hblock⟩
  · exact ha'
  · rcases hchange with ⟨-, rfl⟩ | ⟨i, hexec⟩ | ⟨v, -, rfl⟩ | ⟨i, v, hop, -, rfl⟩ | ⟨-, rfl⟩
    · exact ha'
    · exact exec_encoderAgrees hexec
    · exact ha'
    · exact encoderAgrees_of_phase_ne (by simp [hu.eqs, idle_of_inWrite hst hmoves hop h])
    · exact encoderAgrees_of_phase_ne nofun
  · exact blockStep_encoderAgrees (sameBlock_keeps (fun _ _ _ _ h => h) hu hshape) (sameBlock_keeps (fun _ _ _ _ h => h) hu hm) ha'
      hblock

end Sys2Proof.Proofs

/-! Proofs of the statements of 41_decoder.md: the reference function `decode` (R130), that it inverts `encode` (R141), append (R134),
DEC.INIT (R131), DEC.FIRST (R132), DEC.CODE (R133), DEC.END (R135), and the agreement of a DECOMPRESS with `decode` (R139). -/

namespace Sys2Proof.Proofs

open Sys2Proof.Machine Sys2Proof.Laws

/-! ### `decode`, one code at a time -/

/-- One more code, after the first (R130). -/
theorem decodeVars_append {cs : List Code} (hcs : cs ≠ []) (k : Code) :
    decodeVars (cs ++ [k]) = (decodeVars cs).bind fun u => (decodeEntry u k).map (decodeNext u) := by
  cases cs with
  | nil => exact absurd rfl hcs
  | cons c cs =>
    rw [List.cons_append, decodeVars, decodeVars]
    split_ifs
    · rfl
    · exact decodeVarsFrom_append _ _ _

/-- Where every code is known, `decode` answers the bytes its variables hold. -/
theorem decodeRef_of_decodeVars {cs : List Code} {u : DecodeVars} (h : decodeVars cs = some u) : decodeRef cs = .ok u.out := by
  cases cs with
  | nil =>
    obtain rfl : ⟨seeds, [], []⟩ = u := Option.some.inj h
    rfl
  | cons k cs =>
    rw [decodeVars] at h
    split_ifs at h with hk
    rw [decodeRef, if_neg hk]
    exact decodeLoop_of_vars 1 h

/-- A first code is decoded as the seed that stands at it. -/
theorem decodeVars_singleton {k : Code} {e : Entry} (h : seeds[k.toNat]? = some e) : decodeVars [k] = some ⟨seeds, e, e⟩ := by
  have hk : k.toNat < 256 := seeds_length ▸ (List.getElem?_eq_some_iff.mp h).1
  have he : [k.setWidth 8] = e := by
    rw [seeds_getElem? hk] at h
    exact Option.some.inj h
  rw [decodeVars, if_neg (Nat.not_le.mpr hk), decodeStart, he, decodeVarsFrom]

/-! ### `encode` and `decode` in lock step -/

theorem getElem?_refInsert_of_lt {E : List Entry} (e : Entry) {n : Nat} (hn : n < E.length) : (refInsert E e)[n]? = E[n]? := by
  rw [refInsert]
  split_ifs
  · exact List.getElem?_append_left hn
  · rfl

/-- Past the old entries stands at most the inserted one. -/
theorem getElem?_refInsert_of_le {E : List Entry} {e x : Entry} {n : Nat} (hn : E.length ≤ n) (h : (refInsert E e)[n]? = some x) :
    n = E.length ∧ x = e := by
  rw [refInsert] at h
  split_ifs at h with hfull
  · have hlt := (List.getElem?_eq_some_iff.mp h).1
    rw [List.length_append, List.length_singleton] at hlt
    obtain rfl : n = E.length := by omega
    rw [List.getElem?_concat_length] at h
    exact ⟨rfl, (Option.some.inj h).symm⟩
  · exact absurd (List.getElem?_eq_some_iff.mp h).1 (Nat.not_lt.mpr hn)

/-- `code(s)` is a code at which `s` stands, R100. -/
theorem getElem?_codeOf {E : List Entry} {e : Entry} (hE : E.length ≤ 65536) (he : e ∈ E) : E[(codeOf E e).toNat]? = some e := by
  have hlt : E.idxOf e < E.length := List.idxOf_lt_length_of_mem he
  have hcode : (codeOf E e).toNat = E.idxOf e := by
    rw [codeOf, BitVec.toNat_ofNat]
    exact Nat.mod_eq_of_lt (hlt.trans_le hE)
  rw [hcode, List.getElem?_eq_getElem hlt, List.getElem_idxOf]

/-- A code of the encoder's dictionary names the same entry for the decoder, whose dictionary lacks the encoder's last insertion: where
it is that insertion's code, the special case of R130 restores it. -/
theorem decodeEntry_of_refInsert {d : DecodeVars} {e : Entry} {k : Code} (hd : d.w ≠ [])
    (h : (refInsert d.E (d.w ++ e.take 1))[k.toNat]? = some e) : decodeEntry d k = some e := by
  rw [decodeEntry]
  by_cases hk : k.toNat < d.E.length
  · rw [if_pos hk, ← getElem?_refInsert_of_lt _ hk, h]
  · obtain ⟨hlast, he⟩ := getElem?_refInsert_of_le (Nat.not_lt.mp hk) h
    have hfirst : e.take 1 = d.w.take 1 := by rw [he, List.take_append_of_le_length (List.length_pos_iff.mpr hd)]
    rw [if_neg hk, if_pos hlast, ← hfirst, ← he]

/-- How `decode` stands, having read the codes that `encode` has emitted for `x`: it lacks the match, and after the first code the last
insertion too, which is that of its previous entry and the match's first byte. -/
inductive DecoderBehind (x : List Byte) (v : EncodeVars) : Prop where
  | start (out : v.out = []) (dict : v.E = seeds) (bytes : v.w = x)
  | later (d : DecodeVars) (out : v.out ≠ []) (vars : decodeVars v.out = some d) (previous : d.w ≠ []) (nonempty : v.w ≠ [])
      (dict : v.E = refInsert d.E (d.w ++ v.w.take 1)) (bytes : d.out ++ v.w = x)

/-- The match's code lets `decode` catch up with `encode`. -/
theorem DecoderBehind.catchUp {x : List Byte} {v : EncodeVars} (h : DecoderBehind x v) (hE : v.E.length ≤ 65536) (hw : v.w ∈ v.E) :
    decodeVars (v.out ++ [codeOf v.E v.w]) = some ⟨v.E, v.w, x⟩ := by
  have hcode := getElem?_codeOf hE hw
  cases h with
  | start out dict bytes =>
    rw [dict] at hcode
    rw [out, List.nil_append, dict, decodeVars_singleton hcode, bytes]
  | later d out vars previous nonempty dict bytes =>
    have hentry : decodeEntry d (codeOf v.E v.w) = some v.w := decodeEntry_of_refInsert previous (dict ▸ hcode)
    rw [decodeVars_append out, vars, Option.bind_some, hentry, Option.map_some, decodeNext, ← dict, bytes]

/-- The match is an entry once there is one (R107). -/
theorem encodeLoop_w_mem {x : List Byte} (hx : x ≠ []) : (encodeLoop x).w ∈ (encodeLoop x).E := by
  cases x using List.reverseRecOn with
  | nil => exact absurd rfl hx
  | append_singleton x c =>
    rw [encodeLoop_append]
    by_cases h : (encodeLoop x).w ++ [c] ∈ (encodeLoop x).E
    · rwa [encodeByte_extend h]
    · rw [encodeByte_mismatch h]
      exact mem_refInsert _ (singleton_mem_encodeLoop x c)

theorem encodeLoop_dict_length_le (x : List Byte) : (encodeLoop x).E.length ≤ 65536 := by
  rw [encodeLoop_dict_length]
  exact Nat.min_le_left _ _

/-- By induction on the input: a byte that extends the match changes nothing of the decoder's, and at a mismatch the emitted code lets it
catch up before the encoder inserts. -/
theorem decoderBehind_encodeLoop (x : List Byte) : DecoderBehind x (encodeLoop x) := by
  induction x using List.reverseRecOn with
  | nil => exact .start rfl rfl rfl
  | append_singleton x c ih =>
    rw [encodeLoop_append]
    by_cases hmem : (encodeLoop x).w ++ [c] ∈ (encodeLoop x).E
    · rw [encodeByte_extend hmem]
      cases ih with
      | start out dict bytes => exact .start out dict (by rw [bytes])
      | later d out vars previous nonempty dict bytes =>
        refine .later d out vars previous (by simp) ?_ ?_
        · rw [List.take_append_of_le_length (List.length_pos_iff.mpr nonempty)]
          exact dict
        · rw [← List.append_assoc, bytes]
    · have hx : x ≠ [] := by
        rintro rfl
        exact hmem (singleton_mem_seeds c)
      have hw : (encodeLoop x).w ≠ [] := (encodeLoop_w_eq_nil_iff x).not.mpr hx
      rw [encodeByte_mismatch hmem]
      exact .later _ (by simp) (ih.catchUp (encodeLoop_dict_length_le x) (encodeLoop_w_mem hx)) hw (by simp) rfl rfl

/-- Settles O54: ENC.FLUSH's code lets the decoder catch up with the whole input. -/
theorem decodeInvertsEncode : Obligations.DecodeInvertsEncode := by
  intro x
  by_cases hx : x = []
  · subst hx
    rfl
  · have hw : (encodeLoop x).w ≠ [] := (encodeLoop_w_eq_nil_iff x).not.mpr hx
    rw [encodeRef, encodeFlush, if_neg hw]
    exact decodeRef_of_decodeVars ((decoderBehind_encodeLoop x).catchUp (encodeLoop_dict_length_le x) (encodeLoop_w_mem hx))

/-! ### append -/

theorem outAppend_of_room {e : Entry} {s : State} (hcap : s.op.toNat + e.length ≤ s.outCapR.toNat) :
    outAppend e s = .done (putBytes e s) := if_neg (Nat.not_lt.mpr hcap)

theorem outAppend_of_noRoom {e : Entry} {s : State} (hcap : s.outCapR.toNat < s.op.toNat + e.length) :
    outAppend e s = .raise .io s.ip := if_pos hcap

/-- Settles O21: `append` is `putBytes` where the sequence fits, and the cursor does not wrap then. -/
theorem concatenatorWritesAllOrNothing : Obligations.ConcatenatorWritesAllOrNothing := fun s e =>
  ⟨fun hcap => ⟨_, outAppend_of_room hcap, writesOut_putBytes s e, putBytes_op_toNat hcap, rfl⟩, outAppend_of_noRoom⟩

/-! ### DEC.INIT -/

/-- Settles O7: an accepted DECOMPRESS is `accept` and DEC.INIT, the capacity check and FRM.CHECK having passed. -/
theorem decompressAcceptsFreshDecoder : Obligations.DecompressAcceptsFreshDecoder := by
  intro s hb hcap heven
  have hcapacity : capacityCheck (decInit (accept s)) = .done (decInit (accept s)) := if_neg (Nat.not_lt.mpr hcap)
  have hframing : frmCheck (decInit (accept s)) = .done (decInit (accept s)) := if_neg (by simp [heven])
  rw [exec, execDecompress, whenIdle_of_idle hb, hcapacity, done_bind, hframing, finish, decInit, accept, statusRunning_eq]
  rfl

/-! ### DEC.FIRST -/

theorem frmDes_of_written {s : State} {i : Nat} {hi lo : Byte} (hhi : s.inBuf.read (2 * i) = some hi)
    (hlo : s.inBuf.read (2 * i + 1) = some lo) : frmDes s i = .done (codeOfBytes hi lo) := by
  rw [frmDes, memReadIn_done.mpr hhi, done_bind, memReadIn_done.mpr hlo, done_bind]

/-- The step of a DECOMPRESS that has a code left is DEC.FIRST or DEC.CODE. -/
theorem step_decItem {s : State} (hm : BlockMoves s) (hp : s.phase = .dec) (hlt : s.ip.toNat < codeCount s) :
    step s = finish (blockTurn s) (if s.firstPending then decFirst (blockTurn s) else decCode (blockTurn s)) := by
  obtain ⟨hrun, hwait⟩ := hm
  rw [step_of_blockMoves hrun hwait, blockStep_decItem (s := blockTurn s) hp hlt, blockTurn_firstPending]

theorem codeOfBytes_zero (lo : Byte) : codeOfBytes 0 lo = seedCode lo :=
  BitVec.eq_of_toNat_eq (by rw [codeOfBytes_toNat, seedCode_toNat]; simp)

theorem seedCode_setWidth (c : Byte) : (seedCode c).setWidth 8 = c := by simp [seedCode]

section
variable {s : State}

theorem decFirst_of_seed {lo : Byte} (hdes : frmDes s s.ip.toNat = .done (seedCode lo)) :
    decFirst s = (outAppend [lo] s).bind fun t => .done { t with prevCode := seedCode lo, firstPending := false, ip := t.ip + 1 } := by
  have hlo : ¬256 ≤ (seedCode lo).toNat := by rw [seedCode_toNat]; exact Nat.not_le.mpr lo.isLt
  rw [decFirst, hdes, done_bind, if_neg hlo, seedCode_setWidth]

theorem decFirst_of_badCode {k : Code} (hdes : frmDes s s.ip.toNat = .done k) (hk : 256 ≤ k.toNat) :
    decFirst s = .raise .badCode s.ip := by
  rw [decFirst, hdes, done_bind, if_pos hk]

end

/-- Settles O15: a first byte of zero makes the code a seed's, which `append` takes or refuses, and no other code is a seed's. -/
theorem decFirstDecodesSeed : Obligations.DecFirstDecodesSeed := by
  intro s hi lo hm hp hfirst hlt hhi hlo
  have hstep := step_decItem hm hp hlt
  have hdes : frmDes (blockTurn s) (blockTurn s).ip.toNat = .done (codeOfBytes hi lo) := frmDes_of_written (s := blockTurn s) hhi hlo
  rw [hfirst, if_pos rfl] at hstep
  refine ⟨?_, ?_, fun hne => ?_⟩
  · rintro rfl hcap
    rw [codeOfBytes_zero] at hdes
    rw [decFirst_of_seed hdes, outAppend_of_room (e := [lo]) (s := blockTurn s) hcap, done_bind, finish] at hstep
    exact ⟨_, hstep, writesOut_putBytes (blockTurn s) [lo], rfl⟩
  · rintro rfl hcap
    rw [codeOfBytes_zero] at hdes
    rw [decFirst_of_seed hdes, outAppend_of_noRoom (e := [lo]) (s := blockTurn s) hcap, raise_bind, finish] at hstep
    exact ⟨_, hstep, endedByError_commit s .io s.ip⟩
  · have hk : 256 ≤ (codeOfBytes hi lo).toNat := by
      have : hi.toNat ≠ 0 := fun h => hne (BitVec.eq_of_toNat_eq h)
      rw [codeOfBytes_toNat]
      omega
    rw [decFirst_of_badCode hdes hk, finish] at hstep
    exact ⟨_, hstep, endedByError_commit s .badCode s.ip⟩

/-! ### DEC.CODE -/

theorem firstByte_cons (b : Byte) (w : Entry) : firstByte (b :: w) = .done b := rfl

/-- R133's entry of a code: the one that stands there, or at NEXT the previous entry and its first byte. -/
theorem codeEntry_of_entry {s : State} {b : Byte} {w e : Entry} {k : Code}
    (h : k.toNat < s.next.toNat ∧ s.dict[k.toNat]? = some e ∨ k.toNat = s.next.toNat ∧ e = b :: w ++ [b]) :
    codeEntry s (b :: w) k = .done e := by
  rcases h with ⟨hk, he⟩ | ⟨hk, rfl⟩
  · rw [codeEntry, if_pos hk]
    exact entryAt_done.mpr ((dictEntry_of_lt hk).trans he)
  · rw [codeEntry, if_neg hk.not_lt, if_pos hk, firstByte_cons, done_bind]

theorem codeEntry_of_badCode {s : State} (w : Entry) {k : Code} (hk : s.next.toNat < k.toNat) :
    codeEntry s w k = .raise .badCode s.ip := by
  rw [codeEntry, if_neg hk.le.not_gt, if_neg hk.ne']

section
variable {s : State} {k : Code} {w : Entry} (hdes : frmDes s s.ip.toNat = .done k)
  (hprev : dictEntry s s.prevCode.toNat = some w)
include hdes hprev

theorem decCode_of_entry {c : Byte} {e : Entry} (he : codeEntry s w k = .done (c :: e)) :
    decCode s = (outAppend (c :: e) s).bind fun t => .done { insertEntry (w ++ [c]) t with prevCode := k, ip := t.ip + 1 } := by
  rw [decCode, hdes, done_bind, entryAt_done.mpr hprev, done_bind, he, done_bind, firstByte_cons]
  simp only [done_bind]

theorem decCode_of_badCode (hk : s.next.toNat < k.toNat) : decCode s = .raise .badCode s.ip := by
  rw [decCode, hdes, done_bind, entryAt_done.mpr hprev, done_bind, codeEntry_of_badCode w hk, raise_bind]

end

/-- Settles O16: `codeEntry` finds the entry or raises BAD_CODE; `append` takes the entry or raises IO, and `insert` goes last. -/
theorem decCodeDecodesEntry : Obligations.DecCodeDecodesEntry := by
  intro s hi lo k b w hm hp hfirst hlt hhi hlo hk hprev
  obtain rfl : k = codeOfBytes hi lo := BitVec.eq_of_toNat_eq (hk.trans (codeOfBytes_toNat hi lo).symm)
  have hstep := step_decItem hm hp hlt
  have hdes : frmDes (blockTurn s) (blockTurn s).ip.toNat = .done (codeOfBytes hi lo) := frmDes_of_written (s := blockTurn s) hhi hlo
  rw [hfirst, if_neg Bool.false_ne_true] at hstep
  refine ⟨fun c e hent => ?_, fun hbad => ?_⟩
  · rw [decCode_of_entry hdes hprev (codeEntry_of_entry (s := blockTurn s) hent)] at hstep
    refine ⟨fun hcap => ?_, fun hcap => ?_⟩
    · rw [outAppend_of_room (e := c :: e) (s := blockTurn s) hcap, done_bind, finish, insertEntry_eq] at hstep
      exact ⟨_, hstep, writesOut_putBytes (blockTurn s) (c :: e), rfl⟩
    · rw [outAppend_of_noRoom (e := c :: e) (s := blockTurn s) hcap, raise_bind, finish] at hstep
      exact ⟨_, hstep, endedByError_commit s .io s.ip⟩
  · rw [decCode_of_badCode hdes hprev hbad, finish] at hstep
    exact ⟨_, hstep, endedByError_commit s .badCode s.ip⟩

/-! ### DEC.END -/

/-- Settles O17: the step of a DECOMPRESS that has read every code is DEC.END, and DEC.END is `complete`. -/
theorem decEndEndsDecompress : Obligations.DecEndEndsDecompress := by
  intro s ⟨hrun, hwait⟩ hp hip
  have hstep : step s = .next (commit .ok 0 (blockTurn s)) := by
    rw [step_of_blockMoves hrun hwait, blockStep_decEnd (s := blockTurn s) hp hip, decEnd, finish, complete_eq_commit]
  exact ⟨_, hstep, ⟨rfl, statusEnded_ok, rfl, rfl, rfl⟩, rfl, rfl, rfl, rfl, rfl, rfl⟩

/-! ### DecoderAgrees -/

/-- IN_BUF holds the codes of `cs` from the first one on. -/
def HoldsCodes (s : State) (cs : List Code) : Prop := ∀ i < cs.length, cs[i]?.map StepResult.done = some (frmDes s i)

/-- R139 but for the cursor: the dictionary, the previous entry and the bytes written are those of `decode`'s variables `v`. -/
structure HoldsDecodeVars (s : State) (v : DecodeVars) : Prop where
  dict : s.dict = v.E
  next : s.next.toNat = v.E.length
  entry : s.firstPending = false → dictEntry s s.prevCode.toNat = some v.w
  op : s.op.toNat = v.out.length
  output : HoldsOutput s v.out

theorem decoderAgrees_iff (s : State) : DecoderAgrees s ↔
    (s.phase = .dec → ∃ (cs : List Code) (v : DecodeVars), cs.length = s.ip.toNat ∧ HoldsCodes s cs ∧ decodeVars cs = some v ∧
      (s.firstPending = true ↔ cs = []) ∧ HoldsDecodeVars s v) :=
  forall_congr' fun _ => exists_congr fun _ => exists_congr fun _ => and_congr_right fun _ => and_congr_right fun _ =>
    and_congr_right fun _ =>
      ⟨fun ⟨h1, h2, h3, h4, h5, h6⟩ => ⟨h3, h1, h2, h4, h5, h6⟩, fun ⟨h3, h1, h2, h4, h5, h6⟩ => ⟨h1, h2, h3, h4, h5, h6⟩⟩

theorem decoderAgrees_of_phase_ne {s : State} (hp : s.phase ≠ .dec) : DecoderAgrees s := fun h => absurd h hp

/-- DEC.INIT is the start of `decode`, R131. -/
theorem decInit_holdsDecodeVars (s : State) : HoldsDecodeVars (decInit s) ⟨seeds, [], []⟩ :=
  ⟨rfl, seeds_length.symm, nofun, rfl, nofun⟩

/-- The codes of `cs` and the code behind them, where the input stays. -/
theorem holdsCodes_append {s t : State} {cs : List Code} {k : Code} (hin : t.inBuf = s.inBuf) (hs : HoldsCodes s cs)
    (hk : frmDes s cs.length = .done k) : HoldsCodes t (cs ++ [k]) := by
  intro i hi
  have hdes : frmDes t i = frmDes s i := by simp only [frmDes, memReadIn, hin]
  rw [List.length_append, List.length_singleton] at hi
  rw [hdes]
  rcases Nat.lt_succ_iff_lt_or_eq.mp hi with hlt | rfl
  · rw [List.getElem?_append_left hlt, hs i hlt]
  · rw [List.getElem?_concat_length, Option.map_some, hk]

/-- DEC.FIRST is the start of `decode` at a seed, R132. -/
theorem decFirst_holdsDecodeVars {s t : State} (hs : DictionaryShape s) (hrun : s.phase ≠ .idle)
    (hv : HoldsDecodeVars s ⟨seeds, [], []⟩) (h : decFirst s = .done t) :
    ∃ k, frmDes s s.ip.toNat = .done k ∧ decodeVars [k] = some (decodeStart k) ∧ HoldsDecodeVars t (decodeStart k) := by
  obtain ⟨k, hdes, hk, hcap, rfl⟩ := decFirst_done h
  refine ⟨k, hdes, if_neg (Nat.not_le.mpr hk), hv.dict, hv.next, fun _ => dictEntry_seed hs hrun hk, ?_, ?_⟩
  · exact (putBytes_op_toNat (bs := [k.setWidth 8]) hcap).trans (by simp [hv.op, decodeStart])
  · exact holdsOutput_append hv.output hv.op (writesOut_putBytes s [k.setWidth 8])

/-- What DEC.CODE and `decode` take for a code's entry is the same (R130, R133). -/
theorem decodeEntry_of_codeEntry {s : State} {v : DecodeVars} {k : Code} {e : Entry} (hv : HoldsDecodeVars s v)
    (he : codeEntry s v.w k = .done e) : decodeEntry v k = some e := by
  rw [decodeEntry, ← hv.next, ← hv.dict]
  rcases codeEntry_done he with ⟨hk, he⟩ | ⟨hk, b, hb, rfl⟩
  · rw [if_pos hk, ← dictEntry_of_lt hk, he]
  · rw [if_neg hk.not_lt, if_pos hk, List.take_one, hb, Option.toList_some]

/-- After the insertion the entry just decoded stands at its code: it stood there before, or it is the one inserted (R133). -/
theorem dictEntry_insertEntry_code {s : State} {w e : Entry} {k : Code} {b : Byte} (hlen : s.dict.length = s.next.toNat)
    (he : codeEntry s w k = .done e) (hb : e.head? = some b) : dictEntry (insertEntry (w ++ [b]) s) k.toNat = some e := by
  rcases codeEntry_done he with ⟨hk, he⟩ | ⟨hk, c, hc, rfl⟩
  · rw [dictEntry_insertEntry_of_lt _ hlen hk, he]
  · obtain rfl : c = b := by simpa [List.head?_append, hc] using hb
    rw [hk, dictEntry_insertEntry_next _ hlen (hk ▸ k.isLt)]

/-- DEC.CODE is one round of `decode`'s loop, R139. -/
theorem decCode_holdsDecodeVars {s t : State} {v : DecodeVars} (hs : DictionaryShape s) (hrun : s.phase ≠ .idle)
    (hfirst : s.firstPending = false) (hv : HoldsDecodeVars s v) (h : decCode s = .done t) :
    ∃ k e, frmDes s s.ip.toNat = .done k ∧ decodeEntry v k = some e ∧ HoldsDecodeVars t (decodeNext v e) := by
  obtain ⟨k, w, e, b, hdes, hw, he, hb, hcap, rfl⟩ := decCode_done h
  obtain rfl : v.w = w := Option.some.inj ((hv.entry hfirst).symm.trans hw)
  obtain ⟨hlen, -⟩ := hs.2 hrun
  have hshape : DictionaryShape (insertEntry (v.w ++ [b]) (putBytes e s)) :=
    dictionaryShape_insertEntry (s := putBytes e s) hs hrun b hw
  have hdict : (insertEntry (v.w ++ [b]) (putBytes e s)).dict = (decodeNext v e).E := by
    rw [insertEntry_dict_eq_refInsert (s := putBytes e s) _ hlen, putBytes_dict, hv.dict, decodeNext, List.take_one, hb,
      Option.toList_some]
  obtain ⟨hlen', -⟩ := hshape.2 (by simpa using hrun)
  refine ⟨k, e, hdes, decodeEntry_of_codeEntry hv he, hdict, ?_, fun _ => ?_, ?_, ?_⟩
  · rw [← hdict]
    exact hlen'.symm
  · exact dictEntry_insertEntry_code (s := putBytes e s) hlen he hb
  · rw [decodeNext, List.length_append, ← hv.op, insertEntry_op]
    exact putBytes_op_toNat hcap
  · exact holdsOutput_congr (insertEntry_outBuf _ _) (holdsOutput_append hv.output hv.op (writesOut_putBytes s e))

/-- What DEC.FIRST and DEC.CODE share: with one more code read, `decode`'s variables are those after one more code. -/
theorem decoderAgrees_of_decItem {s t : State} {cs : List Code} {k : Code} {u : DecodeVars} (hlt : s.ip.toNat < codeCount s)
    (hip : t.ip = s.ip + 1) (hin : t.inBuf = s.inBuf) (hfirst : t.firstPending = false) (hlen : cs.length = s.ip.toNat)
    (hcs : HoldsCodes s cs) (hdes : frmDes s s.ip.toNat = .done k) (hu : decodeVars (cs ++ [k]) = some u)
    (hv : HoldsDecodeVars t u) : DecoderAgrees t := by
  refine (decoderAgrees_iff t).mpr fun _ => ⟨cs ++ [k], u, ?_, holdsCodes_append hin hcs (hlen ▸ hdes), hu, ?_, hv⟩
  · rw [hip, cursor_succ_toNat (hlt.trans_le (Nat.div_le_self _ 2)), List.length_append, List.length_singleton, hlen]
  · simp [hfirst]

theorem decFirst_decoderAgrees {s t : State} (hp : s.phase = .dec) (hlt : s.ip.toNat < codeCount s) (hfirst : s.firstPending = true)
    (hs : DictionaryShape s) (ha : DecoderAgrees s) (h : decFirst s = .done t) : DecoderAgrees t := by
  obtain ⟨cs, v, hlen, hcs, hvars, hnil, hv⟩ := (decoderAgrees_iff s).mp ha hp
  obtain rfl : cs = [] := hnil.mp hfirst
  obtain rfl : ⟨seeds, [], []⟩ = v := Option.some.inj hvars
  obtain ⟨-, -, -, hip, -, -, -, -, hin, -⟩ := decFirst_frame h
  have hfirst' : t.firstPending = false := by
    obtain ⟨k, -, -, -, rfl⟩ := decFirst_done h
    rfl
  obtain ⟨k, hdes, hu, hv'⟩ := decFirst_holdsDecodeVars hs (by simp [hp]) hv h
  exact decoderAgrees_of_decItem hlt hip hin hfirst' hlen hcs hdes hu hv'

theorem decCode_decoderAgrees {s t : State} (hp : s.phase = .dec) (hlt : s.ip.toNat < codeCount s) (hfirst : s.firstPending = false)
    (hs : DictionaryShape s) (ha : DecoderAgrees s) (h : decCode s = .done t) : DecoderAgrees t := by
  obtain ⟨cs, v, hlen, hcs, hvars, hnil, hv⟩ := (decoderAgrees_iff s).mp ha hp
  have hne : cs ≠ [] := hnil.not.mp (by simp [hfirst])
  obtain ⟨-, -, -, hip, -, -, -, -, hin, -⟩ := decCode_frame h
  have hfirst' : t.firstPending = false := by
    obtain ⟨k, w, e, b, -, -, -, -, -, rfl⟩ := decCode_done h
    exact (insertEntry_firstPending _ _).trans hfirst
  obtain ⟨k, e, hdes, hent, hv'⟩ := decCode_holdsDecodeVars hs (by simp [hp]) hfirst hv h
  have hu : decodeVars (cs ++ [k]) = some (decodeNext v e) := by
    rw [decodeVars_append hne, hvars, Option.bind_some, hent, Option.map_some]
  exact decoderAgrees_of_decItem hlt hip hin hfirst' hlen hcs hdes hu hv'

/-- A fresh decoder has read nothing; every other state acceptance leaves is none of a DECOMPRESS. -/
theorem exec_decoderAgrees {i : Instr} {s t : State} (h : exec i s = .next t) : DecoderAgrees t := by
  obtain ⟨u, rfl | rfl, rfl | ⟨e, pos, -, rfl⟩⟩ := exec_starts_or_ends h
  · exact decoderAgrees_of_phase_ne nofun
  · exact decoderAgrees_of_phase_ne nofun
  · exact (decoderAgrees_iff _).mpr fun _ =>
      ⟨[], ⟨seeds, [], []⟩, rfl, nofun, rfl, iff_of_true rfl rfl, decInit_holdsDecodeVars _⟩
  · exact decoderAgrees_of_phase_ne nofun

/-- A code of a DECOMPRESS goes one round of `decode`'s loop on, and every other block step ends the command or is an encoder's. -/
theorem blockStep_decoderAgrees {s t : State} (hs : DictionaryShape s) (ha : DecoderAgrees s) (h : blockStep s = .next t) :
    DecoderAgrees t := by
  rcases blockStep_cases h with ⟨hp, -, h⟩ | ⟨hp, hlt, hf, h⟩ | ⟨hp, hlt, hf, h⟩ | ⟨-, -, h⟩ | ⟨-, -, rfl⟩ | ⟨e, pos, -, rfl⟩
  · exact decoderAgrees_of_phase_ne (by simp [(encByte_itemDone h).phase, hp])
  · exact decFirst_decoderAgrees hp hlt hf hs ha h
  · exact decCode_decoderAgrees hp hlt hf hs ha h
  · exact decoderAgrees_of_phase_ne (by simp [encFlush_phase h])
  · exact decoderAgrees_of_phase_ne nofun
  · exact decoderAgrees_of_phase_ne nofun

/-- Settles O43: a DECOMPRESS starts as `decode` does, DEC.FIRST reads its first code and DEC.CODE goes one round of its loop, and while
the command runs the host cannot write the input. -/
theorem stepKeepsDecoderAgreement : Obligations.StepKeepsDecoderAgreement := by
  intro s t hst _ hshape _ ha h
  obtain ⟨u, hu, hcases⟩ := step_blockCases h
  have ha' : DecoderAgrees u := sameBlock_keeps (fun _ _ _ _ h => h) hu ha
  rcases hcases with rfl | ⟨a, rest, hmoves, hchange⟩ | ⟨-, hblock⟩
  · exact ha'
  · rcases hchange with ⟨-, rfl⟩ | ⟨i, hexec⟩ | ⟨v, -, rfl⟩ | ⟨i, v, hop, -, rfl⟩ | ⟨-, rfl⟩
    · exact ha'
    · exact exec_decoderAgrees hexec
    · exact ha'
    · exact decoderAgrees_of_phase_ne (by simp [hu.eqs, idle_of_inWrite hst hmoves hop h])
    · exact decoderAgrees_of_phase_ne nofun
  · exact blockStep_decoderAgrees (sameBlock_keeps (fun _ _ _ _ h => h) hu hshape) ha' hblock

end Sys2Proof.Proofs

/-! Proofs of the statements of 42_framer.md: FRM.DES (R162) and FRM.SER (R163). -/

namespace Sys2Proof.Proofs

open Sys2Proof.Machine Sys2Proof.Laws

/-- Settles O20: FRM.SER of a code below NEXT is `putBytes` of the code's two bytes where they fit, and raises IO where they do not. -/
theorem serializerWritesBothBytes : Obligations.SerializerWritesBothBytes := fun s k hk =>
  ⟨fun hcap => ⟨_, frmSer_of_room hk hcap, writesOut_putBytes s (bytesOfCode k), rfl⟩, frmSer_of_noRoom hk⟩

/-- Settles O25: of two written bytes FRM.DES makes the code `codeOfBytes`, the first byte the more significant. -/
theorem deserializerReadsBigEndian : Obligations.DeserializerReadsBigEndian := fun _ _ =>
  ⟨fun hi lo hhi hlo => ⟨codeOfBytes hi lo, frmDes_of_written hhi hlo, codeOfBytes_toNat hi lo⟩, frmDes_of_unwritten⟩

end Sys2Proof.Proofs

/-! Proofs of the statements of 43_commands.md: from a CMD write to its command (R180, R182, R183), how a command stops (R188, R218), what
a stream decodes to (R191), and the end states of whole commands (R185, R187, R189, R190). -/

namespace Sys2Proof.Proofs

open Sys2Proof.Machine Sys2Proof.Laws

/-! ### From a CMD write to the command -/

/-- The step of a due CMD write, R180. -/
theorem step_cmdWrite {s : State} {a : HostAction} {rest : List HostAction} {v : Word} (hm : HostMoves s a rest)
    (hop : a.op = .regWrite 32 0x00 v) : step s = hostCmdWrite v (takeAction a rest s) := by
  obtain ⟨hh, hd⟩ := hm
  rw [step_of_hostDue hh hd, hop, hostAccess_regWrite _ _ rfl, hostRegWrite, if_pos rfl]

theorem hostCmdWrite_of_command {v : Word} {i : Instr} (s : State) (hv : decode v = .ok i) : hostCmdWrite v s = exec i s := by
  rw [hostCmdWrite, hv]

theorem hostCmdWrite_of_illegal {v : Word} {e : DecodeError} (s : State) (hv : decode v = .error e) :
    hostCmdWrite v s = illegalCmd s := by
  rw [hostCmdWrite, hv]

/-- Settles O4: the due write of a command word reaches `exec` through the register map. -/
theorem cmdWriteStepRunsCommand : Obligations.CmdWriteStepRunsCommand := by
  intro s a rest v i hm hop hv
  refine ⟨?_, (step_cmdWrite hm hop).trans (hostCmdWrite_of_command _ hv)⟩
  cases i <;> rfl

/-- Settles O11: a word that is neither command's does not decode, and while idle ILLEGAL_CMD is not refused. -/
theorem illegalWordRecordsIllegalCmd : Obligations.IllegalWordRecordsIllegalCmd := by
  intro s a rest v hm hop hb hc hd
  obtain ⟨-, -, hillegal⟩ := decodeLegalWords v
  obtain ⟨e, he⟩ := hillegal.mpr ⟨hc, hd⟩
  rw [step_cmdWrite hm hop, hostCmdWrite_of_illegal _ he, illegalCmd, whenIdle_of_idle (by exact hb), statusEnded_illegalCmd]

/-! ### Acceptance -/

theorem capacityCheck_of_fits {s : State} (h : s.nIn.toNat ≤ s.inCapR.toNat) : capacityCheck s = .done s :=
  if_neg (Nat.not_lt.mpr h)

theorem capacityCheck_of_over {s : State} (h : s.inCapR.toNat < s.nIn.toNat) : capacityCheck s = .raise .io s.inCapR := if_pos h

/-- What a command leaves that ends right after ENC.INIT or DEC.INIT with an error: nothing written, and the seeds counted (R183). -/
theorem ended_commit_fresh {s u : State} (hu : u = encInit (accept s) ∨ u = decInit (accept s)) (e : Err) (pos : Word) :
    Ended (commit e pos u) (statusEnded e) pos 0 256 ∧ (commit e pos u).outBuf = s.outBuf ∧ KeepsHostSide s (commit e pos u) := by
  rcases hu with rfl | rfl <;> exact ⟨⟨rfl, rfl, rfl, rfl, rfl⟩, rfl, rfl, rfl, rfl, rfl, rfl⟩

/-- Settles O8: the capacity check comes right after ENC.INIT or DEC.INIT and before FRM.CHECK. -/
theorem commandOverInputCapacityEndsIo : Obligations.CommandOverInputCapacityEndsIo := by
  intro s i hb hover
  rw [← statusEnded_io]
  cases i with
  | compress =>
    refine ⟨_, ?_, ended_commit_fresh (.inl rfl) .io s.inCapR⟩
    rw [exec, execCompress, whenIdle_of_idle hb, capacityCheck_of_over (s := encInit (accept s)) hover]
    rfl
  | decompress =>
    refine ⟨_, ?_, ended_commit_fresh (.inr rfl) .io s.inCapR⟩
    rw [exec, execDecompress, whenIdle_of_idle hb, capacityCheck_of_over (s := decInit (accept s)) hover, raise_bind]
    rfl

/-! ### How a command stops -/

/-- A command's step 0 leaves the results to the command's end, or ends the command (R181, R183, R188). -/
theorem exec_results_or_ended {i : Instr} {s t : State} (h : exec i s = .next t) :
    (t.phase ≠ .idle ∧ t.outLen = s.outLen ∧ t.errPos = s.errPos ∧ t.dictNext = s.dictNext) ∨
    t.phase = .idle ∧ t.done = true := by
  obtain ⟨u, rfl | rfl, rfl | ⟨e, pos, -, rfl⟩⟩ := exec_starts_or_ends h
  · exact .inl ⟨nofun, rfl, rfl, rfl⟩
  · exact .inr ⟨rfl, commit_done ..⟩
  · exact .inl ⟨nofun, rfl, rfl, rfl⟩
  · exact .inr ⟨rfl, commit_done ..⟩

/-- A block step keeps the results and the phase, or ends the command (R188). -/
theorem blockStep_results_or_ended {s t : State} (h : blockStep s = .next t) :
    (t.phase = s.phase ∧ t.outLen = s.outLen ∧ t.errPos = s.errPos ∧ t.dictNext = s.dictNext) ∨
    t.phase = .idle ∧ t.done = true := by
  rcases blockStep_itemDone_or_commit h with h | ⟨e, pos, u, rfl, -⟩
  · exact .inl ⟨h.phase, h.outLen, h.errPos, h.dictNext⟩
  · exact .inr ⟨rfl, commit_done ..⟩

/-- R188 and R218: a step keeps the results and stops no command, or it ends one with DONE = 1, or it is a RESET. -/
theorem step_results_or_ended {s t : State} (h : step s = .next t) :
    ((t.phase = .idle → s.phase = .idle) ∧ t.outLen = s.outLen ∧ t.errPos = s.errPos ∧ t.dictNext = s.dictNext) ∨
    t.phase = .idle ∧ (t.done = true ∨ ∃ a rest, HostMoves s a rest ∧ a.op = .reset) := by
  obtain ⟨u, hu, h⟩ := step_blockCases h
  obtain ⟨-, hphase, -, hout, herr, hdict, -⟩ := hu.eqs
  rw [← hphase, ← hout, ← herr, ← hdict]
  rcases h with rfl | ⟨a, rest, hm, h⟩ | ⟨-, h⟩
  · exact .inl ⟨id, rfl, rfl, rfl⟩
  · rcases h with ⟨-, rfl⟩ | ⟨i, h⟩ | ⟨v, -, rfl⟩ | ⟨i, v, -, -, rfl⟩ | ⟨hop, rfl⟩
    · exact .inl ⟨id, rfl, rfl, rfl⟩
    · rcases exec_results_or_ended h with ⟨hrun, hres⟩ | ⟨hidle, hdone⟩
      · exact .inl ⟨fun hidle => absurd hidle hrun, hres⟩
      · exact .inr ⟨hidle, .inl hdone⟩
    · exact .inl ⟨id, rfl, rfl, rfl⟩
    · exact .inl ⟨id, rfl, rfl, rfl⟩
    · exact .inr ⟨rfl, .inr ⟨a, rest, hm, hop⟩⟩
  · rcases blockStep_results_or_ended h with ⟨hrun, hres⟩ | ⟨hidle, hdone⟩
    · exact .inl ⟨fun hidle => hrun ▸ hidle, hres⟩
    · exact .inr ⟨hidle, .inl hdone⟩

/-- Settles O48, from what a step does to the results; STATUS need not be in form for it. -/
theorem onlyEndOrResetStopsCommand : Obligations.OnlyEndOrResetStopsCommand := by
  intro s t h
  rcases step_results_or_ended h with ⟨hphase, hout, herr, hdict⟩ | ⟨hidle, hend⟩
  · refine ⟨fun hrun _ hidle => absurd (hphase hidle) hrun, fun hne => ?_⟩
    rcases hne with hne | hne | hne
    · exact absurd hout hne
    · exact absurd herr hne
    · exact absurd hdict hne
  · exact ⟨fun _ _ _ => hend, fun _ => ⟨hidle, hend⟩⟩

/-! ### What a stream decodes to -/

/-- The last of a sequence of known codes: the first code, a seed's, or one more code after others (R130). -/
theorem decodeVars_concat {cs : List Code} {k : Code} {v : DecodeVars} (h : decodeVars (cs ++ [k]) = some v) :
    (cs = [] ∧ v = decodeStart k) ∨
    (cs ≠ [] ∧ ∃ u e, decodeVars cs = some u ∧ decodeEntry u k = some e ∧ v = decodeNext u e) := by
  by_cases hcs : cs = []
  · subst hcs
    rw [List.nil_append, decodeVars] at h
    split_ifs at h
    exact .inl ⟨rfl, (Option.some.inj h).symm⟩
  · rw [decodeVars_append hcs] at h
    obtain ⟨u, hu, h⟩ := Option.bind_eq_some_iff.mp h
    obtain ⟨e, he, hv⟩ := Option.map_eq_some_iff.mp h
    exact .inr ⟨hcs, u, e, hu, he, hv.symm⟩

/-- After `n` codes no entry is longer than `n` bytes, the seeds apart, and the previous entry is not either (R191). -/
structure EntriesWithin (n : Nat) (v : DecodeVars) : Prop where
  entries : ∀ e ∈ v.E, e.length ≤ max 1 n
  previous : v.w.length ≤ n
  output : 2 * v.out.length ≤ n * (n + 1)

/-- The entry of code `n` has at most `n + 1` bytes: it is an entry already there, or the previous one and a byte. -/
theorem decodeEntry_length_le {n : Nat} {v : DecodeVars} {k : Code} {e : Entry} (hv : EntriesWithin n v)
    (h : decodeEntry v k = some e) : e.length ≤ n + 1 := by
  rw [decodeEntry] at h
  split_ifs at h with hlt heq
  · have := hv.entries e (List.mem_of_getElem? h)
    omega
  · obtain rfl : v.w ++ v.w.take 1 = e := Option.some.inj h
    have := List.length_take_le 1 v.w
    have := hv.previous
    rw [List.length_append]
    omega

theorem decodeNext_entriesWithin {n : Nat} {v : DecodeVars} {e : Entry} (hv : EntriesWithin n v) (he : e.length ≤ n + 1) :
    EntriesWithin (n + 1) (decodeNext v e) := by
  obtain ⟨hE, hw, hout⟩ := hv
  refine ⟨fun x hx => ?_, he, ?_⟩
  · rw [decodeNext, refInsert] at hx
    split_ifs at hx
    · rcases List.mem_append.mp hx with hx | hx
      · have := hE x hx
        omega
      · obtain rfl := List.mem_singleton.mp hx
        have := List.length_take_le 1 e
        rw [List.length_append]
        omega
    · have := hE x hx
      omega
  · rw [decodeNext, List.length_append]
    linarith

theorem length_of_mem_seeds {e : Entry} (h : e ∈ seeds) : e.length = 1 := by
  obtain ⟨i, -, rfl⟩ := List.mem_map.mp h
  rfl

theorem decodeVars_entriesWithin {cs : List Code} {v : DecodeVars} (h : decodeVars cs = some v) : EntriesWithin cs.length v := by
  induction cs using List.reverseRecOn generalizing v with
  | nil =>
    obtain rfl : ⟨seeds, [], []⟩ = v := Option.some.inj h
    exact ⟨fun e he => (length_of_mem_seeds he).le, le_rfl, le_rfl⟩
  | append_singleton cs k ih =>
    rcases decodeVars_concat h with ⟨rfl, rfl⟩ | ⟨-, u, e, hu, he, rfl⟩
    · exact ⟨fun e he => (length_of_mem_seeds he).le, le_rfl, le_rfl⟩
    · rw [List.length_append, List.length_singleton]
      exact decodeNext_entriesWithin (ih hu) (decodeEntry_length_le (ih hu) he)

/-- `decode` answers OK only where every code is known (R130). -/
theorem decodeVarsFrom_of_decodeLoop {v : DecodeVars} {i : Nat} {cs : List Code} {x : List Byte} (h : decodeLoop v i cs = .ok x) :
    ∃ u, decodeVarsFrom v cs = some u ∧ u.out = x := by
  induction cs generalizing v i with
  | nil => exact ⟨v, rfl, DecodeResult.ok.inj h⟩
  | cons k cs ih =>
    rw [decodeLoop] at h
    cases he : decodeEntry v k with
    | none =>
      rw [he] at h
      cases h
    | some e =>
      rw [he] at h
      rw [decodeVarsFrom, he]
      exact ih h

theorem decodeVars_of_decodeRef_ok {cs : List Code} {x : List Byte} (h : decodeRef cs = .ok x) :
    ∃ v, decodeVars cs = some v ∧ v.out = x := by
  cases cs with
  | nil => exact ⟨_, rfl, DecodeResult.ok.inj h⟩
  | cons k cs =>
    rw [decodeRef] at h
    split_ifs at h with hk
    rw [decodeVars, if_neg hk]
    exact decodeVarsFrom_of_decodeLoop h

/-- Settles O60: the sum of the bounds code by code. -/
theorem decodeOutputBound : Obligations.DecodeOutputBound := by
  intro cs x h
  obtain ⟨v, hv, rfl⟩ := decodeVars_of_decodeRef_ok h
  have := (decodeVars_entriesWithin hv).output
  omega

/-! ### A running command comes to its last block step -/

/-- A running command that meets the invariants and whose input is written. -/
structure Runs (s : State) : Prop where
  running : s.phase ≠ .idle
  cursors : CursorsInRange s
  dictionary : DictionaryOk s
  encoder : EncoderAgrees s
  decoder : DecoderAgrees s
  written : InputWritten s

/-- `t` runs the same command as `s` on the same input and capacities. -/
structure SameCommand (s t : State) : Prop where
  phase : t.phase = s.phase
  nIn : t.nIn = s.nIn
  inBuf : t.inBuf = s.inBuf
  outCapR : t.outCapR = s.outCapR

theorem SameCommand.trans {s t u : State} (hs : SameCommand s t) (ht : SameCommand t u) : SameCommand s u :=
  ⟨ht.phase.trans hs.phase, ht.nIn.trans hs.nIn, ht.inBuf.trans hs.inBuf, ht.outCapR.trans hs.outCapR⟩

theorem blockStep_ne_refused (s : State) (q : Refusal) : blockStep s ≠ .refused q := by
  rw [blockStep]
  split
  · nofun
  · split_ifs
    · exact finish_ne_refused
    · exact finish_ne_refused
    · nofun
  · split_ifs
    · exact finish_ne_refused
    · exact finish_ne_refused
    · exact finish_ne_refused
    · nofun

/-- A block step ends the command, or it reads one more item of its input. -/
theorem blockStep_ends_or_reads {s t : State} (h : blockStep s = .next t) :
    t.phase = .idle ∨ SameCommand s t ∧ s.ip.toNat < s.nIn.toNat ∧ t.ip = s.ip + 1 := by
  have codeCount_le : codeCount s ≤ s.nIn.toNat := Nat.div_le_self _ 2
  rcases blockStep_cases h with ⟨-, hlt, h⟩ | ⟨-, hlt, -, h⟩ | ⟨-, hlt, -, h⟩ | ⟨-, -, h⟩ | ⟨-, -, rfl⟩ | ⟨e, pos, -, rfl⟩
  · obtain ⟨-, hphase, hn, hip, -, -, -, -, hin, -, hcap, -⟩ := encByte_frame h
    exact .inr ⟨⟨hphase, hn, hin, hcap⟩, hlt, hip⟩
  · obtain ⟨-, hphase, hn, hip, -, -, -, -, hin, -, hcap, -⟩ := decFirst_frame h
    exact .inr ⟨⟨hphase, hn, hin, hcap⟩, hlt.trans_le codeCount_le, hip⟩
  · obtain ⟨-, hphase, hn, hip, -, -, -, -, hin, -, hcap, -⟩ := decCode_frame h
    exact .inr ⟨⟨hphase, hn, hin, hcap⟩, hlt.trans_le codeCount_le, hip⟩
  · exact .inl (encFlush_phase h)
  · exact .inl rfl
  · exact .inl rfl

theorem blockRun_of_blockStep {s t : State} (n : Nat) (h : blockStep s = .next t) : blockRun (n + 1) s = blockRun n t := by
  simp only [blockRun, h]

section
variable {s : State} (hs : Runs s)
include hs

theorem Runs.blockStep_next : ∃ t, blockStep s = .next t := by
  cases h : blockStep s with
  | next t => exact ⟨t, rfl⟩
  | fault f => exact absurd h (blockStep_ne_fault hs.running hs.cursors hs.dictionary hs.written)
  | refused q => exact absurd h (blockStep_ne_refused s q)

theorem Runs.step {t : State} (h : blockStep s = .next t) (hst : SameCommand s t) : Runs t where
  running := hst.phase ▸ hs.running
  cursors := blockStep_cursorsInRange hs.cursors h
  dictionary := blockStep_dictionaryOk hs.dictionary h
  encoder := blockStep_encoderAgrees hs.dictionary.shape hs.dictionary.encoder hs.encoder h
  decoder := blockStep_decoderAgrees hs.dictionary.shape hs.decoder h
  written := by
    rw [InputWritten, hst.nIn, hst.inBuf]
    exact hs.written

/-- One block step for each item that is read, and one more that ends the command (R192). -/
theorem Runs.exists_lastStep : ∃ n u t, blockRun (n + 1) s = .next t ∧ Runs u ∧ SameCommand s u ∧ u.ip.toNat = s.ip.toNat + n ∧
    blockStep u = .next t ∧ t.phase = .idle := by
  induction hk : s.nIn.toNat - s.ip.toNat using Nat.strong_induction_on generalizing s with
  | _ k ih =>
    obtain ⟨t, ht⟩ := hs.blockStep_next
    rcases blockStep_ends_or_reads ht with hi | ⟨hst, hlt, hip⟩
    · exact ⟨0, s, t, blockRun_of_blockStep 0 ht, hs, ⟨rfl, rfl, rfl, rfl⟩, rfl, ht, hi⟩
    · have hip' : t.ip.toNat = s.ip.toNat + 1 := by rw [hip, cursor_succ_toNat hlt]
      have hless : t.nIn.toNat - t.ip.toNat < k := by
        rw [hst.nIn, hip']
        omega
      obtain ⟨n, u, v, hrun, hu, htu, hn, hlast⟩ := ih _ hless (hs.step ht hst) rfl
      exact ⟨n + 1, u, v, (blockRun_of_blockStep _ ht).trans hrun, hu, hst.trans htu, by omega, hlast⟩

end

theorem exec_nIn {i : Instr} {s t : State} (h : exec i s = .next t) : t.nIn = s.inLen := by
  obtain ⟨u, rfl | rfl, rfl | ⟨e, pos, -, rfl⟩⟩ := exec_starts_or_ends h <;> rfl

/-- An accepted command that runs on meets the invariants. -/
theorem exec_runs {i : Instr} {s a : State} (h : exec i s = .next a) (hp : a.phase ≠ .idle)
    (hw : ∀ j < s.inLen.toNat, s.inBuf.read j ≠ none) : Runs a where
  running := hp
  cursors := exec_cursorsInRange h
  dictionary := exec_dictionaryOk h
  encoder := exec_encoderAgrees h
  decoder := exec_decoderAgrees h
  written := by
    obtain ⟨-, hbuf, -⟩ := exec_frame h
    rw [InputWritten, exec_nIn h, hbuf]
    exact hw

theorem exec_compress_of_fits {s : State} (hb : s.busy = false) (hcap : s.inLen.toNat ≤ s.inCapR.toNat) :
    exec .compress s = .next (encInit (accept s)) := by
  rw [exec, execCompress, whenIdle_of_idle hb, capacityCheck_of_fits (s := encInit (accept s)) hcap, finish]

/-- Past the capacity check, FRM.CHECK decides how a DECOMPRESS starts (R186). -/
theorem exec_decompress_of_capacity {s : State} (hb : s.busy = false) (hcap : s.inLen.toNat ≤ s.inCapR.toNat) :
    exec .decompress s = finish (decInit (accept s)) (frmCheck (decInit (accept s))) := by
  rw [exec, execDecompress, whenIdle_of_idle hb, capacityCheck_of_fits (s := decInit (accept s)) hcap, done_bind]

theorem exec_decompress_of_fits {s : State} (hb : s.busy = false) (hcap : s.inLen.toNat ≤ s.inCapR.toNat)
    (heven : s.inLen.toNat % 2 = 0) : exec .decompress s = .next (decInit (accept s)) := by
  have hframing : frmCheck (decInit (accept s)) = .done (decInit (accept s)) := if_neg (by simp [heven])
  rw [exec_decompress_of_capacity hb hcap, hframing, finish]

/-- The end of a command that is accepted with its input `x` written: the last block step, and the state before it. -/
theorem command_lastStep {i : Instr} {s a : State} {x : List Byte} (he : exec i s = .next a) (hp : a.phase ≠ .idle) (hip : a.ip = 0)
    (hx : HoldsInput s x) (hlen : s.inLen.toNat = x.length) :
    ∃ u t, Runs u ∧ u.phase = a.phase ∧ HoldsInput u x ∧ u.nIn.toNat = x.length ∧ u.outCapR = s.outCapR ∧
      blockStep u = .next t ∧ t.phase = .idle ∧ blockRun (u.ip.toNat + 1) a = .next t := by
  have hw : ∀ j < s.inLen.toNat, s.inBuf.read j ≠ none := fun j hj => by
    rw [hx j (hlen ▸ hj), List.getElem?_eq_getElem (hlen ▸ hj)]
    exact Option.some_ne_none _
  obtain ⟨n, u, t, hrun, hu, hsame, hn, hlast, hi⟩ := (exec_runs he hp hw).exists_lastStep
  obtain ⟨-, hbuf, -, hcap, -⟩ := exec_frame he
  have hn' : u.ip.toNat = n := by rw [hn, hip]; simp
  refine ⟨u, t, hu, hsame.phase, ?_, ?_, hsame.outCapR.trans hcap, hlast, hi, hn' ▸ hrun⟩
  · rw [HoldsInput, hsame.inBuf, hbuf]
    exact hx
  · rw [hsame.nIn, exec_nIn he, hlen]

/-! ### The results of a command -/

/-- `commit` publishes the two cursors' values and NEXT as numbers (R188). -/
theorem ended_commit {e : Err} {pos : Word} {s : State} {p l n : Nat} (hpos : pos.toNat = p) (hop : s.op.toNat = l)
    (hnext : s.next.toNat = n) :
    Ended (commit e pos s) (statusEnded e) (BitVec.ofNat 32 p) (BitVec.ofNat 32 l) (BitVec.ofNat 32 n) := by
  subst hpos hop hnext
  simp only [BitVec.ofNat_toNat, BitVec.setWidth_eq]
  exact ⟨rfl, rfl, rfl, rfl, rfl⟩

/-- What a command comes to with no host beside it, it comes to with the host's reads between its steps. -/
theorem endsAfter_results {i : Instr} {s a t : State} {n : Nat} {status errPos outLen dictNext : Word} {y : List Byte}
    (hr : HostOnlyReads s) (he : exec i s = .next a) (hb : blockRun n a = .next t)
    (ht : Ended t status errPos outLen dictNext) (hy : HoldsOutput t y) :
    ∃ u, EndsAfter i s n u ∧ Ended u status errPos outLen dictNext ∧ HoldsOutput u y ∧ KeepsHostInput s u := by
  obtain ⟨u, hends, hsame, hkeeps⟩ := endsAfter_of_blockRun hr he hb ht.1
  exact ⟨u, hends, sameBlock_keeps (P := fun s => Ended s status errPos outLen dictNext) (fun _ _ _ _ h => h) hsame ht,
    sameBlock_keeps (P := fun s => HoldsOutput s y) (fun _ _ _ _ h => h) hsame hy, hkeeps⟩

/-! ### What `encode` has emitted after a part of its input -/

theorem encodeByte_prefix (v : EncodeVars) (c : Byte) : v.E <+: (encodeByte v c).E ∧ v.out <+: (encodeByte v c).out := by
  by_cases h : v.w ++ [c] ∈ v.E
  · rw [encodeByte_extend h]
    exact ⟨List.prefix_rfl, List.prefix_rfl⟩
  · rw [encodeByte_mismatch h]
    refine ⟨?_, List.prefix_append _ _⟩
    rw [refInsert]
    split_ifs
    · exact List.prefix_append _ _
    · exact List.prefix_rfl

/-- The dictionary and the codes emitted only grow at their ends. -/
theorem encodeLoop_prefix (y z : List Byte) :
    (encodeLoop y).E <+: (encodeLoop (y ++ z)).E ∧ (encodeLoop y).out <+: (encodeLoop (y ++ z)).out := by
  induction z using List.reverseRecOn with
  | nil => simp
  | append_singleton z c ih =>
    obtain ⟨hE, hout⟩ := encodeByte_prefix (encodeLoop (y ++ z)) c
    rw [← List.append_assoc, encodeLoop_append]
    exact ⟨ih.1.trans hE, ih.2.trans hout⟩

theorem encodeLoop_out_prefix (x : List Byte) : (encodeLoop x).out <+: encodeRef x := by
  rw [encodeRef, encodeFlush]
  split_ifs
  · exact List.prefix_rfl
  · exact List.prefix_append _ _

/-- After the bytes of `y` there is a match, and `encode` emits its code next: the input `y ++ z` is at its end, or its next byte does not
extend the match (R102, R103). -/
def EmitsNext (y z : List Byte) : Prop :=
  y ≠ [] ∧ ∀ c ∈ z.head?, (encodeLoop y).w ++ [c] ∉ (encodeLoop y).E

/-- The code of the match after the bytes of `y`. -/
def matchCode (y : List Byte) : Code := codeOf (encodeLoop y).E (encodeLoop y).w

theorem EmitsNext.prefix_encodeRef {y z : List Byte} (h : EmitsNext y z) :
    (encodeLoop y).out ++ [matchCode y] <+: encodeRef (y ++ z) := by
  obtain ⟨hy, hz⟩ := h
  cases z with
  | nil =>
    rw [List.append_nil, encodeRef, encodeFlush, if_neg ((encodeLoop_w_eq_nil_iff y).not.mpr hy), matchCode]
  | cons c z =>
    have hout : (encodeLoop (y ++ [c])).out = (encodeLoop y).out ++ [matchCode y] := by
      rw [encodeLoop_append, encodeByte_mismatch (hz c rfl), matchCode]
    rw [← hout, show y ++ c :: z = y ++ [c] ++ z by simp]
    exact (encodeLoop_prefix _ z).2.trans (encodeLoop_out_prefix _)

/-- How many bytes the codes of `cs` stand for in the dictionary `E`: L of R185. -/
def coveredBytes (E : List Entry) (cs : List Code) : Nat := (cs.map fun k => (E[k.toNat]?.getD []).length).sum

theorem coveredBytes_concat {E : List Entry} {cs : List Code} {k : Code} {e : Entry} (h : E[k.toNat]? = some e) :
    coveredBytes E (cs ++ [k]) = coveredBytes E cs + e.length := by
  simp [coveredBytes, h]

/-- The match's code stands at the match, in every later dictionary too. -/
theorem getElem?_matchCode {y : List Byte} {E : List Entry} (hy : y ≠ []) (hE : (encodeLoop y).E <+: E) :
    E[(matchCode y).toNat]? = some (encodeLoop y).w := by
  obtain ⟨F, rfl⟩ := hE
  have h := getElem?_codeOf (encodeLoop_dict_length_le y) (encodeLoop_w_mem hy)
  rw [matchCode, List.getElem?_append_left (List.getElem?_eq_some_iff.mp h).1, h]

/-- The codes emitted and the match together stand for the bytes read. -/
theorem coveredBytes_encodeLoop {y : List Byte} {E : List Entry} (hE : (encodeLoop y).E <+: E) :
    coveredBytes E (encodeLoop y).out + (encodeLoop y).w.length = y.length := by
  induction y using List.reverseRecOn with
  | nil => rfl
  | append_singleton y c ih =>
    have hE' : (encodeLoop y).E <+: E := (encodeLoop_prefix y [c]).1.trans hE
    have ih := ih hE'
    rw [encodeLoop_append, List.length_append, List.length_singleton]
    by_cases hmem : (encodeLoop y).w ++ [c] ∈ (encodeLoop y).E
    · simp only [encodeByte_extend hmem, List.length_append, List.length_singleton]
      omega
    · have hy : y ≠ [] := by
        rintro rfl
        exact hmem (singleton_mem_seeds c)
      have hcov := coveredBytes_concat (cs := (encodeLoop y).out) (getElem?_matchCode hy hE')
      rw [matchCode] at hcov
      rw [encodeByte_mismatch hmem, hcov, List.length_singleton, ih]

/-! ### The last block step of a COMPRESS -/

/-- What IN_BUF holds is one sequence, up to its length. -/
theorem holdsInput_eq_take {s : State} {x y : List Byte} (hx : HoldsInput s x) (hy : HoldsInput s y) (hle : y.length ≤ x.length) :
    y = x.take y.length := by
  refine List.ext_getElem? fun i => ?_
  by_cases hi : i < y.length
  · rw [← hy i hi, hx i (hi.trans_le hle), List.getElem?_take_of_lt hi]
  · rw [List.getElem?_eq_none (Nat.not_lt.mp hi), List.getElem?_eq_none (by simp; omega)]

/-- How a COMPRESS of `x` stands that has read `y`, with `z` to come (R110). -/
structure CompressAt (x y z : List Byte) (u : State) : Prop where
  input : x = y ++ z
  cursor : u.ip.toNat = y.length
  vars : HoldsVars u (encodeLoop y)

theorem compressAt_of_runs {u : State} {x : List Byte} (hu : Runs u) (hp : u.phase = .enc) (hx : HoldsInput u x)
    (hlen : u.nIn.toNat = x.length) : ∃ y z, CompressAt x y z u := by
  obtain ⟨y, hy, hin, hv⟩ := (encoderAgrees_iff u).mp hu.encoder hp
  obtain ⟨-, -, henc, -⟩ := hu.cursors hu.running
  obtain ⟨hip, -⟩ := henc hp
  have hyx := holdsInput_eq_take hx hin (by omega)
  refine ⟨y, x.drop y.length, ?_, hy.symm, hv⟩
  conv_lhs => rw [← List.take_append_drop y.length x, ← hyx]

/-- ENC.FLUSH emits the code that `encode` emits last, and commits (R103). -/
theorem encFlush_emits_encodeRef {u t : State} {x : List Byte} (hu : Runs u) (hp : u.phase = .enc)
    (hv : HoldsVars u (encodeLoop x)) (h : encFlush u = .done t) :
    ∃ w, t = commit .ok 0 w ∧ w.next = u.next ∧ w.op.toNat = (frame (encodeRef x)).length ∧ w.op.toNat ≤ u.outCapR.toNat ∧
      HoldsOutput w (frame (encodeRef x)) := by
  obtain ⟨hd, -⟩ := hu.dictionary.encoder hp
  obtain ⟨-, hop, -⟩ := hu.cursors hu.running
  rcases encFlush_done h with ⟨hvalid, -, hcap, rfl⟩ | ⟨hvalid, rfl⟩
  · have hcode : codeOf (encodeLoop x).E (encodeLoop x).w = u.wCode := hv.dict ▸ codeOf_of_dictEntry hd (hv.entry hvalid)
    have href : frame (encodeRef x) = frame (encodeLoop x).out ++ bytesOfCode u.wCode := by
      rw [encodeRef, encodeFlush, if_neg (hv.valid.mp hvalid), hcode, frame_append]
    have hop' : (putBytes (bytesOfCode u.wCode) u).op.toNat = u.op.toNat + 2 := putBytes_op_toNat hcap
    rw [href]
    refine ⟨_, rfl, rfl, ?_, hop' ▸ hcap, holdsOutput_append hv.output hv.op (writesOut_putBytes u _)⟩
    rw [hop', hv.op, List.length_append, bytesOfCode_length]
  · have hw : (encodeLoop x).w = [] := by simpa [hvalid] using hv.valid
    have href : encodeRef x = (encodeLoop x).out := by rw [encodeRef, encodeFlush, if_pos hw]
    rw [href]
    exact ⟨u, rfl, rfl, hv.op, hop, hv.output⟩

/-- How a COMPRESS of `x` can end in its last step from `u` (R185): its codes fit, or the next code does not. -/
inductive CompressEnds (x : List Byte) (u t : State) : Prop where
  | fits (w : State) (commits : t = commit .ok 0 w) (cursor : u.ip.toNat = x.length)
      (op : w.op.toNat = 2 * (encodeRef x).length) (next : w.next.toNat = (encodeLoop x).E.length)
      (room : 2 * (encodeRef x).length ≤ u.outCapR.toNat) (output : HoldsOutput w (frame (encodeRef x)))
  | overflow (y z : List Byte) (stands : CompressAt x y z u) (commits : t = commit .io u.ip u) (emits : EmitsNext y z)
      (noRoom : u.outCapR.toNat < u.op.toNat + 2)

theorem compressEnds_of_lastStep {u t : State} {x : List Byte} (hu : Runs u) (hp : u.phase = .enc) (hx : HoldsInput u x)
    (hlen : u.nIn.toNat = x.length) (h : blockStep u = .next t) (hi : t.phase = .idle) : CompressEnds x u t := by
  obtain ⟨y, z, hat⟩ := compressAt_of_runs hu hp hx hlen
  obtain ⟨rfl, hy, hv⟩ := hat
  have hmatch : u.wValid = true → y ≠ [] := fun hvalid hy => hv.valid.mp hvalid ((encodeLoop_w_eq_nil_iff y).mpr hy)
  rw [List.length_append] at hlen
  rcases blockStep_next h with ⟨-, hlt, h⟩ | ⟨-, heq, h⟩ | ⟨hdec, -⟩ | ⟨hdec, -⟩ | ⟨hdec, -⟩
  · rcases finish_next h with hdone | ⟨e, pos, hraise, rfl⟩
    · obtain ⟨-, hphase, -⟩ := encByte_frame hdone
      rw [hphase, hp] at hi
      cases hi
    · obtain ⟨c, hread, hraise⟩ := encByte_raise hraise
      obtain ⟨rfl, rfl, hvalid, hfd, hroom⟩ := encMatch_raise hraise
      refine .overflow y z ⟨rfl, hy, hv⟩ rfl ⟨hmatch hvalid, fun b hb => ?_⟩ hroom
      have hbc : b = c := by
        rw [hx _ (by rw [List.length_append]; omega), hy, List.getElem?_append_right le_rfl, Nat.sub_self,
          ← List.head?_eq_getElem?, hb] at hread
        exact Option.some.inj hread
      rw [hbc, ← hv.dict]
      exact extension_notMem_dict hu.dictionary.shape hu.running (hv.entry hvalid) hfd
  · obtain rfl : z = [] := List.length_eq_zero_iff.mp (by omega)
    rw [List.append_nil]
    rcases finish_next h with hdone | ⟨e, pos, hraise, rfl⟩
    · obtain ⟨w, rfl, hnext, hop, hroom, hout⟩ := encFlush_emits_encodeRef hu hp hv hdone
      rw [length_frame] at hop
      exact .fits w rfl hy hop (hnext ▸ hv.next) (hop ▸ hroom) hout
    · obtain ⟨rfl, rfl, hvalid, hroom⟩ := encFlush_raise hraise
      exact .overflow y [] ⟨(List.append_nil y).symm, hy, hv⟩ rfl ⟨hmatch hvalid, nofun⟩ hroom
  all_goals
    rw [hp] at hdec
    cases hdec

/-- What a COMPRESS comes to with no host beside it. -/
theorem compress_ends {s : State} {x : List Byte} (hidle : IsIdle s) (hx : HoldsInput s x) (hlen : s.inLen.toNat = x.length)
    (hcap : x.length ≤ s.inCapR.toNat) :
    ∃ a u t, exec .compress s = .next a ∧ blockRun (u.ip.toNat + 1) a = .next t ∧ Runs u ∧ u.nIn.toNat = x.length ∧
      u.phase = .enc ∧ u.outCapR = s.outCapR ∧ CompressEnds x u t := by
  have hexec := exec_compress_of_fits hidle.2 (hlen ▸ hcap)
  obtain ⟨u, t, hu, hphase, hxu, hlenu, hout, hlast, hi, hrun⟩ := command_lastStep hexec nofun rfl hx hlen
  exact ⟨_, u, t, hexec, hrun, hu, hlenu, hphase, hout, compressEnds_of_lastStep hu hphase hxu hlenu hlast hi⟩

/-- Where the next code does not fit, the codes before it are the first OUT_CAP / 2, and it is the code behind them. -/
theorem CompressAt.overflow_codes {x y z : List Byte} {u : State} (hat : CompressAt x y z u) (hu : Runs u) (hemits : EmitsNext y z)
    (hroom : u.outCapR.toNat < u.op.toNat + 2) :
    u.op.toNat = 2 * (u.outCapR.toNat / 2) ∧ (encodeLoop y).out = (encodeRef x).take (u.outCapR.toNat / 2) ∧
    (encodeLoop y).out ++ [matchCode y] = (encodeRef x).take (u.outCapR.toNat / 2 + 1) := by
  obtain ⟨rfl, -, hv⟩ := hat
  obtain ⟨-, hop, -⟩ := hu.cursors hu.running
  have hlen := hv.op
  rw [length_frame] at hlen
  have hj : u.outCapR.toNat / 2 = (encodeLoop y).out.length := by omega
  obtain ⟨rest, hrest⟩ := hemits.prefix_encodeRef
  rw [hj, ← hrest]
  exact ⟨hlen, by simp, (List.take_left' (by simp)).symm⟩

/-- Where a code does not fit, the codes do not. -/
theorem CompressAt.noRoom {x y z : List Byte} {u : State} (hat : CompressAt x y z u) (hemits : EmitsNext y z)
    (hroom : u.outCapR.toNat < u.op.toNat + 2) : u.outCapR.toNat < 2 * (encodeRef x).length := by
  obtain ⟨rfl, -, hv⟩ := hat
  have hlen := hemits.prefix_encodeRef.length_le
  rw [List.length_append, List.length_singleton] at hlen
  rw [hv.op, length_frame] at hroom
  omega

/-- Settles O49: the codes fit, so no code overflows, and the last step is ENC.FLUSH. -/
theorem compressFitsEndState : Obligations.CompressFitsEndState := by
  intro s x hidle hr hx hlen hcap hfits
  obtain ⟨a, u, t, hexec, hrun, hu, -, -, hout, hends⟩ := compress_ends hidle hx hlen hcap
  cases hends with
  | fits w commits cursor op next room output =>
    subst commits
    obtain ⟨hnil, -, hsize⟩ := encodeCodeCounts x
    refine endsAfter_results hr hexec (cursor ▸ hrun) (ended_commit (e := .ok) (p := 0) rfl op ?_) output
    rw [next, hsize]
    simp only [hnil]
  | overflow y z stands commits emits noRoom =>
    have := stands.noRoom emits noRoom
    rw [hout] at this
    omega

/-- Settles O50: the codes do not fit, so the last step meets a code that does not, and the codes emitted before it and its match stand for
the bytes read. -/
theorem compressOverflowEndState : Obligations.CompressOverflowEndState := by
  intro s x j hidle hr hx hlen hcap hover hj
  obtain ⟨a, u, t, hexec, hrun, hu, hnIn, hphase, hout, hends⟩ := compress_ends hidle hx hlen hcap
  cases hends with
  | fits w commits cursor op next room output =>
    rw [hout] at room
    omega
  | overflow y z stands commits emits noRoom =>
    subst commits
    obtain ⟨hop, htake, htake'⟩ := stands.overflow_codes hu emits noRoom
    obtain ⟨hxy, hy, hv⟩ := stands
    obtain ⟨-, -, henc, -⟩ := hu.cursors hu.running
    obtain ⟨hip, -⟩ := henc hphase
    rw [hout, ← hj] at hop htake htake'
    have hE : (encodeLoop y).E <+: (encodeLoop x).E := hxy ▸ (encodeLoop_prefix y z).1
    have hpos : u.ip.toNat = coveredBytes (encodeLoop x).E ((encodeRef x).take (j + 1)) := by
      rw [hy, ← htake', coveredBytes_concat (getElem?_matchCode emits.1 hE), coveredBytes_encodeLoop hE]
    have hnext : u.next.toNat = min 65536 (256 + j) := by
      have hlenOut := hv.op
      rw [length_frame] at hlenOut
      rw [hv.next, encodeLoop_dict_length]
      omega
    obtain ⟨t, hends, hended, hbytes, hkeeps⟩ :=
      endsAfter_results hr hexec hrun (ended_commit (e := .io) hpos hop hnext) (y := frame ((encodeRef x).take j)) (htake ▸ hv.output)
    exact ⟨_, t, by omega, hends, hended, hbytes, hkeeps⟩

/-! ### The codes of a framed input -/

theorem getElem?_frame (cs : List Code) (i : Nat) :
    (frame cs)[2 * i]? = cs[i]?.map (·.extractLsb' 8 8) ∧ (frame cs)[2 * i + 1]? = cs[i]?.map (·.extractLsb' 0 8) := by
  induction cs generalizing i with
  | nil => exact ⟨rfl, rfl⟩
  | cons k cs ih =>
    cases i with
    | zero => exact ⟨rfl, rfl⟩
    | succ i => exact ih i

/-- FRM.DES reads the codes whose framing IN_BUF holds (R85, R162). -/
theorem holdsCodes_of_frame {s : State} {cs : List Code} (h : HoldsInput s (frame cs)) : HoldsCodes s cs := by
  intro i hi
  have hlen := length_frame cs
  obtain ⟨hhi, hlo⟩ := getElem?_frame cs i
  rw [← h _ (by omega), List.getElem?_eq_getElem hi] at hhi hlo
  rw [frmDes_of_written hhi hlo, codeOfBytes_bytesOfCode, List.getElem?_eq_getElem hi, Option.map_some]

theorem length_unframe {y : List Byte} (h : y.length % 2 = 0) : (unframe y).length = y.length / 2 := by
  have := length_frame (unframe y)
  rw [frame_unframe y h] at this
  omega

/-- The codes that FRM.DES reads are one sequence, up to its length. -/
theorem holdsCodes_eq_take {s : State} {cs ds : List Code} (hcs : HoldsCodes s cs) (hds : HoldsCodes s ds)
    (hle : ds.length ≤ cs.length) : ds = cs.take ds.length := by
  refine List.ext_getElem? fun i => ?_
  by_cases hi : i < ds.length
  · rw [List.getElem?_take_of_lt hi]
    exact Option.map_injective (fun _ _ => StepResult.done.inj) ((hds i hi).trans (hcs i (hi.trans_le hle)).symm)
  · rw [List.getElem?_eq_none (Nat.not_lt.mp hi), List.getElem?_eq_none (by simp; omega)]

/-! ### What `decode` holds after a part of its codes -/

theorem decodeVars_nil : decodeVars [] = some ⟨seeds, [], []⟩ := rfl

/-- Every code but the first inserts one entry until the dictionary is full (R131, R133). -/
theorem decodeVars_dict_length {cs : List Code} {v : DecodeVars} (h : decodeVars cs = some v) :
    v.E.length = min 65536 (256 + (cs.length - 1)) := by
  induction cs using List.reverseRecOn generalizing v with
  | nil =>
    obtain rfl : ⟨seeds, [], []⟩ = v := Option.some.inj h
    exact seeds_length
  | append_singleton cs k ih =>
    rcases decodeVars_concat h with ⟨rfl, rfl⟩ | ⟨hcs, u, e, hu, -, rfl⟩
    · exact seeds_length
    · have hpos := List.length_pos_iff.mpr hcs
      rw [decodeNext, length_refInsert, ih hu, List.length_append, List.length_singleton]
      split_ifs <;> omega

/-- Where all codes are known, the first ones are, and have not decoded to more. -/
theorem decodeVars_of_append {cs ds : List Code} {v : DecodeVars} (h : decodeVars (cs ++ ds) = some v) :
    ∃ u, decodeVars cs = some u ∧ u.out.length ≤ v.out.length := by
  induction ds using List.reverseRecOn generalizing v with
  | nil => exact ⟨v, List.append_nil cs ▸ h, le_rfl⟩
  | append_singleton ds k ih =>
    rw [← List.append_assoc] at h
    rcases decodeVars_concat h with ⟨hcs, -⟩ | ⟨-, w, e, hw, -, rfl⟩
    · obtain ⟨rfl, rfl⟩ := List.append_eq_nil_iff.mp hcs
      exact ⟨_, decodeVars_nil, Nat.zero_le _⟩
    · obtain ⟨u, hu, hle⟩ := ih hw
      refine ⟨u, hu, hle.trans ?_⟩
      rw [decodeNext, List.length_append]
      exact Nat.le_add_right _ _

/-- The first `i` codes of `cs` are known and what they decode to fits `cap` bytes (R187). -/
def CodesFit (cap : Nat) (cs : List Code) (i : Nat) : Prop := ∃ v, decodeVars (cs.take i) = some v ∧ v.out.length ≤ cap

theorem CodesFit.mono {cap i j : Nat} {cs : List Code} (h : CodesFit cap cs j) (hij : i ≤ j) : CodesFit cap cs i := by
  obtain ⟨v, hv, hle⟩ := h
  rw [← List.take_append_drop i (cs.take j), List.take_take, Nat.min_eq_left hij] at hv
  obtain ⟨u, hu, hout⟩ := decodeVars_of_append hv
  exact ⟨u, hu, hout.trans hle⟩

theorem not_codesFit_of_unknown {cap i : Nat} {cs : List Code} (h : decodeVars (cs.take i) = none) : ¬CodesFit cap cs i := by
  rintro ⟨v, hv, -⟩
  rw [h] at hv
  cases hv

theorem not_codesFit_of_noRoom {cap i : Nat} {cs : List Code} {v : DecodeVars} (h : decodeVars (cs.take i) = some v)
    (hroom : cap < v.out.length) : ¬CodesFit cap cs i := by
  rintro ⟨w, hw, hle⟩
  obtain rfl : v = w := Option.some.inj (h.symm.trans hw)
  exact absurd hroom (Nat.not_lt.mpr hle)

/-- Where `decode`'s loop answers BAD_CODE, the codes before are known and the code is not. -/
theorem decodeVarsFrom_of_badCode {v : DecodeVars} {i m : Nat} {cs : List Code} {p : List Byte}
    (h : decodeLoop v i cs = .badCode m p) :
    ∃ j < cs.length, m = i + j ∧ (∃ u, decodeVarsFrom v (cs.take j) = some u ∧ u.out = p) ∧
      decodeVarsFrom v (cs.take (j + 1)) = none := by
  induction cs generalizing v i with
  | nil => cases h
  | cons k cs ih =>
    rw [decodeLoop] at h
    cases he : decodeEntry v k with
    | none =>
      rw [he] at h
      obtain ⟨rfl, rfl⟩ := DecodeResult.badCode.inj h
      refine ⟨0, Nat.succ_pos _, rfl, ⟨v, rfl, rfl⟩, ?_⟩
      rw [List.take_succ_cons, decodeVarsFrom, he]
      rfl
    | some e =>
      rw [he] at h
      obtain ⟨j, hj, hm, ⟨u, hu, hp⟩, hnone⟩ := ih h
      refine ⟨j + 1, Nat.succ_lt_succ hj, by omega, ⟨u, ?_, hp⟩, ?_⟩
      · rw [List.take_succ_cons, decodeVarsFrom, he]
        exact hu
      · rw [List.take_succ_cons, decodeVarsFrom, he]
        exact hnone

theorem decodeVars_of_decodeRef_badCode {cs : List Code} {i : Nat} {p : List Byte} (h : decodeRef cs = .badCode i p) :
    i < cs.length ∧ (∃ u, decodeVars (cs.take i) = some u ∧ u.out = p) ∧ decodeVars (cs.take (i + 1)) = none := by
  cases cs with
  | nil => cases h
  | cons k cs =>
    rw [decodeRef] at h
    split_ifs at h with hk
    · obtain ⟨rfl, rfl⟩ := DecodeResult.badCode.inj h
      exact ⟨Nat.succ_pos _, ⟨_, decodeVars_nil, rfl⟩, if_pos hk⟩
    · obtain ⟨j, hj, rfl, hu, hnone⟩ := decodeVarsFrom_of_badCode h
      rw [Nat.add_comm 1 j, List.take_succ_cons, List.take_succ_cons, decodeVars, decodeVars, if_neg hk, if_neg hk]
      exact ⟨Nat.succ_lt_succ hj, hu, hnone⟩

/-! ### The last block step of a DECOMPRESS -/

/-- The first codes of `cs` and the one behind them, up to the cursor. -/
theorem take_succ_of_frmDes {u : State} {cs : List Code} {k : Code} (hcs : HoldsCodes u cs) (hlt : u.ip.toNat < cs.length)
    (hk : frmDes u u.ip.toNat = .done k) : cs.take (u.ip.toNat + 1) = cs.take u.ip.toNat ++ [k] := by
  have hget : cs[u.ip.toNat]? = some k :=
    Option.map_injective (fun _ _ => StepResult.done.inj) ((hcs _ hlt).trans (congrArg some hk))
  rw [List.take_add_one, hget, Option.toList_some]

/-- How a DECOMPRESS of the codes `cs` stands with `decode`'s variables `v` (R139). -/
structure DecompressAt (cs : List Code) (v : DecodeVars) (u : State) : Prop where
  codes : HoldsCodes u cs
  cursor : u.ip.toNat ≤ cs.length
  vars : decodeVars (cs.take u.ip.toNat) = some v
  first : u.firstPending = true ↔ cs.take u.ip.toNat = []
  holds : HoldsDecodeVars u v
  room : v.out.length ≤ u.outCapR.toNat

theorem decompressAt_of_runs {u : State} {cs : List Code} (hu : Runs u) (hp : u.phase = .dec) (hcs : HoldsCodes u cs)
    (hlen : codeCount u = cs.length) : ∃ v, DecompressAt cs v u := by
  obtain ⟨ds, v, hds, hin, hvars, hnil, hv⟩ := (decoderAgrees_iff u).mp hu.decoder hp
  obtain ⟨-, hop, -, hdec⟩ := hu.cursors hu.running
  obtain ⟨-, hip⟩ := hdec hp
  rw [hlen] at hip
  have htake := holdsCodes_eq_take hcs hin (hds ▸ hip)
  rw [hds] at htake
  exact ⟨v, hcs, hip, htake ▸ hvars, htake ▸ hnil, hv, hv.op ▸ hop⟩

theorem DecompressAt.codesFit {cs : List Code} {v : DecodeVars} {u : State} (h : DecompressAt cs v u) :
    CodesFit u.outCapR.toNat cs u.ip.toNat := ⟨v, h.vars, h.room⟩

/-- Why a code is not decoded: `decode` does not know it, or what it decodes to then does not fit (R187). -/
def NextCodeFails (cs : List Code) (u : State) (e : Err) : Prop :=
  e = .badCode ∧ decodeVars (cs.take (u.ip.toNat + 1)) = none ∨
  e = .io ∧ ∃ w, decodeVars (cs.take (u.ip.toNat + 1)) = some w ∧ u.outCapR.toNat < w.out.length

theorem NextCodeFails.not_codesFit {cs : List Code} {u : State} {e : Err} (h : NextCodeFails cs u e) :
    ¬CodesFit u.outCapR.toNat cs (u.ip.toNat + 1) := by
  rcases h with ⟨-, h⟩ | ⟨-, w, hw, hroom⟩
  · exact not_codesFit_of_unknown h
  · exact not_codesFit_of_noRoom hw hroom

section
variable {u : State} {cs : List Code} {v : DecodeVars} {e : Err} {pos : Word} (hat : DecompressAt cs v u)
  (hlt : u.ip.toNat < cs.length)
include hat hlt

/-- DEC.FIRST raises at a code that is no seed's, or that does not fit (R132). -/
theorem nextCodeFails_of_decFirst (hfirst : u.firstPending = true) (h : decFirst u = .raise e pos) :
    pos = u.ip ∧ NextCodeFails cs u e := by
  obtain ⟨hcodes, -, hvars, hnil, hv, -⟩ := hat
  obtain ⟨k, hdes, hpos, h⟩ := decFirst_raise h
  have htake := hnil.mp hfirst
  rw [htake] at hvars
  obtain rfl : ⟨seeds, [], []⟩ = v := Option.some.inj hvars
  rw [NextCodeFails, take_succ_of_frmDes hcodes hlt hdes, htake, List.nil_append, decodeVars]
  refine ⟨hpos, ?_⟩
  rcases h with ⟨he, hk⟩ | ⟨he, hk, hroom⟩
  · exact .inl ⟨he, if_pos hk⟩
  · refine .inr ⟨he, decodeStart k, if_neg (Nat.not_le.mpr hk), ?_⟩
    rwa [hv.op] at hroom

/-- DEC.CODE raises at a code above NEXT, or whose entry does not fit (R133). -/
theorem nextCodeFails_of_decCode (hfirst : u.firstPending = false) (h : decCode u = .raise e pos) :
    pos = u.ip ∧ NextCodeFails cs u e := by
  obtain ⟨hcodes, -, hvars, hnil, hv, -⟩ := hat
  obtain ⟨k, w, hdes, hw, hpos, h⟩ := decCode_raise h
  obtain rfl : v.w = w := Option.some.inj ((hv.entry hfirst).symm.trans hw)
  have hne : cs.take u.ip.toNat ≠ [] := hnil.not.mp (by simp [hfirst])
  rw [NextCodeFails, take_succ_of_frmDes hcodes hlt hdes, decodeVars_append hne, hvars, Option.bind_some]
  refine ⟨hpos, ?_⟩
  rcases h with ⟨he, hk⟩ | ⟨he, entry, hentry, hroom⟩
  · have hnone : decodeEntry v k = none := by
      rw [decodeEntry, ← hv.next, if_neg hk.le.not_gt, if_neg hk.ne']
    exact .inl ⟨he, by rw [hnone, Option.map_none]⟩
  · refine .inr ⟨he, decodeNext v entry, by rw [decodeEntry_of_codeEntry hv hentry, Option.map_some], ?_⟩
    rwa [decodeNext, List.length_append, ← hv.op]

end

/-- How a DECOMPRESS of the codes `cs` can end in its last step from `u` (R187): every code is read, or the next one is not decoded. -/
inductive DecompressEnds (cs : List Code) (u t : State) : Prop where
  | all (cursor : u.ip.toNat = cs.length) (commits : t = commit .ok 0 u)
  | error (e : Err) (cursor : u.ip.toNat < cs.length) (commits : t = commit e u.ip u) (fails : NextCodeFails cs u e)

theorem decompressEnds_of_lastStep {u t : State} {cs : List Code} {v : DecodeVars} (hp : u.phase = .dec)
    (hat : DecompressAt cs v u) (hlen : codeCount u = cs.length) (h : blockStep u = .next t) (hi : t.phase = .idle) :
    DecompressEnds cs u t := by
  rcases blockStep_next h with ⟨henc, -⟩ | ⟨henc, -⟩ | ⟨-, hlt, hfirst, h⟩ | ⟨-, hlt, hfirst, h⟩ | ⟨-, heq, rfl⟩
  · rw [hp] at henc
    cases henc
  · rw [hp] at henc
    cases henc
  · rcases finish_next h with hdone | ⟨e, pos, hraise, rfl⟩
    · rw [(decFirst_itemDone hdone).phase, hp] at hi
      cases hi
    · obtain ⟨rfl, hfails⟩ := nextCodeFails_of_decFirst hat (hlen ▸ hlt) hfirst hraise
      exact .error e (hlen ▸ hlt) rfl hfails
  · rcases finish_next h with hdone | ⟨e, pos, hraise, rfl⟩
    · rw [(decCode_itemDone hdone).phase, hp] at hi
      cases hi
    · obtain ⟨rfl, hfails⟩ := nextCodeFails_of_decCode hat (hlen ▸ hlt) hfirst hraise
      exact .error e (hlen ▸ hlt) rfl hfails
  · exact .all (heq.trans hlen) rfl

/-- What a DECOMPRESS comes to with no host beside it. -/
theorem decompress_ends {s : State} {y : List Byte} (hidle : IsIdle s) (hy : HoldsInput s y) (hlen : s.inLen.toNat = y.length)
    (hcap : y.length ≤ s.inCapR.toNat) (heven : y.length % 2 = 0) :
    ∃ a u t v, exec .decompress s = .next a ∧ blockRun (u.ip.toNat + 1) a = .next t ∧ u.outCapR = s.outCapR ∧
      DecompressAt (unframe y) v u ∧ DecompressEnds (unframe y) u t := by
  have hexec := exec_decompress_of_fits hidle.2 (hlen ▸ hcap) (hlen ▸ heven)
  obtain ⟨u, t, hu, hphase, hyu, hlenu, hout, hlast, hi, hrun⟩ := command_lastStep hexec nofun rfl hy hlen
  have hcount : codeCount u = (unframe y).length := by rw [codeCount, hlenu, length_unframe heven]
  obtain ⟨v, hat⟩ := decompressAt_of_runs hu hphase (holdsCodes_of_frame ((frame_unframe y heven).symm ▸ hyu)) hcount
  exact ⟨_, u, t, v, hexec, hrun, hout, hat, decompressEnds_of_lastStep hphase hat hcount hlast hi⟩

/-- A DECOMPRESS whose codes fit reads them all. -/
theorem DecompressEnds.commits_ok {cs : List Code} {u t : State} (h : DecompressEnds cs u t)
    (hfit : CodesFit u.outCapR.toNat cs cs.length) : u.ip.toNat = cs.length ∧ t = commit .ok 0 u := by
  cases h with
  | all cursor commits => exact ⟨cursor, commits⟩
  | error e cursor commits fails => exact absurd (hfit.mono cursor) fails.not_codesFit

/-- A DECOMPRESS ends at the first code that is not known or does not fit (R187's `i*`). -/
theorem DecompressEnds.error_at {cs : List Code} {v : DecodeVars} {u t : State} {i : Nat} (h : DecompressEnds cs u t)
    (hat : DecompressAt cs v u) (hi : i < cs.length) (hfit : CodesFit u.outCapR.toNat cs i)
    (hfail : ¬CodesFit u.outCapR.toNat cs (i + 1)) :
    u.ip.toNat = i ∧ ∃ e, t = commit e u.ip u ∧ NextCodeFails cs u e := by
  have hle : u.ip.toNat ≤ i := Nat.le_of_not_lt fun hlt => hfail (hat.codesFit.mono hlt)
  cases h with
  | all cursor commits => omega
  | error e cursor commits fails =>
    have hge : i ≤ u.ip.toNat := Nat.le_of_not_lt fun hlt => fails.not_codesFit (hfit.mono hlt)
    exact ⟨Nat.le_antisymm hle hge, e, commits, fails⟩

/-- What `commit` publishes of a DECOMPRESS that has read `i` codes. -/
theorem DecompressAt.commit_results {cs : List Code} {v : DecodeVars} {u : State} (hat : DecompressAt cs v u) (e : Err) {pos : Word} {p : Nat}
    (hpos : pos.toNat = p) :
    Ended (commit e pos u) (statusEnded e) (BitVec.ofNat 32 p) (BitVec.ofNat 32 v.out.length)
      (BitVec.ofNat 32 (min 65536 (256 + (u.ip.toNat - 1)))) := by
  obtain ⟨-, hip, hvars, -, hv, -⟩ := hat
  refine ended_commit hpos hv.op ?_
  rw [hv.next, decodeVars_dict_length hvars, List.length_take, Nat.min_eq_left hip]

/-- Settles O51: every code is known and fits, so the last step is DEC.END. -/
theorem decompressOkEndState : Obligations.DecompressOkEndState := by
  intro s y x hidle hr hy hlen hcap heven hdecode hroom
  obtain ⟨a, u, t, v, hexec, hrun, hout, hat, hends⟩ := decompress_ends hidle hy hlen hcap heven
  obtain ⟨w, hw, rfl⟩ := decodeVars_of_decodeRef_ok hdecode
  have hw' : decodeVars ((unframe y).take (unframe y).length) = some w := by rwa [List.take_length]
  obtain ⟨hip, rfl⟩ := hends.commits_ok ⟨w, hw', hout ▸ hroom⟩
  obtain rfl : v = w := Option.some.inj (hat.vars.symm.trans (hip ▸ hw'))
  have hended := hat.commit_results .ok (pos := 0) (p := 0) rfl
  rw [hip, length_unframe heven] at hrun hended
  have hsize : min 65536 (256 + (y.length / 2 - 1)) = if y.length = 0 then 256 else min 65536 (256 + y.length / 2 - 1) := by
    split_ifs <;> omega
  rw [hsize] at hended
  exact endsAfter_results hr hexec hrun hended hat.holds.output

/-- Settles O52: the codes before the bad one are known and fit, so the last step meets the bad one. -/
theorem decompressBadCodeEndState : Obligations.DecompressBadCodeEndState := by
  intro s y p i hidle hr hy hlen hcap heven hdecode hroom
  obtain ⟨a, u, t, v, hexec, hrun, hout, hat, hends⟩ := decompress_ends hidle hy hlen hcap heven
  obtain ⟨hi, ⟨w, hw, rfl⟩, hnone⟩ := decodeVars_of_decodeRef_badCode hdecode
  obtain ⟨rfl, e, rfl, hfails⟩ := hends.error_at hat hi ⟨w, hw, hout ▸ hroom⟩ (not_codesFit_of_unknown hnone)
  obtain rfl : v = w := Option.some.inj (hat.vars.symm.trans hw)
  obtain rfl : e = .badCode := by
    rcases hfails with ⟨he, -⟩ | ⟨-, w, hw, -⟩
    · exact he
    · rw [hnone] at hw
      cases hw
  obtain ⟨t, hends, hresults⟩ := endsAfter_results hr hexec hrun (hat.commit_results .badCode rfl) hat.holds.output
  exact ⟨_, t, by rw [← length_unframe heven]; omega, hends, hresults⟩

/-- Settles O53: the codes before the one that does not fit are known and fit, so the last step meets that one. -/
theorem decompressOverflowEndState : Obligations.DecompressOverflowEndState := by
  intro s y p q i hidle hr hy hlen hcap heven hi hp hroom hq hover
  obtain ⟨a, u, t, v, hexec, hrun, hout, hat, hends⟩ := decompress_ends hidle hy hlen hcap heven
  obtain ⟨w, hw, rfl⟩ := decodeVars_of_decodeRef_ok hp
  obtain ⟨w', hw', rfl⟩ := decodeVars_of_decodeRef_ok hq
  rw [← length_unframe heven] at hi
  obtain ⟨rfl, e, rfl, hfails⟩ :=
    hends.error_at hat hi ⟨w, hw, hout ▸ hroom⟩ (not_codesFit_of_noRoom hw' (hout ▸ hover))
  obtain rfl : v = w := Option.some.inj (hat.vars.symm.trans hw)
  obtain rfl : e = .io := by
    rcases hfails with ⟨-, hnone⟩ | ⟨he, -⟩
    · rw [hnone] at hw'
      cases hw'
    · exact he
  obtain ⟨t, hends, hresults⟩ := endsAfter_results hr hexec hrun (hat.commit_results .io rfl) hat.holds.output
  exact ⟨_, t, by rw [← length_unframe heven]; omega, hends, hresults⟩

/-! ### A command comes to one end, whatever the host reads -/

theorem blockRun_of_idle {s t : State} {n : Nat} (hi : s.phase = .idle) (h : blockRun n s = .next t) : n = 0 ∧ t = s := by
  cases n with
  | zero => exact ⟨rfl, (Host.Outcome.next.inj h).symm⟩
  | succ n =>
    obtain ⟨u, hu, -⟩ := blockRun_succ h
    rw [blockStep, hi] at hu
    cases hu

theorem blockRun_end_unique {s t u : State} {m n : Nat} (ht : blockRun m s = .next t) (hu : blockRun n s = .next u)
    (hti : t.phase = .idle) (hui : u.phase = .idle) : m = n ∧ t = u := by
  induction m generalizing s n with
  | zero =>
    obtain rfl : s = t := Host.Outcome.next.inj ht
    obtain ⟨rfl, rfl⟩ := blockRun_of_idle hti hu
    exact ⟨rfl, rfl⟩
  | succ m ih =>
    cases n with
    | zero =>
      obtain rfl : s = u := Host.Outcome.next.inj hu
      exact absurd (blockRun_of_idle hui ht).1 (Nat.succ_ne_zero m)
    | succ n =>
      obtain ⟨v, hv, ht⟩ := blockRun_succ ht
      obtain ⟨w, hw, hu⟩ := blockRun_succ hu
      obtain rfl : v = w := Host.Outcome.next.inj (hv.symm.trans hw)
      obtain ⟨rfl, rfl⟩ := ih ht hu
      exact ⟨rfl, rfl⟩

theorem exec_hostOnlyReads {i : Instr} {s a : State} (he : exec i s = .next a) (hr : HostOnlyReads s) : HostOnlyReads a := by
  obtain ⟨-, -, hin, hout, hhost, -⟩ := exec_frame he
  rw [HostOnlyReads, hin, hout, hhost]
  exact hr

/-- However the host's reads fall, a command that has ended is the block that the command ends in. -/
theorem endsAfter_unique {i : Instr} {s a t u : State} {n k : Nat} (hr : HostOnlyReads s) (hends : EndsAfter i s n t)
    (he : exec i s = .next a) (hk : runSteps k a = .next u) (hi : u.phase = .idle) : SameBlock t u := by
  obtain ⟨a', k', he', hk', -, hi', -⟩ := hends
  obtain rfl : a = a' := Host.Outcome.next.inj (he.symm.trans he')
  have hra := exec_hostOnlyReads he hr
  obtain ⟨t0, ht0, ht, -⟩ := blockRun_of_runSteps hra hk'
  obtain ⟨u0, hu0, hu, -⟩ := blockRun_of_runSteps hra hk
  obtain ⟨-, rfl⟩ := blockRun_end_unique ht0 hu0 (ht.symm.eqs.2.1.trans hi') (hu.symm.eqs.2.1.trans hi)
  exact ht.symm.trans hu

/-! ### What a COMPRESS that ended OK has written -/

/-- A COMPRESS that ends OK had room for its codes, and they are what it wrote (R185). -/
theorem compress_ended_ok {s a t : State} {x : List Byte} {k : Nat} (hidle : IsIdle s) (hr : HostOnlyReads s) (hx : HoldsInput s x)
    (hlen : s.inLen.toNat = x.length) (he : exec .compress s = .next a) (hk : runSteps k a = .next t) (hi : t.phase = .idle)
    (hok : t.status = 0x00000002#32) :
    t.outLen.toNat = (frame (encodeRef x)).length ∧ HoldsOutput t (frame (encodeRef x)) ∧
    t.dictNext = BitVec.ofNat 32 (if (encodeRef x).length = 0 then 256 else min 65536 (256 + (encodeRef x).length - 1)) := by
  have hends_ok : ∀ {n u}, EndsAfter .compress s n u → SameBlock u t ∧ u.status ≠ 0x00000032#32 := fun hends => by
    have hsame := endsAfter_unique hr hends he hk hi
    rw [← hsame.eqs.1, hok]
    exact ⟨hsame, by decide⟩
  by_cases hcap : s.inCapR.toNat < s.inLen.toNat
  · obtain ⟨b, hb, ⟨hbi, hio, -⟩, -⟩ := commandOverInputCapacityEndsIo s .compress hidle.2 hcap
    have hends : EndsAfter .compress s 0 b := ⟨b, 0, hb, rfl, rfl, hbi, fun j hj => absurd hj (Nat.not_lt_zero j)⟩
    exact absurd hio (hends_ok hends).2
  · rw [hlen] at hcap
    by_cases hfits : 2 * (encodeRef x).length ≤ s.outCapR.toNat
    · obtain ⟨u, hends, ⟨-, -, -, hout, hdict⟩, hbytes, -⟩ :=
        compressFitsEndState s x hidle hr hx hlen (Nat.not_lt.mp hcap) hfits
      have hsame := (hends_ok hends).1
      obtain ⟨-, -, -, hout', -, hdict', -⟩ := hsame.eqs
      refine ⟨?_, sameBlock_keeps (P := fun s => HoldsOutput s _) (fun _ _ _ _ h => h) hsame hbytes, hdict'.trans hdict⟩
      have := s.outCapR.isLt
      rw [hout', hout, length_frame, BitVec.toNat_ofNat, Nat.mod_eq_of_lt (by omega)]
    · obtain ⟨n, u, -, hends, ⟨-, hio, -⟩, -⟩ :=
        compressOverflowEndState s x _ hidle hr hx hlen (Nat.not_lt.mp hcap) (Nat.not_le.mp hfits) rfl
      exact absurd hio (hends_ok hends).2

/-- Settles O55: the framed codes decode to the input (R141), so the DECOMPRESS of what a COMPRESS wrote ends OK. -/
theorem compressThenDecompressRestores : Obligations.CompressThenDecompressRestores := by
  intro s a t u x k hidle hr hx hlen he hk hi hok hidle' hr' hin hcopy hcap hroom
  obtain ⟨hout, hbytes, hdict⟩ := compress_ended_ok hidle hr hx hlen he hk hi hok
  have hy : HoldsInput u (frame (encodeRef x)) := fun i hlt => (hcopy i (hout.symm ▸ hlt)).trans (hbytes i hlt)
  have hdecode : decodeRef (unframe (frame (encodeRef x))) = .ok x := by rw [unframe_frame, decodeInvertsEncode x]
  have hframe := length_frame (encodeRef x)
  obtain ⟨v, hends, hended, hres, -⟩ := decompressOkEndState u _ x hidle' hr' hy (hin ▸ hout) (hout ▸ hcap) (by omega) hdecode hroom
  have hhalf : (frame (encodeRef x)).length / 2 = (encodeRef x).length := by omega
  have hzero : (frame (encodeRef x)).length = 0 ↔ (encodeRef x).length = 0 := by omega
  rw [hhalf] at hended
  simp only [hzero] at hended
  refine ⟨v, hout.symm ▸ hends, ?_, hres⟩
  rw [hdict]
  exact hended

/-! ### Two runs of one command on one input -/

/-- Two blocks that run one command alike: what the command reads is the same in both. The match's code and the previous code count only
where there is a match and a first code. -/
structure Alike (s s' : State) : Prop where
  running : s.phase ≠ .idle
  phase : s'.phase = s.phase
  ip : s'.ip = s.ip
  op : s'.op = s.op
  nIn : s'.nIn = s.nIn
  next : s'.next = s.next
  dict : s'.dict = s.dict
  outCapR : s'.outCapR = s.outCapR
  enc : s.phase = .enc → s'.wValid = s.wValid ∧ (s.wValid = true → s'.wCode = s.wCode)
  dec : s.phase = .dec → s'.firstPending = s.firstPending ∧ (s.firstPending = false → s'.prevCode = s.prevCode)
  input : ∀ j < s.nIn.toNat, s'.inBuf.read j = s.inBuf.read j
  output : ∀ j < s.op.toNat, s'.outBuf.read j = s.outBuf.read j

/-- Two commands that have ended with the same results (R189). -/
def EndsAlike (t t' : State) : Prop :=
  Ended t' t.status t.errPos t.outLen t.dictNext ∧ ∀ j < t.outLen.toNat, t'.outBuf.read j = t.outBuf.read j

/-- The two operations answer states that `R` relates, or they raise the same error or fault. -/
inductive ResultAlike (R : State → State → Prop) : StepResult State → StepResult State → Prop where
  | done {t t' : State} (h : R t t') : ResultAlike R (.done t) (.done t')
  | raise (e : Err) (pos : Word) : ResultAlike R (.raise e pos) (.raise e pos)
  | fault (f : Fault) : ResultAlike R (.fault f) (.fault f)

theorem ResultAlike.bind {R Q : State → State → Prop} {r r' : StepResult State} {f f' : State → StepResult State}
    (h : ResultAlike R r r') (hf : ∀ t t', r = .done t → R t t' → ResultAlike Q (f t) (f' t')) :
    ResultAlike Q (r.bind f) (r'.bind f') := by
  cases h with
  | done h => exact hf _ _ rfl h
  | raise e pos => exact .raise e pos
  | fault x => exact .fault x

/-- One value read by both. -/
theorem resultAlike_bind {α : Type} {Q : State → State → Prop} (x : StepResult α) {f f' : α → StepResult State}
    (hf : ∀ a, ResultAlike Q (f a) (f' a)) : ResultAlike Q (x.bind f) (x.bind f') := by
  cases x with
  | done a => exact hf a
  | raise e pos => exact .raise e pos
  | fault x => exact .fault x

section
variable {s s' : State} (h : Alike s s')
include h

theorem Alike.putBytes {bs : List Byte} (hcap : s.op.toNat + bs.length ≤ s.outCapR.toNat) :
    Alike (putBytes bs s) (putBytes bs s') :=
  { h with
    op := congrArg (· + BitVec.ofNat 32 bs.length) h.op
    output := fun j hj => by
      rw [putBytes_op_toNat hcap] at hj
      rw [putBytes_outBuf, putBytes_outBuf, read_writeBytes, read_writeBytes, h.op]
      split_ifs
      · rfl
      · exact h.output j (by omega) }

theorem Alike.insertEntry (e : Entry) : Alike (insertEntry e s) (insertEntry e s') := by
  rw [insertEntry_eq, insertEntry_eq]
  exact { h with dict := by simp only [h.dict, h.next], next := by simp only [h.next] }

theorem Alike.nextItem : Alike { s with ip := s.ip + 1 } { s' with ip := s'.ip + 1 } :=
  { h with ip := congrArg (· + 1) h.ip }

theorem Alike.commit (e : Err) (pos : Word) : EndsAlike (commit e pos s) (commit e pos s') :=
  ⟨⟨rfl, rfl, rfl, h.op, congrArg (BitVec.zeroExtend 32) h.next⟩, h.output⟩

theorem Alike.dictEntry (k : Nat) : dictEntry s' k = dictEntry s k := by
  rw [Machine.dictEntry, Machine.dictEntry, h.next, h.dict]

theorem Alike.entryAt (k : Code) : entryAt s' k = entryAt s k := by
  rw [Machine.entryAt, Machine.entryAt, h.dictEntry]

theorem Alike.fdLookup (p : Code) (b : Byte) : fdLookup s' p b = fdLookup s p b := by
  rw [Machine.fdLookup, Machine.fdLookup, h.dictEntry, h.dict, h.next]

theorem Alike.codeEntry (w : Entry) (k : Code) : codeEntry s' w k = codeEntry s w k := by
  rw [Machine.codeEntry, Machine.codeEntry, h.next, h.entryAt, h.ip]

theorem Alike.memReadIn {i : Nat} (hi : i < s.nIn.toNat) : memReadIn s' i = memReadIn s i := by
  rw [Machine.memReadIn, Machine.memReadIn, h.input i hi]

theorem Alike.frmDes {i : Nat} (hi : i < codeCount s) : frmDes s' i = frmDes s i := by
  rw [codeCount] at hi
  rw [Machine.frmDes, Machine.frmDes, h.memReadIn (by omega), h.memReadIn (by omega)]

theorem Alike.frmSer (k : Code) : ResultAlike Alike (frmSer k s) (frmSer k s') := by
  rw [Machine.frmSer, Machine.frmSer, h.next, h.op, h.outCapR, h.ip]
  split_ifs with hk hcap
  · exact .fault _
  · exact .raise _ _
  · exact .done (h.putBytes (Nat.not_lt.mp hcap))

theorem Alike.outAppend (e : Entry) : ResultAlike Alike (outAppend e s) (outAppend e s') := by
  rw [Machine.outAppend, Machine.outAppend, h.op, h.outCapR, h.ip]
  split_ifs with hcap
  · exact .raise _ _
  · exact .done (h.putBytes (Nat.not_lt.mp hcap))

/-! The encoder's operations. -/

theorem Alike.encMismatch (c : Byte) (hp : s.phase = .enc) (hvalid : s.wValid = true) :
    ResultAlike Alike (encMismatch c s) (encMismatch c s') := by
  rw [Machine.encMismatch, Machine.encMismatch, (h.enc hp).2 hvalid]
  refine (h.frmSer s.wCode).bind fun t t' hdone ht => ?_
  obtain ⟨-, -, rfl⟩ := frmSer_done hdone
  obtain ⟨hv, hcode⟩ := ht.enc hp
  rw [ht.entryAt, hcode hvalid]
  refine resultAlike_bind _ fun w => .done { ht.insertEntry (w ++ [c]) with enc := fun _ => ⟨?_, fun _ => rfl⟩ }
  rw [insertEntry_wValid, insertEntry_wValid, hv]

theorem Alike.encMatch (c : Byte) (hp : s.phase = .enc) : ResultAlike Alike (encMatch c s) (encMatch c s') := by
  obtain ⟨hv, hcode⟩ := h.enc hp
  cases hvalid : s.wValid with
  | false =>
    rw [encMatch_start hvalid, encMatch_start (hv.trans hvalid)]
    exact .done { h with enc := fun _ => ⟨rfl, fun _ => rfl⟩ }
  | true =>
    have hfd' : Machine.fdLookup s' s'.wCode c = Machine.fdLookup s s.wCode c := by rw [hcode hvalid, h.fdLookup]
    cases hfd : Machine.fdLookup s s.wCode c with
    | some n =>
      rw [encMatch_extend hvalid hfd, encMatch_extend (hv.trans hvalid) (hfd'.trans hfd)]
      exact .done { h with enc := fun _ => ⟨hv, fun _ => rfl⟩ }
    | none =>
      rw [encMatch_mismatch hvalid hfd, encMatch_mismatch (hv.trans hvalid) (hfd'.trans hfd)]
      exact h.encMismatch c hp hvalid

theorem Alike.encByte (hp : s.phase = .enc) (hlt : s.ip.toNat < s.nIn.toNat) :
    ResultAlike Alike (encByte s) (encByte s') := by
  rw [Machine.encByte, Machine.encByte, h.ip, h.memReadIn hlt]
  exact resultAlike_bind _ fun c => (h.encMatch c hp).bind fun t t' _ ht => .done ht.nextItem

theorem Alike.encFlush (hp : s.phase = .enc) : ResultAlike EndsAlike (encFlush s) (encFlush s') := by
  obtain ⟨hv, hcode⟩ := h.enc hp
  cases hvalid : s.wValid with
  | false =>
    rw [encFlush_of_noMatch hvalid, encFlush_of_noMatch (hv.trans hvalid)]
    exact .done (h.commit .ok 0)
  | true =>
    rw [encFlush_of_match hvalid, encFlush_of_match (hv.trans hvalid), hcode hvalid]
    exact (h.frmSer s.wCode).bind fun t t' _ ht => .done (ht.commit .ok 0)

/-! The decoder's operations. -/

theorem Alike.decFirst (hlt : s.ip.toNat < codeCount s) : ResultAlike Alike (decFirst s) (decFirst s') := by
  rw [Machine.decFirst, Machine.decFirst, h.ip, h.frmDes hlt]
  refine resultAlike_bind _ fun k => ?_
  split_ifs
  · exact .raise _ _
  · exact (h.outAppend _).bind fun t t' _ ht => .done { ht.nextItem with dec := fun _ => ⟨rfl, fun _ => rfl⟩ }

theorem Alike.decCode (hp : s.phase = .dec) (hfirst : s.firstPending = false) (hlt : s.ip.toNat < codeCount s) :
    ResultAlike Alike (decCode s) (decCode s') := by
  rw [Machine.decCode, Machine.decCode, h.ip, h.frmDes hlt, (h.dec hp).2 hfirst, h.entryAt]
  refine resultAlike_bind _ fun k => resultAlike_bind _ fun w => ?_
  rw [h.codeEntry]
  refine resultAlike_bind _ fun e => (h.outAppend e).bind fun t t' _ ht => resultAlike_bind _ fun b => .done ?_
  have hins := ht.insertEntry (w ++ [b])
  refine { hins with ip := ?_, dec := fun hp => ⟨(hins.dec hp).1, fun _ => rfl⟩ }
  rw [ht.ip]

/-- Two operations alike end their steps alike. -/
theorem Alike.finish {R : State → State → Prop} {r r' : StepResult State} {t : State} (hr : ResultAlike R r r')
    (hf : finish s r = .next t) : ∃ t', finish s' r' = .next t' ∧ (R t t' ∨ t.phase = .idle ∧ EndsAlike t t') := by
  cases hr with
  | done hR =>
    obtain rfl := Host.Outcome.next.inj hf
    exact ⟨_, rfl, .inl hR⟩
  | raise e pos =>
    obtain rfl := Host.Outcome.next.inj hf
    exact ⟨_, rfl, .inr ⟨rfl, h.commit e pos⟩⟩
  | fault x => cases hf

/-- Two blocks alike step alike: the commands go on alike or end alike. -/
theorem Alike.blockStep {t : State} (hb : blockStep s = .next t) :
    ∃ t', blockStep s' = .next t' ∧ (Alike t t' ∨ t.phase = .idle ∧ EndsAlike t t') := by
  have hcount : codeCount s' = codeCount s := by rw [codeCount, codeCount, h.nIn]
  rcases blockStep_next hb with ⟨hp, hlt, hf⟩ | ⟨hp, heq, hf⟩ | ⟨hp, hlt, hfirst, hf⟩ | ⟨hp, hlt, hfirst, hf⟩ | ⟨hp, heq, rfl⟩
  · rw [blockStep_encByte (h.phase.trans hp) (by rwa [h.ip, h.nIn])]
    exact h.finish (h.encByte hp hlt) hf
  · rw [blockStep_encFlush (h.phase.trans hp) (by rwa [h.ip, h.nIn])]
    obtain ⟨t', ht', hend⟩ := h.finish (h.encFlush hp) hf
    refine ⟨t', ht', .inr ?_⟩
    rcases hend with hend | hend
    · rcases finish_next hf with hdone | ⟨e, pos, -, rfl⟩
      · exact ⟨encFlush_phase hdone, hend⟩
      · exact ⟨rfl, hend⟩
    · exact hend
  · rw [blockStep_decItem (h.phase.trans hp) (by rwa [h.ip, hcount]), (h.dec hp).1, hfirst, if_pos rfl]
    exact h.finish (h.decFirst hlt) hf
  · rw [blockStep_decItem (h.phase.trans hp) (by rwa [h.ip, hcount]), (h.dec hp).1, hfirst, if_neg Bool.false_ne_true]
    exact h.finish (h.decCode hp hfirst hlt) hf
  · rw [blockStep_decEnd (h.phase.trans hp) (by rwa [h.ip, hcount])]
    exact ⟨_, rfl, .inr ⟨rfl, h.commit .ok 0⟩⟩

end

theorem Alike.blockRun {s s' t : State} {n : Nat} (h : Alike s s') (hb : blockRun n s = .next t) (hi : t.phase = .idle) :
    ∃ t', blockRun n s' = .next t' ∧ EndsAlike t t' := by
  induction n generalizing s s' with
  | zero =>
    obtain rfl := Host.Outcome.next.inj hb
    exact absurd hi h.running
  | succ n ih =>
    obtain ⟨u, hu, hb⟩ := blockRun_succ hb
    obtain ⟨u', hu', hlike⟩ := h.blockStep hu
    rw [blockRun_of_blockStep n hu']
    rcases hlike with hlike | ⟨hui, hends⟩
    · exact ih hlike hb
    · obtain ⟨rfl, rfl⟩ := blockRun_of_idle hui hb
      exact ⟨u', rfl, hends⟩

/-! ### Acceptance on one input -/

theorem exec_decompress_of_odd {s : State} (hb : s.busy = false) (hcap : s.inLen.toNat ≤ s.inCapR.toNat)
    (hodd : s.inLen.toNat % 2 = 1) : exec .decompress s = .next (commit .framing (s.inLen - 1) (decInit (accept s))) := by
  have hframing : frmCheck (decInit (accept s)) = .raise .framing (s.inLen - 1) := if_pos hodd
  rw [exec_decompress_of_capacity hb hcap, hframing, finish]

/-- Two commands that end in their acceptance step have written nothing. -/
theorem endsAlike_of_noOutput {t t' : State} {status errPos dictNext : Word} (ht : Ended t status errPos 0 dictNext)
    (ht' : Ended t' status errPos 0 dictNext) : EndsAlike t t' := by
  obtain ⟨-, hs, hp, hl, hd⟩ := ht
  rw [EndsAlike, hs, hp, hl, hd]
  exact ⟨ht', nofun⟩

/-- One command accepted on one input runs alike or ends alike (R183, R186, R189). -/
theorem exec_alike {i : Instr} {s s' a a' : State} (hlen : s.inLen = s'.inLen) (hcap : s.inCapR = s'.inCapR)
    (hout : s.outCapR = s'.outCapR) (hin : s.inLen.toNat ≤ s.inCapR.toNat → ∀ j < s.inLen.toNat, s.inBuf.read j = s'.inBuf.read j)
    (he : exec i s = .next a) (he' : exec i s' = .next a') : Alike a a' ∨ a.phase = .idle ∧ EndsAlike a a' := by
  have hb := (exec_next he).1
  have hb' := (exec_next he').1
  by_cases hover : s.inCapR.toNat < s.inLen.toNat
  · obtain ⟨t, ht, hended, -⟩ := commandOverInputCapacityEndsIo s i hb hover
    obtain ⟨t', ht', hended', -⟩ := commandOverInputCapacityEndsIo s' i hb' (by rwa [← hcap, ← hlen])
    obtain rfl := Host.Outcome.next.inj (he.symm.trans ht)
    obtain rfl := Host.Outcome.next.inj (he'.symm.trans ht')
    exact .inr ⟨hended.1, endsAlike_of_noOutput hended (hcap ▸ hended')⟩
  · have hfit := Nat.not_lt.mp hover
    have hfit' : s'.inLen.toNat ≤ s'.inCapR.toNat := by rwa [← hcap, ← hlen]
    have hinput : ∀ j < s.inLen.toNat, s'.inBuf.read j = s.inBuf.read j := fun j hj => (hin hfit j hj).symm
    cases i with
    | compress =>
      obtain rfl := Host.Outcome.next.inj (he.symm.trans (exec_compress_of_fits hb hfit))
      obtain rfl := Host.Outcome.next.inj (he'.symm.trans (exec_compress_of_fits hb' hfit'))
      exact .inl ⟨nofun, rfl, rfl, rfl, hlen.symm, rfl, rfl, hout.symm, fun _ => ⟨rfl, nofun⟩, nofun, hinput, nofun⟩
    | decompress =>
      rcases Nat.mod_two_eq_zero_or_one s.inLen.toNat with heven | hodd
      · obtain rfl := Host.Outcome.next.inj (he.symm.trans (exec_decompress_of_fits hb hfit heven))
        obtain rfl := Host.Outcome.next.inj (he'.symm.trans (exec_decompress_of_fits hb' hfit' (hlen ▸ heven)))
        exact .inl ⟨nofun, rfl, rfl, rfl, hlen.symm, rfl, rfl, hout.symm, nofun, fun _ => ⟨rfl, nofun⟩, hinput, nofun⟩
      · obtain rfl := Host.Outcome.next.inj (he.symm.trans (exec_decompress_of_odd hb hfit hodd))
        obtain rfl := Host.Outcome.next.inj (he'.symm.trans (exec_decompress_of_odd hb' hfit' (hlen ▸ hodd)))
        have hended := (ended_commit_fresh (s := s) (.inr rfl) .framing (s.inLen - 1)).1
        have hended' := (ended_commit_fresh (s := s') (.inr rfl) .framing (s'.inLen - 1)).1
        exact .inr ⟨rfl, endsAlike_of_noOutput hended (hlen ▸ hended')⟩

/-- Settles O58: with no host beside them the two runs go alike step by step, and the host's reads do not change what either comes to. -/
theorem endStateIgnoresHistory : Obligations.EndStateIgnoresHistory := by
  intro s s' a a' t i k _ _ hr hr' hlen hcap hout hin he he' hk hi
  obtain ⟨u, hu, hut, -⟩ := blockRun_of_runSteps (exec_hostOnlyReads he hr) hk
  have hui : u.phase = .idle := hut.symm.eqs.2.1.trans hi
  have halike : ∃ u', blockRun (blockSteps k a) a' = .next u' ∧ EndsAlike u u' := by
    rcases exec_alike hlen hcap hout hin he he' with halike | ⟨hai, hends⟩
    · exact halike.blockRun hu hui
    · obtain ⟨hzero, rfl⟩ := blockRun_of_idle hai hu
      exact ⟨a', by rw [hzero, Laws.blockRun], hends⟩
  obtain ⟨u', hu', hends⟩ := halike
  obtain ⟨t', ⟨k', hk', hn, -⟩, hut', -⟩ := runsTo_blockRun (exec_hostOnlyReads he' hr') hu'
  have hends' : EndsAlike u t' := sameBlock_keeps (P := fun w => EndsAlike u w) (fun _ _ _ _ h => h) hut' hends
  obtain ⟨hended, hbytes⟩ := sameBlock_keeps (P := fun w => EndsAlike w t') (fun _ _ _ _ h => h) hut hends'
  exact ⟨k', t', hk', hn, hended, hbytes⟩

end Sys2Proof.Proofs

/-! Proofs of the statements of 60_exceptions.md: FRAMING (R201), the precision of a block error (R207), and an idle block with no host
action pending (R216, R231). -/

namespace Sys2Proof.Proofs

open Sys2Proof.Machine Sys2Proof.Laws

/-! ### FRAMING -/

/-- Step 0 of a command answers FRAMING only where FRM.CHECK raises it (R160, R201). -/
theorem odd_decompress_of_exec_framing {i : Instr} {s t : State} (h : exec i s = .next t) (ht : t.status = 0x12#32) :
    i = .decompress ∧ s.inLen.toNat ≤ s.inCapR.toNat ∧ s.inLen.toNat % 2 = 1 := by
  obtain ⟨-, ⟨-, -, rfl⟩ | ⟨-, -, rfl⟩ | ⟨-, -, -, rfl⟩ | ⟨-, -, rfl⟩ | ⟨hi, hcap, hodd, -⟩⟩ := exec_next h
  · simp at ht
  · simp at ht
  · simp at ht
  · simp at ht
  · exact ⟨hi, hcap, hodd⟩

/-- A CMD write answers FRAMING only as the DECOMPRESS word: an illegal word records ILLEGAL_CMD (R182). -/
theorem decode_of_hostCmdWrite_framing {v : Word} {s t : State} (h : hostCmdWrite v s = .next t) (ht : t.status = 0x12#32) :
    decode v = .ok .decompress := by
  cases hv : decode v with
  | ok i =>
    rw [hostCmdWrite_of_command s hv] at h
    rw [(odd_decompress_of_exec_framing h ht).1]
  | error e =>
    rw [hostCmdWrite_of_illegal s hv, illegalCmd, whenIdle] at h
    split_ifs at h
    obtain rfl := Host.Outcome.next.inj h
    simp at ht

/-- A host action that is no CMD write keeps STATUS, or is RESET and clears it (R21, R230). -/
theorem hostAccess_status {op : HostOp} {s t : State} (h : hostAccess op s = .next t) :
    (∃ v, op = .regWrite 32 0x00 v ∧ hostCmdWrite v s = .next t) ∨ t.status = s.status ∨ t.status = 0 := by
  rcases hostAccess_next h with hcmd | ⟨v, -, -, rfl⟩ | ⟨off, v, -, rfl⟩ | ⟨r, -, rfl⟩ | ⟨i, v, -, -, -, rfl⟩ |
    ⟨-, rfl⟩ | ⟨-, rfl⟩
  · exact .inl hcmd
  · exact .inr (.inl rfl)
  · exact .inr (.inl rfl)
  · exact .inr (.inl rfl)
  · exact .inr (.inl rfl)
  · exact .inr (.inl (sameBlock_hostPoll s).eqs.1)
  · exact .inr (.inr rfl)

/-- The block's own steps end a command with OK, IO or BAD_CODE only, so none of them newly records FRAMING (R200, R201). -/
theorem blockStep_framing {s t : State} (h : blockStep s = .next t) (ht : t.status = 0x12#32) : s.status = 0x12#32 := by
  rcases blockStep_itemDone_or_commit h with hitem | ⟨e, pos, u, rfl, he, -⟩
  · exact hitem.status.symm.trans ht
  · rcases he with ⟨rfl, -⟩ | rfl | rfl <;> simp at ht

/-- Settles O9: FRAMING is the answer of FRM.CHECK in step 0 of a DECOMPRESS, and STATUS comes to it by no other move of the machine. -/
theorem oddInputEndsFraming : Obligations.OddInputEndsFraming := by
  refine ⟨fun s hb hcap hodd => ?_, fun s t i => odd_decompress_of_exec_framing, fun s t hs h ht => ?_⟩
  · rw [← statusEnded_framing]
    exact ⟨_, exec_decompress_of_odd hb hcap hodd, ended_commit_fresh (.inr rfl) .framing (s.inLen - 1)⟩
  · rcases step_next h with ⟨-, -, rfl⟩ | ⟨a, rest, hh, hd, h⟩ | ⟨-, -, h⟩
    · exact absurd ht hs
    · rcases hostAccess_status h with ⟨v, hop, hcmd⟩ | hkeep | hreset
      · exact ⟨a, rest, v, ⟨hh, hd⟩, hop, decode_of_hostCmdWrite_framing hcmd ht⟩
      · exact absurd (hkeep.symm.trans ht) hs
      · simp [hreset] at ht
    · exact absurd (blockStep_framing h ht) hs

/-! ### The precision of a block error -/

/-- STATUS.ERR of an ended command is the number of its error kind (R23, R200). -/
@[simp] theorem commit_err (e : Err) (pos : Word) (s : State) : (commit e pos s).err = e.code := by
  rw [State.err, commit_status]
  cases e <;> rfl

/-- A block step that newly shows an error is `commit` of IO or BAD_CODE on the state before it (R207): an item done keeps
STATUS, and ENC.FLUSH and DEC.END, which have effects of their own, end with OK. -/
theorem blockStep_error {s t : State} (h : blockStep s = .next t) (hs : s.err = 0) (ht : t.err ≠ 0) :
    ∃ e pos, (e = .io ∨ e = .badCode) ∧ t = commit e pos s := by
  have notItem : ¬ItemDone s t := fun hitem => ht (by rw [← hs, State.err, State.err, hitem.status])
  rcases blockStep_cases h with ⟨-, -, h⟩ | ⟨-, -, -, h⟩ | ⟨-, -, -, h⟩ | ⟨-, -, h⟩ | ⟨-, -, rfl⟩ | herror
  · exact absurd (encByte_itemDone h) notItem
  · exact absurd (decFirst_itemDone h) notItem
  · exact absurd (decCode_itemDone h) notItem
  · rcases encFlush_done h with ⟨-, -, -, rfl⟩ | ⟨-, rfl⟩
    · exact absurd (commit_err ..) ht
    · exact absurd (commit_err ..) ht
  · exact absurd (commit_err ..) ht
  · exact herror

/-- Settles O18: the step is `commit` on the state before it, and `commit` writes STATUS, the results and the dropped datapath only. -/
theorem blockErrorIsPrecise : Obligations.BlockErrorIsPrecise := by
  intro s t hs ⟨hrun, hwait⟩ h _ ht
  rw [step_of_blockMoves hrun hwait] at h
  have hok : (blockTurn s).err = 0 := by rw [State.err, blockTurn_status, hs]; rfl
  obtain ⟨e, pos, -, rfl⟩ := blockStep_error h hok ht
  exact ⟨commit_busy .., ⟨rfl, rfl, rfl, rfl, rfl⟩, rfl, ⟨rfl, rfl, rfl, rfl, rfl⟩, rfl, rfl, rfl, rfl⟩

/-! ### An idle block with no host action pending -/

/-- With no host action pending the step of an idle block changes nothing (R216; log entry 11). -/
theorem step_of_idle_noHost {s : State} (hp : s.phase = .idle) (hh : s.host = []) : step s = .next s := by
  simp only [step, move, hh, hp, if_true]

/-- Settles O36, by induction on the number of steps. -/
theorem idleBlockWithoutHostStays : Obligations.IdleBlockWithoutHostStays := by
  intro s k hp hh
  induction k with
  | zero => rfl
  | succ k ih => rw [runSteps_succ k (step_of_idle_noHost hp hh), ih]

end Sys2Proof.Proofs

/-! Proofs of the statements of 70_reset_and_hazards.md: the state after reset (R230), the host's writes while BUSY (R234, R235), and that
a command ends within its number of steps (R238). -/

namespace Sys2Proof.Proofs

open Sys2Proof.Machine Sys2Proof.Laws

/-! ### A command ends within its number of steps -/

/-- The block steps of a running command are bounded by what it has left: the last one is taken with the input cursor still in range
(R192). -/
theorem Runs.ends_within_stepsLeft {s : State} (hs : Runs s) :
    ∃ n t, n ≤ stepsLeft s ∧ blockRun n s = .next t ∧ t.phase = .idle ∧ t.done = true := by
  obtain ⟨n, u, t, hrun, hu, hsame, hip, hlast, hi⟩ := hs.exists_lastStep
  have hdone : t.done = true := by
    rcases blockStep_results_or_ended hlast with ⟨hphase, -⟩ | ⟨-, hdone⟩
    · exact absurd (hphase.symm.trans hi) hu.running
    · exact hdone
  refine ⟨n + 1, t, ?_, hrun, hi, hdone⟩
  obtain ⟨-, -, henc, hdec⟩ := hu.cursors hu.running
  have hcount : codeCount u = codeCount s := by rw [codeCount, codeCount, hsame.nIn]
  rw [hsame.phase, hsame.nIn] at henc
  rw [hsame.phase, hcount] at hdec
  cases hp : s.phase with
  | idle => exact absurd hp hs.running
  | enc =>
    obtain ⟨hle, -⟩ := henc hp
    simp only [stepsLeft, hp]
    omega
  | dec =>
    obtain ⟨-, hle⟩ := hdec hp
    simp only [stepsLeft, hp]
    omega

/-- An accepted command whose input is written ends; where its acceptance already ended it, it takes no further step (R183, R238). -/
theorem exec_ends_within_stepsLeft {i : Instr} {s a : State} (he : exec i s = .next a)
    (hw : ∀ j < s.inLen.toNat, s.inBuf.read j ≠ none) :
    ∃ n t, n ≤ stepsLeft a ∧ blockRun n a = .next t ∧ t.phase = .idle ∧ t.done = true := by
  rcases exec_results_or_ended he with ⟨hrun, -⟩ | ⟨hidle, hdone⟩
  · exact (exec_runs he hrun hw).ends_within_stepsLeft
  · exact ⟨0, a, Nat.zero_le _, rfl, hidle, hdone⟩

theorem stepsLeft_of_compress {s a : State} (he : exec .compress s = .next a) : stepsLeft a ≤ s.inLen.toNat + 1 := by
  obtain ⟨-, ⟨-, -, rfl⟩ | ⟨-, -, rfl⟩ | ⟨hi, -⟩ | ⟨hi, -⟩ | ⟨hi, -⟩⟩ := exec_next he
  · simp [stepsLeft]
  · exact Nat.zero_le _
  all_goals cases hi

theorem stepsLeft_of_decompress {s a : State} (he : exec .decompress s = .next a) : stepsLeft a ≤ s.inLen.toNat / 2 + 1 := by
  obtain ⟨-, ⟨hi, -⟩ | ⟨hi, -⟩ | ⟨-, -, -, rfl⟩ | ⟨-, -, rfl⟩ | ⟨-, -, -, rfl⟩⟩ := exec_next he
  · cases hi
  · cases hi
  · simp [stepsLeft, codeCount]
  · exact Nat.zero_le _
  · exact Nat.zero_le _

/-- Settles O57: the block's own steps end the command within `stepsLeft` after acceptance, and the host's reads add no block step. -/
theorem commandEndsWithinStepBound : Obligations.CommandEndsWithinStepBound := by
  intro s a i _ hr hw he
  obtain ⟨n, t, hle, hrun, hi, hdone⟩ := exec_ends_within_stepsLeft he hw
  obtain ⟨u, hends, hsame, -⟩ := endsAfter_of_blockRun hr he hrun hi
  refine ⟨n, u, ?_, hends, sameBlock_keeps (P := fun s => s.done = true) (fun _ _ _ _ h => h) hsame hdone⟩
  cases i with
  | compress => exact hle.trans (stepsLeft_of_compress he)
  | decompress => exact hle.trans (stepsLeft_of_decompress he)

/-! ### The host's writes while BUSY -/

theorem whenIdle_of_busy {s : State} (hb : s.busy = true) (r : Host.Outcome State Fault Refusal) :
    whenIdle s r = .refused .cmdWhileBusy := if_pos hb

/-- While BUSY a command's step 0 is refused (R234). -/
theorem exec_of_busy (i : Instr) {s : State} (hb : s.busy = true) : exec i s = .refused .cmdWhileBusy := by
  cases i
  · exact whenIdle_of_busy hb _
  · exact whenIdle_of_busy hb _

/-- While BUSY a CMD write is refused, whether its word is a command or not (R234). -/
theorem hostCmdWrite_of_busy (v : Word) {s : State} (hb : s.busy = true) : hostCmdWrite v s = .refused .cmdWhileBusy := by
  cases hv : decode v with
  | ok i => exact (hostCmdWrite_of_command s hv).trans (exec_of_busy i hb)
  | error e => exact (hostCmdWrite_of_illegal s hv).trans (whenIdle_of_busy hb _)

/-- Settles O10: taking the action off the queue keeps BUSY, and the write reaches CMD. -/
theorem cmdWriteWhileBusyIsRefused : Obligations.CmdWriteWhileBusyIsRefused :=
  ⟨fun _ i hb => exec_of_busy i hb, fun s a rest v hm hop hb =>
    (step_cmdWrite hm hop).trans (hostCmdWrite_of_busy v (s := takeAction a rest s) hb)⟩

theorem hostRegWrite_inLen_of_busy (v : Word) {s : State} (hb : s.busy = true) :
    hostRegWrite 0x08 v s = .refused .inLenWhileBusy := by
  rw [hostRegWrite, if_neg (by decide), if_pos rfl, if_pos hb]

theorem hostInWrite_of_busy (i : Nat) (v : Byte) {s : State} (hb : s.busy = true) :
    hostInWrite i v s = .refused .inBufWhileBusy := if_pos hb

/-- Settles O31: both accesses are well formed, so BUSY is what refuses them. -/
theorem busyInputWritesRefused : Obligations.BusyInputWritesRefused := by
  intro s a rest ⟨hh, hd⟩ hb
  rw [step_of_hostDue hh hd]
  refine ⟨fun v hop => ?_, fun i v hop hi => ?_⟩
  · rw [hop, hostAccess_regWrite _ _ rfl]
    exact hostRegWrite_inLen_of_busy v (s := takeAction a rest s) hb
  · rw [hop, hostAccess_inWrite v (s := takeAction a rest s) hi]
    exact hostInWrite_of_busy i v (s := takeAction a rest s) hb

/-! ### The state after reset -/

/-- The values that 10_state.md section 6 fixes after reset, with both buffers unwritten (log entries 5 and 6). -/
structure ResetValues (s : State) : Prop where
  registers : Ended s 0 0 0 0
  inLen : s.inLen = 0
  dict : s.dict = []
  inBuf : s.inBuf = []
  outBuf : s.outBuf = []

theorem resetValues_resetWith (c d : Word) : ResetValues (State.resetWith c d) := ⟨⟨rfl, rfl, rfl, rfl, rfl⟩, rfl, rfl, rfl, rfl⟩

theorem resetValues_hostReset (s : State) : ResetValues (hostReset s) := ⟨⟨rfl, rfl, rfl, rfl, rfl⟩, rfl, rfl, rfl, rfl⟩

theorem read_nil (i : Nat) : Memory.read [] i = none := rfl

section
variable {s : State} (hs : ResetValues s)
include hs

theorem ResetValues.phase : s.phase = .idle := hs.registers.1

theorem ResetValues.inBuf_read (i : Nat) : s.inBuf.read i = none := by rw [hs.inBuf, read_nil]

theorem ResetValues.outBuf_read (i : Nat) : s.outBuf.read i = none := by rw [hs.outBuf, read_nil]

theorem ResetValues.statusForms : StatusForms s := by
  obtain ⟨hphase, hstatus, -⟩ := hs.registers
  simp [StatusForms, hphase, hstatus]

theorem ResetValues.buffersCanonical : BuffersCanonical s := by
  rw [BuffersCanonical, hs.inBuf, hs.outBuf]
  exact ⟨.nil, .nil, nofun, nofun⟩

/-- The results are those of a fresh block: all 0. -/
theorem ResetValues.resultsInRange : ResultsInRange s := by
  obtain ⟨hphase, hstatus, herr, hout, hdict⟩ := hs.registers
  simp [ResultsInRange, hphase, hstatus, herr, hout, hdict]

end

/-- An idle block encodes nothing, so there is nothing for it to agree on. -/
theorem encoderAgrees_of_idle {s : State} (hp : s.phase = .idle) : EncoderAgrees s := fun h => nomatch hp.symm.trans h

/-- An idle block decodes nothing, so there is nothing for it to agree on. -/
theorem decoderAgrees_of_idle {s : State} (hp : s.phase = .idle) : DecoderAgrees s := fun h => nomatch hp.symm.trans h

/-- Settles O34: the due RESET is the step, whatever runs. -/
theorem resetActionRestoresResetValues : Obligations.ResetActionRestoresResetValues := by
  intro s a rest ⟨hh, hd⟩ hop
  have hreset := resetValues_hostReset (takeAction a rest s)
  rw [step_of_hostDue hh hd, hop]
  exact ⟨_, rfl, hreset.registers, hreset.inLen, hreset.dict, hreset.inBuf_read, hreset.outBuf_read, rfl, rfl, rfl, rfl, rfl⟩

/-- Settles O35: `State.reset` is the reset state at the parameters IN_CAP and OUT_CAP. -/
theorem resetStateValues : Obligations.ResetStateValues := by
  intro s hs
  have hreset : ResetValues s := by
    rcases hs with rfl | ⟨c, d, rfl⟩
    · exact resetValues_resetWith _ _
    · exact resetValues_resetWith c d
  refine ⟨hreset.registers, hreset.inLen, hreset.dict, hreset.inBuf_read, hreset.outBuf_read, ?_⟩
  rintro rfl
  exact ⟨rfl, rfl⟩

/-- Settles O44: no command runs and no dictionary exists, the buffers list no byte, and STATUS and the results are 0. -/
theorem resetMeetsInvariants : Obligations.ResetMeetsInvariants := by
  intro c d
  have hs := resetValues_resetWith c d
  obtain ⟨hshape, hencoder, hdecoder⟩ := dictionaryOk_of_idle hs.phase hs.dict
  exact ⟨hs.statusForms, hs.buffersCanonical, cursorsInRange_of_idle hs.phase, hs.resultsInRange, hshape, hencoder, hdecoder,
    encoderAgrees_of_idle hs.phase, decoderAgrees_of_idle hs.phase, rfl⟩

end Sys2Proof.Proofs

/-! Proof of the statement about placing a command word (log entry 10). -/

namespace Sys2Proof.Proofs

open Sys2Proof.Machine Sys2Proof.Laws

/-- The table decoder takes nothing that a CMD write of the same word (R82) would not take. -/
theorem decode_of_decodeTableWord {nbits w : Nat} {i : Instr} (h : decodeTableWord nbits w = some i) :
    decode (BitVec.ofNat 32 (w % 2 ^ nbits)) = .ok i := by
  unfold decodeTableWord at h
  split_ifs at h
  cases hd : decode (BitVec.ofNat 32 (w % 2 ^ nbits)) with
  | error e => simp [hd, Except.toOption] at h
  | ok j => simpa [hd, Except.toOption] using h

/-- A pending CMD write is the host's due action, since the block was made idle. -/
theorem hostMoves_pendCmdWrite (v : Word) (s : State) : HostMoves (pendCmdWrite v s) ⟨0, .regWrite 32 0x00 v⟩ s.host :=
  ⟨rfl, rfl⟩

/-- Taking a pending write of a command leaves the host's own queue, and draws once for the acceptance (R15, R74). -/
theorem takeAction_pendCmdWrite {v : Word} {i : Instr} (s : State) (hv : decode v = .ok i) :
    takeAction ⟨0, .regWrite 32 0x00 v⟩ s.host (pendCmdWrite v s) = { setIdle s with draws := s.draws + 1 } := by
  have hfresh : freshDraw (.regWrite 32 0x00 v) (pendCmdWrite v s) = true := by simp [freshDraw, hv, Except.toOption]
  rw [takeAction, if_pos hfresh]
  rfl

/-- Settles O5: the placed word is the due CMD write of the command it decodes to. -/
theorem fetchWordStepRunsCommand : Obligations.FetchWordStepRunsCommand := by
  intro s nbits w i hw
  have hv := decode_of_decodeTableWord hw
  obtain ⟨-, hstep⟩ := cmdWriteStepRunsCommand _ _ _ _ i (hostMoves_pendCmdWrite _ s) rfl hv
  exact hstep.trans (congrArg (exec i) (takeAction_pendCmdWrite s hv))

end Sys2Proof.Proofs
